-- ==== Sys2Proof/Word.lean ====
section
/-! DEFINITION. The word types of the block: bytes, 32-bit words, 256-bit digests (00_scope.md R10, R11). -/

namespace Sys2Proof

/-- A byte (R11). -/
abbrev Byte := BitVec 8

/-- A register or bus word (R10); also a SHA-256 word (R121). -/
abbrev Word := BitVec 32

/-- A 256-bit value: a digest or a reduced field element. Byte k sits at bits [255-8k : 248-8k] (R133, R173). -/
abbrev Wide := BitVec 256

/-- Addition modulo 2^32, written `+32` in the spec (R12). -/
abbrev add32 (x y : Word) : Word := x + y

end Sys2Proof
end

