-- ==== Sys2Proof/Machine/Bytes.lean ====
section
/-! DEFINITION. Byte strings and their conversions (00_scope.md R11, R12, R14 to R16). Every conversion is big-endian
(20_memory.md R76). -/

namespace Sys2Proof.Machine

/-- `zeros(n)`: n bytes of value 0 (R11). -/
def zeros (n : Nat) : List Byte := List.replicate n 0

/-- `slice(s, a, b)`: the bytes `s[a], …, s[b-1]`, for a ≤ b ≤ len(s) (R11). DESIGN CHOICE (log 26): outside that range, the
bytes of it that there are. -/
def slice (s : List Byte) (a b : Nat) : List Byte := (s.drop a).take (b - a)

/-- `ceil(a / b)` for b > 0 (R12). DESIGN CHOICE (log 26): 0 for b = 0. -/
def ceilDiv (a b : Nat) : Nat := (a + b - 1) / b

/-- `I2OSP(x, n)`: byte k is `(x div 256^(n-1-k)) mod 256` (R14). The spec calls it undefined for x ≥ 256^n,
and the block uses it only for x < 256^n. DESIGN CHOICE (log 26): the model's total function gives there what the same
formula gives, the n low bytes of x. -/
def i2osp (x n : Nat) : List Byte :=
  (List.range n).map fun k => BitVec.ofNat 8 (x / 256 ^ (n - 1 - k) % 256)

/-- `OS2IP(s)`: the sum of `s[k] * 256^(len(s)-1-k)` (R15). -/
def os2ip : List Byte → Nat
  | [] => 0
  | b :: s => b.toNat * 256 ^ s.length + os2ip s

/-- `a XOR b` on byte strings of one length, byte by byte (R16). DESIGN CHOICE (log 26): of two strings of
different length the longer one is cut. -/
def xorBytes (a b : List Byte) : List Byte := List.zipWith (· ^^^ ·) a b

/-- The 32 bytes of a 256-bit register: byte k is bits [255-8k : 248-8k] (R133, R173). -/
def wideBytes (x : Wide) : List Byte := i2osp x.toNat 32

/-- The 256-bit register that holds 32 bytes, byte 0 uppermost (R133). -/
def bytesWide (s : List Byte) : Wide := BitVec.ofNat 256 (os2ip s)

end Sys2Proof.Machine
end

