-- ==== Sys2Proof/Machine/Constants.lean ====
section
/-! DEFINITION. The fixed constants of the block (00_scope.md R8, 44_modular_reduction.md R210) and the address map
(20_memory.md R75). -/

namespace Sys2Proof.Machine

/-- DST_MAX: the largest domain-tag length (R8). -/
def dstMax : Nat := 32

/-- ELEM_SIZE: bytes of expanded output per field element (R8). -/
def elemSize : Nat := 48

/-- HASH_LEN: the digest length in bytes (R8). -/
def hashLen : Nat := 32

/-- ZPAD_LEN: the length of the zero block before the message (R8). -/
def zpadLen : Nat := 64

/-- ELL_MAX: the largest number of output digests (R8). -/
def ellMax : Nat := 255

/-- OUT_LEN_MAX: the largest EXPAND output length (R8). -/
def outLenMax : Nat := 8160

/-- COUNT_MAX: the largest HASH_TO_FIELD count (R8). -/
def countMax : Nat := 170

/-- FE_BYTES: bytes of OUT_BUF per field element (R8). -/
def feBytes : Nat := 32

/-- OUT_BUF_SIZE (R8). -/
def outBufSize : Nat := 8192

/-- DST_BUF_SIZE (R8). -/
def dstBufSize : Nat := 32

/-- FIELD_ORDER, the prime modulus p (R210). -/
def fieldOrder : Nat := 0x30644e72e131a029b85045b68181585d97816a916871ca8d3c208c16d87cfd47

/-- The constant of ID, "HTF1" (10_state.md R31). -/
def idValue : Word := 0x48544631#32

/-- The offset of DST_BUF (R75). -/
def dstBufBase : Nat := 0x0100

/-- The offset of OUT_BUF (R75). -/
def outBufBase : Nat := 0x2000

/-- The offset of MSG_BUF (R75). -/
def msgBufBase : Nat := 0x4000

/-- The first offset after the control region (R72). -/
def controlEnd : Nat := 0x0100

end Sys2Proof.Machine
end

