-- ==== Sys2Proof/Syntax.lean ====
section
/-! DEFINITION. The two commands (spec/opcode_table.json; 30_encoding.md R101) and the events of the block's ports: bus
transactions (20_memory.md R70), reset (70_reset_and_hazards.md R280) and the engine's turns (R80, R86). -/

namespace Sys2Proof

/-- The commands, one constructor per row of the opcode table. A command word carries no operand (R102). -/
inductive Instr where
  /-- EXPAND, CMD word 0x00000001 (42_expand_message_xmd.md R185). -/
  | expand
  /-- HASH_TO_FIELD, CMD word 0x00000002 (45_hash_to_field.md R233). -/
  | hashToField
  deriving DecidableEq, Repr

/-- The kind of a bus transaction (R70). -/
inductive BusKind where
  | read
  | write
  deriving DecidableEq, Repr

/-- The size of a bus transaction: 1, 2 or 4 bytes (R70). -/
inductive BusSize where
  | one
  | two
  | four
  deriving DecidableEq, Repr

/-- A bus transaction `(kind, off, size, wdata)` (R70). `off` is the 16-bit offset in the window; `wdata` is used only by
a WRITE. -/
structure Transaction where
  kind  : BusKind
  off   : BitVec 16
  size  : BusSize
  wdata : Word
  deriving DecidableEq, Repr

/-- What can happen next at the block (log 1). The order of a list of events is one interleaving of the host, the engine
and the reset pin. -/
inductive Event where
  /-- The port delivers one transaction (R70, R84). -/
  | bus (t : Transaction)
  /-- The engine takes one turn of its sequencer (R45, R86). -/
  | engine
  /-- `rst_n` falls to 0 (R280). -/
  | assertReset
  /-- `rst_n` rises to 1 (R280). -/
  | releaseReset
  deriving DecidableEq, Repr

end Sys2Proof
end

