-- ==== Sys2Proof/Decode.lean ====
section
/-! DEFINITION. Decoding and encoding of the command word (30_encoding.md R100, R101, R103, R105, R108). -/

namespace Sys2Proof

/-- Why a command word, or a run of bytes, is no command. Both kinds of illegal word raise ILLEGAL_COMMAND (R103, R254). -/
inductive DecodeError where
  /-- RSV, bits [31:8], is not 0 (R100). -/
  | reservedBits
  /-- RSV is 0 and OP is neither 0x01 nor 0x02 (R101). -/
  | illegalOpcode
  /-- Fewer than four bytes: no command word (R100). -/
  | truncated
  deriving DecidableEq, Repr

/-- OP, bits [7:0] of the command word (R100). -/
def opField (w : Word) : BitVec 8 := w.extractLsb' 0 8

/-- RSV, bits [31:8] of the command word (R100). -/
def rsvField (w : Word) : BitVec 24 := w.extractLsb' 8 24

/-- The opcode map (R101). Total: every word is a command or is rejected by name (R105). -/
def decodeWord (w : Word) : Except DecodeError Instr :=
  if rsvField w ≠ 0 then .error .reservedBits
  else if opField w = 0x01 then .ok .expand
  else if opField w = 0x02 then .ok .hashToField
  else .error .illegalOpcode

/-- The word on the data lanes: byte k on bits [8k+7 : 8k] (20_memory.md R71). -/
def laneWord (b0 b1 b2 b3 : Byte) : Word := b3 ++ b2 ++ b1 ++ b0

/-- The four bytes of a word in lane order, byte 0 first (R71). -/
def laneBytes (w : Word) : List Byte :=
  [w.extractLsb' 0 8, w.extractLsb' 8 8, w.extractLsb' 16 8, w.extractLsb' 24 8]

/-- Decode a command from bytes in lane order; the bytes after the word are handed back. Every command is exactly one
32-bit word (R100). -/
def decode : List Byte → Except DecodeError (Instr × List Byte)
  | b0 :: b1 :: b2 :: b3 :: rest =>
    match decodeWord (laneWord b0 b1 b2 b3) with
    | .ok i => .ok (i, rest)
    | .error e => .error e
  | _ => .error .truncated

/-- The opcode of a command (R101). -/
def opcode : Instr → BitVec 8
  | .expand => 0x01
  | .hashToField => 0x02

/-- The command word of a command: RSV zero, OP the opcode (R100, R108). -/
def encode (i : Instr) : Word := (0 : BitVec 24) ++ opcode i

/-- The instruction the decoder reads from an instruction whose bits are `w`, numbered as spec/opcode_table.json numbers
them. The word lies in its lanes, every bit above `nbits` zero. -/
def decodeTableWord (nbits w : Nat) : Option Instr :=
  match decode (laneBytes (BitVec.ofNat 32 (w % 2 ^ nbits))) with
  | .ok (i, _) => some i
  | .error _ => none

end Sys2Proof
end

