-- ==== Sys2Proof/Config.lean ====
section
/-! DEFINITION. What the spec leaves to the implementation, the platform or chance (00_scope.md R9;
93_implementation_defined.md U1, U13, U14). -/

namespace Sys2Proof

/-- The byte stores whose contents reset leaves unspecified (10_state.md R46, R50): the window's three buffers, keyed by
window offset, and the two hidden staging buffers, keyed by index. -/
inductive Space where
  | window
  | expbuf
  | resbuf
  deriving DecidableEq, Repr

/-- FREE VALUE (log 2). The byte that reset number `epoch` draws for place `a` of a store, kept until the place is
written (R50, R280, U1). It has no body: nothing can be proved of which byte it is. -/
opaque Config.resetByte (sp : Space) (epoch a : Nat) : Byte

/-- The platform's choice of BASE, in units of 64 KiB (R9, U14; log 4). -/
opaque Config.baseIndex : Nat

/-- BASE: the bus address of offset 0 of the window, a multiple of 0x10000 (R9). -/
def Config.base : Nat := 0x10000 * Config.baseIndex

/-- The value of MSG_BUF_SIZE that `State.reset` uses: the default the spec suggests (R9). DESIGN CHOICE, unsafe (log 3):
an implementation may have any multiple of 4 from 4 to 0xC000. The register MSGBUF_SIZE is a field of State, so that
statements hold for every value. -/
def Config.defaultMsgBufSize : Word := 16384#32

end Sys2Proof
end

