-- ==== Sys2Proof/Machine/State.lean ====
section
/-! DEFINITION. Everything the spec gives the block to hold (10_state.md R30 to R50; 40_sha256_hash_engine.md R135), the
reasons a step can stop, and the state after reset (R50, 70_reset_and_hazards.md R282). -/

namespace Sys2Proof.Machine

/-- STATUS (R33). Bits [7:4] and [31:12] are RAZ/WI and have no storage (U4). -/
structure Status where
  /-- [0], 1 while an accepted command has not committed (R34). -/
  busy    : Bool
  /-- [1], 1 after a command committed (R35). -/
  done    : Bool
  /-- [2], 1 after a command was refused (R36). -/
  err     : Bool
  /-- [3], 1 after a write was dropped because BUSY was 1 (R37). -/
  busywr  : Bool
  /-- [11:8], the code of the last error while ERR = 1, else 0 (R36). -/
  errcode : BitVec 4
  deriving DecidableEq, Repr

/-- IRQ_EN (R38). Bits [31:2] are RAZ/WI and have no storage (U4). -/
structure IrqEn where
  enDone : Bool
  enErr  : Bool
  deriving DecidableEq, Repr

/-- The command errors (60_exceptions.md R251). Codes 5 to 15 do not exist (U6). -/
inductive ErrCode where
  /-- Code 1: DST_LEN > 32 (R250). -/
  | invalidDomainSize
  /-- Code 2: OUT_LEN > 8160 for EXPAND, COUNT > 170 for HASH_TO_FIELD (R253). -/
  | outLenRange
  /-- Code 3: MSG_LEN > MSG_BUF_SIZE (R252). -/
  | msgLenRange
  /-- Code 4: a word that is no command (R103). -/
  | illegalCommand
  deriving DecidableEq, Repr

/-- The sequencer state (R45), the block's stand-in for a program counter. -/
inductive Seq where
  | idle
  | expB0
  | expB1
  | expBI (j : Nat)
  | map (i : Nat)
  | commit
  deriving DecidableEq, Repr

/-- The command snapshot taken at acceptance (R46, R104). `op` is the accepted command; its 8 bits are `opcode op`
(log 15). -/
structure Snapshot where
  op     : Instr
  dstLen : Word
  msgLen : Word
  outLen : Word
  count  : Word
  deriving DecidableEq, Repr

/-- Eight 32-bit words: the hash value H0 to H7 or the working words a to h (R123, R128, R135). -/
structure HashWords where
  a : Word
  b : Word
  c : Word
  d : Word
  e : Word
  f : Word
  g : Word
  h : Word
  deriving DecidableEq, Repr

/-- Where the hash unit stands in a hash (R134). DESIGN CHOICE (log 7): the spec gives the handshake and no control
state. -/
inductive ShaPhase where
  /-- No hash in progress; `dig` holds the last digest. -/
  | idle
  /-- `in_ready = 1`: taking bytes. -/
  | absorb
  /-- Putting the padding of R124 into the block buffer. -/
  | pad
  /-- Loading a full block into the schedule window and the working words. -/
  | load
  /-- One round of R128 per cycle. -/
  | rounds
  /-- Adding the working words to the hash value (R129). -/
  | update
  /-- `dig_valid = 1`. -/
  | digest
  deriving DecidableEq, Repr

/-- The registers of sha256_hash_engine (R46, R135) and its control bits (log 7). -/
structure ShaRegs where
  /-- H0 to H7. -/
  hash         : HashWords
  /-- a to h. -/
  work         : HashWords
  /-- The 16-word schedule window, oldest word first. -/
  window       : List Word
  /-- The round counter. -/
  t            : BitVec 6
  /-- How many bytes of s have been taken. -/
  byteCount    : BitVec 16
  /-- The block assembly buffer: the bytes assembled so far, at most 64. -/
  block        : List Byte
  /-- How many blocks have been compressed. -/
  blockCount   : Nat
  phase        : ShaPhase
  /-- The last byte of s has been taken. -/
  lastTaken    : Bool
  /-- The byte 0x80 of R124 has been placed. -/
  markPlaced   : Bool
  /-- The length field of R124 has been placed. -/
  lengthPlaced : Bool
  deriving DecidableEq, Repr

/-- The two answers of the port (R70). -/
inductive Resp where
  | okay
  | slverr
  deriving DecidableEq, Repr

/-- What the port returned for a transaction (R70). `rdata` is `none` where the spec gives it no meaning: an OKAY answer
to a WRITE (log 12). -/
structure BusResponse where
  resp  : Resp
  rdata : Option Word
  deriving DecidableEq, Repr

/-- Whose step is being taken (R80; log 14). -/
inductive Agent where
  | host
  | engine
  deriving DecidableEq, Repr

/-- A byte store: the places written since reset with their bytes, addresses strictly rising (log 22). A place that is
not listed has not been written since reset (R284) and reads as the byte drawn for it (R50, U1). -/
abbrev Memory := List Host.Cell

/-- Why the machine stops with a fault. The spec describes no event that stops the block: a bad access is answered with
SLVERR (R72, R73) and a bad command with an error code (R255), both as next states. No constructor, so no step faults. -/
inductive Fault where
  deriving DecidableEq, Repr

/-- Why a step has no meaning. -/
inductive Refusal where
  /-- Raised by `exec` for an instruction without a meaning; no arm does. Safe: the run stops. -/
  | notModelled (mnemonic : String)
  /-- Raised by `step` for a bus access while `rst_n = 0`. The spec: "Any bus access made while rst_n = 0 has no effect,
  and its response is unspecified. A model refuses such accesses" (R280, U19; log 11). Safe: the run stops. -/
  | busAccessDuringReset
  deriving DecidableEq, Repr

/-- The state of the block. -/
@[ext]
structure State where
  /-- STATUS, offset 0x0008 (R33). -/
  status     : Status
  /-- IRQ_EN, offset 0x000C (R38). -/
  irqEn      : IrqEn
  /-- DST_LEN, offset 0x0010 (R39). -/
  dstLen     : Word
  /-- MSG_LEN, offset 0x0014 (R39). -/
  msgLen     : Word
  /-- OUT_LEN, offset 0x0018 (R39). -/
  outLen     : Word
  /-- COUNT, offset 0x001C (R39). -/
  count      : Word
  /-- RESULT_LEN, offset 0x0020 (R43). -/
  resultLen  : Word
  /-- MSGBUF_SIZE, offset 0x0024, hardwired to the parameter MSG_BUF_SIZE (R44, R9; log 3). -/
  msgbufSize : Word
  /-- DST_BUF, OUT_BUF and MSG_BUF by window offset (R40 to R42, R75). -/
  mem        : Memory
  /-- The sequencer state (R45). -/
  seq        : Seq
  /-- The command snapshot (R46). -/
  snap       : Snapshot
  /-- B0REG (R46). -/
  b0reg      : Wide
  /-- BIREG (R46). -/
  bireg      : Wide
  /-- J (R46). -/
  jreg       : BitVec 8
  /-- EXPBUF by index, 8160 bytes (R46). -/
  expbuf     : Memory
  /-- RESBUF by index, 8192 bytes (R46). -/
  resbuf     : Memory
  /-- The registers of sha256_hash_engine (R46, R135). -/
  sha        : ShaRegs
  /-- The level of the input `rst_n` (R241, R280). -/
  rstN       : Bool
  /-- The port's answer to the last transaction (R70). -/
  response   : Option BusResponse
  /-- The MODEL's own: the events still to happen, in order (log 1). -/
  input      : List Event
  /-- The MODEL's own: whose step is being taken (log 14). -/
  turn       : Agent
  /-- The MODEL's own: how many resets there have been, so that each draws the buffers afresh (R280; log 2). -/
  epoch      : Nat
  deriving DecidableEq, Repr

/-- STATUS = 0x00000000 (R50). -/
def Status.zero : Status := ⟨false, false, false, false, 0⟩

/-- Eight zero words. DESIGN CHOICE (log 5): the reset value of H0 to H7 and a to h is unspecified. -/
def HashWords.zero : HashWords := ⟨0, 0, 0, 0, 0, 0, 0, 0⟩

/-- The hash unit after reset. DESIGN CHOICE (log 5): unspecified and never observable, because `start` loads H(0)
before any use (R135). -/
def ShaRegs.atReset : ShaRegs where
  hash := HashWords.zero
  work := HashWords.zero
  window := List.replicate 16 0
  t := 0
  byteCount := 0
  block := []
  blockCount := 0
  phase := .idle
  lastTaken := false
  markPlaced := false
  lengthPlaced := false

/-- The command snapshot after reset. DESIGN CHOICE (log 5): unspecified and unobservable. -/
def Snapshot.atReset : Snapshot := ⟨.expand, 0, 0, 0, 0⟩

/-- The state that reset number `epoch` leaves, with `rst_n` at the level given (R50, R280): registers at their reset
values, `seq` IDLE, no buffer byte written, every buffer byte drawn afresh. -/
def State.resetValue (msgbufSize : Word) (epoch : Nat) (rstN : Bool) (input : List Event) : State where
  status := Status.zero
  irqEn := ⟨false, false⟩
  dstLen := 0
  msgLen := 0
  outLen := 0
  count := 0
  resultLen := 0
  msgbufSize := msgbufSize
  mem := []
  seq := .idle
  snap := Snapshot.atReset
  b0reg := 0
  bireg := 0
  jreg := 0
  expbuf := []
  resbuf := []
  sha := ShaRegs.atReset
  rstN := rstN
  response := none
  input := input
  turn := .host
  epoch := epoch

/-- The block right after reset, `rst_n` released, nothing yet sent to it (R50, R282). -/
def State.reset : State := State.resetValue Config.defaultMsgBufSize 0 true []

end Sys2Proof.Machine
end

