-- ==== Sys2Proof/Machine/Flags.lean ====
section
/-! DEFINITION. The STATUS and IRQ_EN words and the interrupt (10_state.md R33 to R38, R49; 60_exceptions.md R251, R263).
The block has no other flags (R48). -/

namespace Sys2Proof.Machine

/-- The number of an error code (R251). -/
def ErrCode.number : ErrCode → BitVec 4
  | .invalidDomainSize => 1
  | .outLenRange => 2
  | .msgLenRange => 3
  | .illegalCommand => 4

/-- A flag as one bit. -/
def bit (b : Bool) : BitVec 1 := if b then 1 else 0

/-- What a read of STATUS returns (R33): reserved bits read 0. -/
def Status.word (st : Status) : Word :=
  (0 : BitVec 20) ++ st.errcode ++ (0 : BitVec 4) ++ bit st.busywr ++ bit st.err ++ bit st.done ++ bit st.busy

/-- A write of `v` to STATUS (R33): 1 to bits 1 to 3 clears the flag, and clearing ERR clears ERRCODE; every other bit
of `v` is ignored. -/
def Status.writeOneToClear (v : Word) (st : Status) : Status where
  busy := st.busy
  done := st.done && !v.getLsbD 1
  err := st.err && !v.getLsbD 2
  busywr := st.busywr && !v.getLsbD 3
  errcode := if v.getLsbD 2 then 0 else st.errcode

/-- What a read of IRQ_EN returns (R38). -/
def IrqEn.word (e : IrqEn) : Word := (0 : BitVec 30) ++ bit e.enErr ++ bit e.enDone

/-- What a write of `v` to IRQ_EN stores: bits 0 and 1 (R38). -/
def IrqEn.ofWord (v : Word) : IrqEn := ⟨v.getLsbD 0, v.getLsbD 1⟩

/-- `irq` (R49): a level, a function of the state. -/
def State.irq (s : State) : Bool :=
  (s.status.done && s.irqEn.enDone) || (s.status.err && s.irqEn.enErr)

end Sys2Proof.Machine
end

