-- ==== Sys2Proof/Machine/Ports.lean ====
section
/-! DEFINITION. The ports of the sub-blocks, one record per port list (40_sha256_hash_engine.md R133,
41_xor_message_domain_mixer.md R173, 42_expand_message_xmd.md R199, 43_byte_slice_and_interpret.md R205,
45_hash_to_field.md R241). An output with its `valid` pulse is an Option where nothing else depends on the two apart.
`clk` is one application of a unit's function; `rst_n` of a sub-block is the block's own (`State.resetValue`). -/

namespace Sys2Proof.Machine

/-- The inputs of sha256_hash_engine (R133). -/
structure ShaIn where
  start   : Bool
  inValid : Bool
  inByte  : Byte
  inLast  : Bool
  inEmpty : Bool
  deriving DecidableEq, Repr

/-- The outputs of sha256_hash_engine (R133). -/
structure ShaOut where
  inReady  : Bool
  digValid : Bool
  dig      : Wide
  deriving DecidableEq, Repr

/-- One byte of a stream, with `out_last` (R173) or `in_last` (R133). -/
structure StreamBeat where
  byte : Byte
  last : Bool
  deriving DecidableEq, Repr

/-- The mixer control ports, which the pipeline drives (R173, R199). -/
structure MixerControl where
  /-- 0: MIX_MSGPRIME; 1: MIX_FIRST; 2: MIX_CHAIN; 3: unused, never driven. -/
  mode   : BitVec 2
  /-- Pulse: start emitting the input that `mode` selects. -/
  go     : Bool
  j      : BitVec 8
  outLen : BitVec 16
  dstLen : BitVec 6
  msgLen : BitVec 16
  b0     : Wide
  bprev  : Wide
  deriving DecidableEq, Repr

/-- The inputs of xor_message_domain_mixer (R173): the control ports, the data side of the buffer read port, and
`out_ready`, which is `in_ready` of the hash unit. -/
structure MixerIn extends MixerControl where
  rdData   : Byte
  outReady : Bool
  deriving DecidableEq, Repr

/-- The outputs of xor_message_domain_mixer (R173): the address side of the buffer read port, a window offset while a
buffer byte is wanted, and the byte stream to the `in_*` ports of the hash unit. -/
structure MixerOut where
  rdAddr   : Option (BitVec 16)
  outValid : Bool
  outByte  : Byte
  outLast  : Bool
  outEmpty : Bool
  deriving DecidableEq, Repr

/-- The inputs of expand_message_xmd_pipeline (R199), the hash unit's `dig` and `dig_valid` among them. -/
structure PipelineIn where
  /-- Pulse: begin at EXP_B0. -/
  start    : Bool
  dstLen   : BitVec 6
  msgLen   : BitVec 16
  outLen   : BitVec 14
  dig      : Wide
  digValid : Bool
  deriving DecidableEq, Repr

/-- The EXPBUF write port of expand_message_xmd_pipeline (R199). -/
structure ExpbufWrite where
  addr : BitVec 13
  data : Wide
  deriving DecidableEq, Repr

/-- The outputs of expand_message_xmd_pipeline (R199). -/
structure PipelineOut where
  mixer       : MixerControl
  /-- `start` of the hash unit. -/
  hashStart   : Bool
  expbufWrite : Option ExpbufWrite
  /-- Pulse: EXPBUF holds the expanded bytes. -/
  done        : Bool
  deriving DecidableEq, Repr

/-- The inputs of big_endian_byte_slice_and_interpret (R205), the data side of its EXPBUF read port among them. R205 allows
8 bits of data or more; the model's port has 8 (log 25). -/
structure SliceIn where
  /-- The element index i. -/
  idx    : BitVec 8
  /-- Pulse: read chunk idx. -/
  go     : Bool
  rdData : Byte
  deriving DecidableEq, Repr

/-- The outputs of big_endian_byte_slice_and_interpret (R205): the address side of its EXPBUF read port, absent in a cycle
that reads nothing, and `x` with `x_valid`. -/
structure SliceOut where
  rdAddr : Option (BitVec 13)
  x      : Option (BitVec 384)
  deriving DecidableEq, Repr

/-- The output pins of hash_to_field_mapper_top: the bus slave's answer and `irq` (R241). -/
structure TopOut where
  response : Option BusResponse
  irq      : Bool
  deriving DecidableEq, Repr

end Sys2Proof.Machine
end

