-- ==== Sys2Proof/Machine/Ops.lean ====
section
/-! DEFINITION. The named operations over byte stores and registers, entering an error (60_exceptions.md R255), leaving
one (R257), dropping a write (10_state.md R53), and reset (70_reset_and_hazards.md R280). -/

namespace Sys2Proof.Machine

/-- The byte written at `a` since reset, if any (70_reset_and_hazards.md R284). -/
def Memory.lookup : Memory → Nat → Option Byte
  | [], _ => none
  | (a, b) :: m, x => if x = a then some b else Memory.lookup m x

/-- Write one byte, keeping the addresses rising. -/
def Memory.store : Memory → Nat → Byte → Memory
  | [], x, v => [(x, v)]
  | (a, b) :: m, x, v =>
    if x < a then (x, v) :: (a, b) :: m
    else if x = a then (x, v) :: m
    else (a, b) :: Memory.store m x v

/-- Write a byte string at consecutive addresses, first byte at `x`. -/
def Memory.storeBytes : Memory → Nat → List Byte → Memory
  | m, _, [] => m
  | m, x, v :: vs => Memory.storeBytes (Memory.store m x v) (x + 1) vs

/-- The canonical form: addresses strictly rising (log 22). -/
def Memory.wf : Memory → Bool
  | [] => true
  | [_] => true
  | (a, _) :: (c, d) :: m => decide (a < c) && Memory.wf ((c, d) :: m)

/-- The byte at `a` of a store: the one written since reset, else the one that reset drew (R50, U1; log 2). -/
def readCell (sp : Space) (epoch : Nat) (m : Memory) (a : Nat) : Byte :=
  (Memory.lookup m a).getD (Config.resetByte sp epoch a)

/-- The byte at a window offset of DST_BUF, OUT_BUF or MSG_BUF. -/
def State.byteAt (s : State) (off : Nat) : Byte := readCell .window s.epoch s.mem off

/-- `MemRead(off, n)` (00_scope.md R13). -/
def State.memRead (s : State) (off n : Nat) : List Byte :=
  (List.range n).map fun k => s.byteAt (off + k)

/-- `MemWrite(off, n, s)` for a byte string (00_scope.md R13). -/
def State.memWrite (s : State) (off : Nat) (bs : List Byte) : State :=
  { s with mem := Memory.storeBytes s.mem off bs }

/-- The byte of EXPBUF at an index. -/
def State.expbufAt (s : State) (k : Nat) : Byte := readCell .expbuf s.epoch s.expbuf k

/-- The n bytes of EXPBUF from index `k`. -/
def State.expbufRead (s : State) (k n : Nat) : List Byte :=
  (List.range n).map fun i => s.expbufAt (k + i)

/-- The byte of RESBUF at an index. -/
def State.resbufAt (s : State) (k : Nat) : Byte := readCell .resbuf s.epoch s.resbuf k

/-- The n bytes of RESBUF from index `k`. -/
def State.resbufRead (s : State) (k n : Nat) : List Byte :=
  (List.range n).map fun i => s.resbufAt (k + i)

/-- The byte at a window offset has been written since the last reset (R284). -/
def State.written (s : State) (off : Nat) : Bool := (Memory.lookup s.mem off).isSome

/-- A dropped write: STATUS.BUSYWR <- 1 and nothing else (R53). -/
def dropWrite (s : State) : State :=
  { s with status := { s.status with busywr := true } }

/-- The first line of acceptance: DONE, ERR and ERRCODE are cleared (30_encoding.md R104). -/
def clearOutcome (s : State) : State :=
  { s with status := { s.status with done := false, err := false, errcode := 0 } }

/-- Error entry, `raise code` (R255): ERR <- 1 and ERRCODE <- code, nothing else. -/
def raiseError (code : ErrCode) (s : State) : State :=
  { s with status := { s.status with err := true, errcode := code.number } }

/-- A write to STATUS (R33). With bit 2 set it is the error exit of R257: ERR and ERRCODE are cleared. -/
def writeStatus (v : Word) (s : State) : State :=
  { s with status := s.status.writeOneToClear v }

/-- `rst_n` falls (R280): the whole state takes its reset value, every buffer byte is drawn afresh, a command in flight
is abandoned (R281). The hardwired MSGBUF_SIZE stays (R44), and so do the events still to come (log 13). -/
def enterReset (s : State) : State :=
  State.resetValue s.msgbufSize (s.epoch + 1) false s.input

/-- `rst_n` rises (R280, R282). -/
def leaveReset (s : State) : State := { s with rstN := true }

/-- The output pins (45_hash_to_field.md R241). -/
def State.pins (s : State) : TopOut := ⟨s.response, s.irq⟩

end Sys2Proof.Machine
end

