-- ==== Sys2Proof/Machine/Mixer.lean ====
section
/-! DEFINITION. xor_message_domain_mixer (41_xor_message_domain_mixer.md): the byte strings that are hashed, and the
clocked unit that streams them through its ports (R173; log 8). -/

namespace Sys2Proof.Machine

/-- DST' (R160). -/
def dstPrime (dst : List Byte) : List Byte := dst ++ i2osp dst.length 1

/-- XOR32: 32 independent byte lanes (R163). -/
def xor32 (x y : List Byte) : List Byte := xorBytes x y

/-- MIX_MSGPRIME, the input of b0 (R167). -/
def mixMsgPrime (dst msg : List Byte) (outLen : Nat) : List Byte :=
  zeros zpadLen ++ msg ++ i2osp outLen 2 ++ i2osp 0 1 ++ dstPrime dst

/-- MIX_FIRST, the input of b1 (R168). -/
def mixFirst (b0 dst : List Byte) : List Byte := b0 ++ i2osp 1 1 ++ dstPrime dst

/-- MIX_CHAIN(j), the input of b_j for j ≥ 2 (R169). -/
def mixChain (b0 bprev dst : List Byte) (j : Nat) : List Byte :=
  xor32 b0 bprev ++ i2osp j 1 ++ dstPrime dst

/-- Where the mixer takes a byte from: its own datapath, or a buffer byte at a window offset (R173). -/
inductive MixerSource where
  | datapath (b : Byte)
  | buffer (off : BitVec 16)
  deriving DecidableEq, Repr

/-- The registers of the mixer. DESIGN CHOICE (log 8): the spec gives it none, and a unit that streams has to know what
it has still to emit. -/
structure MixerRegs where
  pending : List MixerSource
  deriving DecidableEq, Repr

/-- Bytes from the datapath. -/
def fromDatapath (bs : List Byte) : List MixerSource := bs.map .datapath

/-- The n buffer bytes from a window offset, through the read port (20_memory.md R82). DESIGN CHOICE (log 8): for a length
above the range of R173, which the port can carry and the block never drives, the offsets go on past the buffer and wrap at
16 bits, so from `msg_len` 49153 on to window offset 0. -/
def fromBuffer (base n : Nat) : List MixerSource := (List.range n).map fun k => .buffer (BitVec.ofNat 16 (base + k))

/-- DST' (R160), its tag read from DST_BUF. -/
def dstPrimeSources (c : MixerControl) : List MixerSource :=
  fromBuffer dstBufBase c.dstLen.toNat ++ fromDatapath (i2osp c.dstLen.toNat 1)

/-- What the unit emits for its control inputs, in stream order (R167 to R169, R173). Mode 3 is never driven and emits
nothing (log 8). -/
def mixerSources (c : MixerControl) : List MixerSource :=
  if c.mode = 0 then
    fromDatapath (zeros zpadLen) ++ fromBuffer msgBufBase c.msgLen.toNat ++
      fromDatapath (i2osp c.outLen.toNat 2 ++ i2osp 0 1) ++ dstPrimeSources c
  else if c.mode = 1 then fromDatapath (wideBytes c.b0 ++ i2osp 1 1) ++ dstPrimeSources c
  else if c.mode = 2 then
    fromDatapath (xor32 (wideBytes c.b0) (wideBytes c.bprev) ++ i2osp c.j.toNat 1) ++ dstPrimeSources c
  else []

/-- The address side of the buffer read port (R173): the place of the next byte, where it comes from a buffer. -/
def mixerReadAddr (g : MixerRegs) : Option (BitVec 16) :=
  match g.pending with
  | .buffer off :: _ => some off
  | _ => none

/-- The outputs of the mixer (R173): the next byte until it is taken, `out_last` with the last one. `out_empty` is never
asserted. DESIGN CHOICE (log 8): while `out_valid` = 0 the model puts 0 on `out_byte` and 0 on `out_last`, where the spec
is silent; the hash unit looks at neither then (R134). -/
def mixerOut (p : MixerIn) (g : MixerRegs) : MixerOut :=
  match g.pending with
  | [] => ⟨none, false, 0, false, false⟩
  | .datapath b :: rest => ⟨none, true, b, rest.isEmpty, false⟩
  | .buffer off :: rest => ⟨some off, true, p.rdData, rest.isEmpty, false⟩

/-- One rising edge of the clock (R173): `go` starts a stream; a byte offered with `out_ready = 1` has been taken.
DESIGN CHOICE (log 8): with `go = 1` while an earlier stream is still being emitted, `go` wins; the rest of that stream is
dropped, a byte offered in that same cycle with it. The spec does not say, and the pipeline never does it. -/
def mixerClock (p : MixerIn) (g : MixerRegs) : MixerRegs :=
  if p.go then ⟨mixerSources p.toMixerControl⟩
  else if p.outReady then ⟨g.pending.tail⟩
  else g

/-- What the buffers put on the read port's data side (20_memory.md R82). The mixer looks at it only while it drives an
address. -/
def bufferRead (s : State) : Option (BitVec 16) → Byte
  | none => 0
  | some off => s.byteAt off.toNat

/-- The mixer's inputs in one cycle: its control ports, the buffer byte it asks for, and `out_ready`. -/
def mixerInputs (c : MixerControl) (ready : Bool) (s : State) (g : MixerRegs) : MixerIn :=
  { c with rdData := bufferRead s (mixerReadAddr g), outReady := ready }

/-- The beats of the next n cycles in which every byte is taken at once. -/
def mixerBeats (c : MixerControl) (s : State) : Nat → MixerRegs → List StreamBeat
  | 0, _ => []
  | n + 1, g =>
    let p := mixerInputs c true s g
    let o := mixerOut p g
    if o.outValid then ⟨o.outByte, o.outLast⟩ :: mixerBeats c s n (mixerClock p g)
    else mixerBeats c s n (mixerClock p g)

/-- The stream the unit emits after a `go` pulse (R173). -/
def mixerStream (c : MixerControl) (s : State) : List StreamBeat :=
  mixerBeats { c with go := false } s (mixerSources c).length ⟨mixerSources c⟩

end Sys2Proof.Machine
end

