-- ==== Sys2Proof/Machine/Sha256.lean ====
section
/-! DEFINITION. The function SHA256 (40_sha256_hash_engine.md R120 to R132). -/

namespace Sys2Proof.Machine

/-- `ROTR^n(x)`, 0 < n < 32 (R121). -/
def rotr (n : Nat) (x : Word) : Word := (x >>> n) ||| (x <<< (32 - n))

/-- `SHR^n(x)` (R121). -/
def shr (n : Nat) (x : Word) : Word := x >>> n

/-- `Ch` (R121). -/
def ch (x y z : Word) : Word := (x &&& y) ^^^ (~~~x &&& z)

/-- `Maj` (R121). -/
def maj (x y z : Word) : Word := (x &&& y) ^^^ (x &&& z) ^^^ (y &&& z)

/-- `Sigma0` (R121). -/
def bigSigma0 (x : Word) : Word := rotr 2 x ^^^ rotr 13 x ^^^ rotr 22 x

/-- `Sigma1` (R121). -/
def bigSigma1 (x : Word) : Word := rotr 6 x ^^^ rotr 11 x ^^^ rotr 25 x

/-- `sigma0` (R121). -/
def smallSigma0 (x : Word) : Word := rotr 7 x ^^^ rotr 18 x ^^^ shr 3 x

/-- `sigma1` (R121). -/
def smallSigma1 (x : Word) : Word := rotr 17 x ^^^ rotr 19 x ^^^ shr 10 x

/-- K[0..31] (R122). -/
def roundConstantsLow : List Word :=
  [0x428a2f98, 0x71374491, 0xb5c0fbcf, 0xe9b5dba5, 0x3956c25b, 0x59f111f1, 0x923f82a4, 0xab1c5ed5] ++
  [0xd807aa98, 0x12835b01, 0x243185be, 0x550c7dc3, 0x72be5d74, 0x80deb1fe, 0x9bdc06a7, 0xc19bf174] ++
  [0xe49b69c1, 0xefbe4786, 0x0fc19dc6, 0x240ca1cc, 0x2de92c6f, 0x4a7484aa, 0x5cb0a9dc, 0x76f988da] ++
  [0x983e5152, 0xa831c66d, 0xb00327c8, 0xbf597fc7, 0xc6e00bf3, 0xd5a79147, 0x06ca6351, 0x14292967]

/-- K[32..63] (R122). -/
def roundConstantsHigh : List Word :=
  [0x27b70a85, 0x2e1b2138, 0x4d2c6dfc, 0x53380d13, 0x650a7354, 0x766a0abb, 0x81c2c92e, 0x92722c85] ++
  [0xa2bfe8a1, 0xa81a664b, 0xc24b8b70, 0xc76c51a3, 0xd192e819, 0xd6990624, 0xf40e3585, 0x106aa070] ++
  [0x19a4c116, 0x1e376c08, 0x2748774c, 0x34b0bcb5, 0x391c0cb3, 0x4ed8aa4a, 0x5b9cca4f, 0x682e6ff3] ++
  [0x748f82ee, 0x78a5636f, 0x84c87814, 0x8cc70208, 0x90befffa, 0xa4506ceb, 0xbef9a3f7, 0xc67178f2]

/-- K[0..63] (R122). -/
def roundConstants : List Word := roundConstantsLow ++ roundConstantsHigh

/-- K[t] (R122). -/
def roundConstant (t : Nat) : Word := roundConstants.getD t 0

/-- H(0) (R123). -/
def initialHash : HashWords :=
  ⟨0x6a09e667, 0xbb67ae85, 0x3c6ef372, 0xa54ff53a, 0x510e527f, 0x9b05688c, 0x1f83d9ab, 0x5be0cd19⟩

/-- `z = (55 - L) mod 64`, the number of zero bytes of the padding (R124). -/
def padZeroCount (len : Nat) : Nat := ((55 - (len : Int)) % 64).toNat

/-- `pad(s)` (R124). -/
def padMessage (s : List Byte) : List Byte :=
  s ++ [0x80] ++ zeros (padZeroCount s.length) ++ i2osp (8 * s.length) 8

/-- `N(L)`, the number of blocks of the padded input (R125). -/
def blockCountOf (len : Nat) : Nat := (len + 9 + 63) / 64

/-- The 16 big-endian words of a block (R126). -/
def blockWords (m : List Byte) : List Word :=
  (List.range 16).map fun t => BitVec.ofNat 32 (os2ip (slice m (4 * t) (4 * t + 4)))

/-- `W[t]` for t ≥ 16, from W[0..t-1] (R127). -/
def scheduleNext (w : List Word) : Word :=
  smallSigma1 (w.getD (w.length - 2) 0) + w.getD (w.length - 7) 0 +
    smallSigma0 (w.getD (w.length - 15) 0) + w.getD (w.length - 16) 0

/-- Lengthen a message schedule by `n` words (R127). -/
def extendSchedule : Nat → List Word → List Word
  | 0, w => w
  | n + 1, w => extendSchedule n (w ++ [scheduleNext w])

/-- `W[0..63]` of a block (R127). -/
def messageSchedule (m : List Byte) : List Word := extendSchedule 48 (blockWords m)

/-- One round: the eight assignments act as one parallel update (R128). -/
def shaRound (k w : Word) (v : HashWords) : HashWords :=
  let t1 := v.h + bigSigma1 v.e + ch v.e v.f v.g + k + w
  let t2 := bigSigma0 v.a + maj v.a v.b v.c
  { a := t1 + t2, b := v.a, c := v.b, d := v.c, e := v.d + t1, f := v.e, g := v.f, h := v.g }

/-- Rounds 0 to n-1 from the working words `v`, with the schedule `w` (R128). -/
def shaRounds (w : List Word) (v : HashWords) : Nat → HashWords
  | 0 => v
  | n + 1 => shaRound (roundConstant n) (w.getD n 0) (shaRounds w v n)

/-- Word by word addition modulo 2^32 (R129). -/
def addWords (x y : HashWords) : HashWords :=
  ⟨x.a + y.a, x.b + y.b, x.c + y.c, x.d + y.d, x.e + y.e, x.f + y.f, x.g + y.g, x.h + y.h⟩

/-- `Compress(H, M)` (R130). -/
def compress (hv : HashWords) (m : List Byte) : HashWords :=
  addWords hv (shaRounds (messageSchedule m) hv 64)

/-- Compress the first `n` blocks of a padded input, in index order (R130). -/
def compressBlocks (hv : HashWords) (padded : List Byte) : Nat → HashWords
  | 0 => hv
  | n + 1 => compress (compressBlocks hv padded n) (slice padded (64 * n) (64 * n + 64))

/-- The eight words in order, each big-endian (R131). -/
def digestBytes (hv : HashWords) : List Byte :=
  i2osp hv.a.toNat 4 ++ i2osp hv.b.toNat 4 ++ i2osp hv.c.toNat 4 ++ i2osp hv.d.toNat 4 ++
  i2osp hv.e.toNat 4 ++ i2osp hv.f.toNat 4 ++ i2osp hv.g.toNat 4 ++ i2osp hv.h.toNat 4

/-- `SHA256(s)` (R131). -/
def sha256 (s : List Byte) : List Byte :=
  digestBytes (compressBlocks initialHash (padMessage s) (blockCountOf s.length))

end Sys2Proof.Machine
end

