-- ==== Sys2Proof/Machine/ShaUnit.lean ====
section
/-! DEFINITION. sha256_hash_engine as a clocked unit: its registers (40_sha256_hash_engine.md R135), its ports (R133) and
its handshake (R134). The order of the cycles is a DESIGN CHOICE, safe because hidden (R134, R296; log 7). -/

namespace Sys2Proof.Machine

/-- The outputs, a function of the registers (R133, R134). `dig` keeps its value until the next `start`. -/
def shaOut (r : ShaRegs) : ShaOut where
  inReady := decide (r.phase = .absorb)
  digValid := decide (r.phase = .digest)
  dig := bytesWide (digestBytes r.hash)

/-- `start`: discard any partial hash and load H(0) (R133, R135). With `in_empty` no byte follows. -/
def shaStart (inEmpty : Bool) (r : ShaRegs) : ShaRegs :=
  { r with
    hash := initialHash
    byteCount := 0
    block := []
    blockCount := 0
    phase := if inEmpty then .pad else .absorb
    lastTaken := inEmpty
    markPlaced := false
    lengthPlaced := false }

/-- Take one byte (R134): count it, put it into the block buffer, and go on when the block is full or s has ended.
DESIGN CHOICE (log 7): R135 gives the byte count 16 bits, enough for every stream of the block, and does not say what a
65536th byte of one stream does to it; the model's count wraps to 0. -/
def shaTake (b : Byte) (last : Bool) (r : ShaRegs) : ShaRegs :=
  { r with
    byteCount := r.byteCount + 1
    block := r.block ++ [b]
    lastTaken := last
    phase := if r.block.length + 1 = 64 then .load else if last then .pad else .absorb }

/-- The block buffer with the byte 0x80 of the padding, once (R124). -/
def shaMarked (r : ShaRegs) : List Byte :=
  if r.markPlaced then r.block else r.block ++ [0x80]

/-- Fill the block buffer with the padding of R124: 0x80 once, zeros, and the length in bits where eight bytes are
left. -/
def shaPad (r : ShaRegs) : ShaRegs :=
  if (shaMarked r).length ≤ 56 then
    { r with
      block := shaMarked r ++ zeros (56 - (shaMarked r).length) ++ i2osp (8 * r.byteCount.toNat) 8
      markPlaced := true
      lengthPlaced := true
      phase := .load }
  else
    { r with
      block := shaMarked r ++ zeros (64 - (shaMarked r).length)
      markPlaced := true
      phase := .load }

/-- Load a full block: the schedule window takes its words, the working words take H(i-1) (R126 to R128). -/
def shaLoad (r : ShaRegs) : ShaRegs :=
  { r with work := r.hash, window := blockWords r.block, t := 0, phase := .rounds }

/-- `W[t]` from the 16-word window: the block's word for t < 16, else from W[t-16..t-1] (R127). -/
def shaWord (r : ShaRegs) : Word :=
  if r.t.toNat < 16 then r.window.getD r.t.toNat 0 else scheduleNext r.window

/-- Round t (R128). From t = 16 on the window moves up by one word (R127). -/
def shaRoundCycle (r : ShaRegs) : ShaRegs :=
  { r with
    work := shaRound (roundConstant r.t.toNat) (shaWord r) r.work
    window := if r.t.toNat < 16 then r.window else r.window.tail ++ [shaWord r]
    t := r.t + 1
    phase := if r.t.toNat = 63 then .update else .rounds }

/-- After round 63 (R129): the intermediate hash; then more bytes, more padding, or the digest. -/
def shaUpdate (r : ShaRegs) : ShaRegs :=
  { r with
    hash := addWords r.hash r.work
    block := []
    blockCount := r.blockCount + 1
    phase := if r.lengthPlaced then .digest else if r.lastTaken then .pad else .absorb }

/-- One rising edge of `clk` (R133, R134). A byte is taken at an edge with `in_valid = 1` and `in_ready = 1`. DESIGN
CHOICE (log 7): at an edge with `start = 1` as well, `start` wins and the byte offered is not taken, into neither hash;
the spec does not say. The mixer never offers a byte in a `start` cycle. -/
def shaClock (p : ShaIn) (r : ShaRegs) : ShaRegs :=
  if p.start then shaStart p.inEmpty r
  else
    match r.phase with
    | .idle => r
    | .absorb => if p.inValid then shaTake p.inByte p.inLast r else r
    | .pad => shaPad r
    | .load => shaLoad r
    | .rounds => shaRoundCycle r
    | .update => shaUpdate r
    | .digest => { r with phase := .idle }

/-- A number of cycles by which a hash of `len` bytes is complete: one per byte, and per block one load, 64 rounds, one
update and at most two more for padding or the digest pulse. Cycle counts are free (R134, R296). -/
def shaCycles (len : Nat) : Nat := len + 69 * blockCountOf len

end Sys2Proof.Machine
end

