-- ==== Sys2Proof/Machine/Expand.lean ====
section
/-! DEFINITION. expand_message_xmd_pipeline (42_expand_message_xmd.md): the reference function ExpandXMD (R181) and the
sequencer's expand phase (R190). -/

namespace Sys2Proof.Machine

/-- `ell = ceil(L / 32)` (R183). -/
def ell (outLen : Nat) : Nat := ceilDiv outLen hashLen

/-- b0 (R186). -/
def digestZero (dst msg : List Byte) (outLen : Nat) : List Byte := sha256 (mixMsgPrime dst msg outLen)

/-- b_j from b0 and the tag: b1 (R187), then each b_j from b0 and b_{j-1} (R188). -/
def chainDigest (b0 dst : List Byte) : Nat → List Byte
  | 0 => b0
  | 1 => sha256 (mixFirst b0 dst)
  | j + 2 => sha256 (mixChain b0 (chainDigest b0 dst (j + 1)) dst (j + 2))

/-- `b_1 || … || b_n` (R181). -/
def uniformBytes (b0 dst : List Byte) : Nat → List Byte
  | 0 => []
  | n + 1 => uniformBytes b0 dst n ++ chainDigest b0 dst (n + 1)

/-- `ExpandXMD(dst, msg, L)` (R181), for a tag of at most 32 bytes and L ≤ 8160 (beyond: log 26): the first L bytes of
`b_1 || … || b_ell` (R189). -/
def expandXMD (dst msg : List Byte) (outLen : Nat) : List Byte :=
  slice (uniformBytes (digestZero dst msg outLen) dst (ell outLen)) 0 outLen

/-- The expansion length Lx of the command held (R190). -/
def heldLength (s : State) : Nat :=
  match s.snap.op with
  | .expand => s.snap.outLen.toNat
  | .hashToField => elemSize * s.snap.count.toNat

/-- The pipeline's inputs for the held command with expansion length `lx` (R190, R199; log 17): the snapshot's lengths,
and `dig` and `dig_valid` of the hash unit. -/
def pipelineIn (lx : Nat) (start : Bool) (s : State) : PipelineIn where
  start := start
  dstLen := s.snap.dstLen.setWidth 6
  msgLen := s.snap.msgLen.setWidth 16
  outLen := BitVec.ofNat 14 lx
  dig := (shaOut s.sha).dig
  digValid := (shaOut s.sha).digValid

/-- The pipeline's `start` (R199): begin at EXP_B0. DESIGN CHOICE (log 6): in every sequencer state, also in the middle of a
hash, where the spec does not say what `start` does; it pulses only at acceptance (R104). -/
def pipelineStart (p : PipelineIn) (q : Seq) : Seq := if p.start then .expB0 else q

/-- How the pipeline drives the mixer (R199, R173). -/
def driveMixer (p : PipelineIn) (mode : BitVec 2) (go : Bool) (j : BitVec 8) (s : State) : MixerControl where
  mode := mode
  go := go
  j := j
  outLen := p.outLen.setWidth 16
  dstLen := p.dstLen
  msgLen := p.msgLen
  b0 := s.b0reg
  bprev := s.bireg

/-- The EXPBUF write of b_j, at byte offset 32(j-1) (R190, R199), while `dig_valid` says that b_j is there.
The address is cut to the port's 13 bits (log 17; for a j out of range, log 20). -/
def digestWrite (p : PipelineIn) (j : Nat) : Option ExpbufWrite :=
  if p.digValid then some ⟨BitVec.ofNat 13 (32 * (j - 1)), p.dig⟩ else none

/-- EXPBUF after a cycle of its write port. -/
def applyExpbufWrite (w : Option ExpbufWrite) (m : Memory) : Memory :=
  match w with
  | none => m
  | some w => Memory.storeBytes m w.addr.toNat (wideBytes w.data)

/-- The outputs of the pipeline in the sequencer state `q` (R190, R199). `launch` is its first cycle in that state, the
one in which `go` of the mixer and `start` of the hash unit pulse (log 6). `done` pulses with the last digest.
DESIGN CHOICE (log 6): `j` is 0 or 1 where R173 has it ignored, and where no hash runs the mixer's control ports hold mode
0 with `go` = 0. -/
def pipelineOut (p : PipelineIn) (q : Seq) (launch : Bool) (s : State) : PipelineOut :=
  match q with
  | .expB0 => ⟨driveMixer p 0 launch 0 s, launch, none, false⟩
  | .expB1 => ⟨driveMixer p 1 launch 1 s, launch, digestWrite p 1, p.digValid && decide (ell p.outLen.toNat ≤ 1)⟩
  | .expBI j =>
    ⟨driveMixer p 2 launch (BitVec.ofNat 8 j) s, launch, digestWrite p j, p.digValid && decide (j = ell p.outLen.toNat)⟩
  | .idle => ⟨driveMixer p 0 false 0 s, false, none, false⟩
  | .map _ => ⟨driveMixer p 0 false 0 s, false, none, false⟩
  | .commit => ⟨driveMixer p 0 false 0 s, false, none, false⟩

/-- The mixer and the hash unit, joined by the stream ports (R133, R173). -/
structure HashPath where
  mixer : MixerRegs
  sha   : ShaRegs
  deriving DecidableEq, Repr

/-- One rising edge of the clock for the mixer and the hash unit, under the pipeline's control: `out_*` of the mixer are
`in_*` of the hash unit, and `in_ready` is `out_ready` (R133, R134, R173, R199). -/
def pathClock (o : PipelineOut) (s : State) (h : HashPath) : HashPath :=
  let p := mixerInputs o.mixer (shaOut h.sha).inReady s h.mixer
  let m := mixerOut p h.mixer
  ⟨mixerClock p h.mixer, shaClock ⟨o.hashStart, m.outValid, m.outByte, m.outLast, m.outEmpty⟩ h.sha⟩

/-- Cycles until `dig_valid` is 1, at most `n` of them. -/
def pathRun (o : PipelineOut) (s : State) : Nat → HashPath → HashPath
  | 0, h => h
  | n + 1, h => if (shaOut h.sha).digValid then h else pathRun o s n (pathClock o s h)

/-- One whole hash of the pipeline in state `q` (R190, R199): the launch cycle, then cycles until `dig_valid`. It gives
the pipeline's inputs in the cycle of `dig_valid`, `dig` taken from the hash unit, and the hash unit's registers after
that cycle. The bound on the cycles is never reached by a held command (`pipelineHash_eq` in Laws/Mixer.lean). -/
def pipelineHash (p : PipelineIn) (q : Seq) (s : State) : Option (PipelineIn × ShaRegs) :=
  let launch := pipelineOut p q true s
  let wait := pipelineOut p q false s
  let h := pathRun wait s (shaCycles (mixerSources launch.mixer).length) (pathClock launch s ⟨⟨[]⟩, s.sha⟩)
  if (shaOut h.sha).digValid then
    some ({ p with dig := (shaOut h.sha).dig, digValid := true }, (pathClock wait s h).sha)
  else none

/-- EXP_B0: B0REG <- SHA256(MIX_MSGPRIME); pc <- EXP_B1 (R190). -/
def turnB0 (p : PipelineIn) (s : State) : State :=
  match pipelineHash p .expB0 s with
  | none => s
  | some (p, r) => { s with sha := r, b0reg := p.dig, seq := .expB1 }

/-- EXP_B1: BIREG <- SHA256(MIX_FIRST); J <- 1; EXPBUF[0..31] <- BIREG; on to EXP_BI(2), or to AFTER_EXPAND with `done`
(R190, R199). -/
def turnB1 (p : PipelineIn) (after : Seq) (s : State) : State :=
  match pipelineHash p .expB1 s with
  | none => s
  | some (p, r) =>
    let o := pipelineOut p .expB1 false s
    { s with
      sha := r
      bireg := p.dig
      jreg := 1
      expbuf := applyExpbufWrite o.expbufWrite s.expbuf
      seq := if o.done then after else .expBI 2 }

/-- EXP_BI(j): BIREG <- SHA256(MIX_CHAIN(j)); J <- j; EXPBUF[32(j-1) .. 32j-1] <- BIREG; on to EXP_BI(j+1), or to
AFTER_EXPAND with `done` (R190, R199). -/
def turnBI (p : PipelineIn) (after : Seq) (j : Nat) (s : State) : State :=
  match pipelineHash p (.expBI j) s with
  | none => s
  | some (p, r) =>
    let o := pipelineOut p (.expBI j) false s
    { s with
      sha := r
      bireg := p.dig
      jreg := BitVec.ofNat 8 j
      expbuf := applyExpbufWrite o.expbufWrite s.expbuf
      seq := if o.done then after else .expBI (j + 1) }

end Sys2Proof.Machine
end

