-- ==== Sys2Proof/Machine/Reduce.lean ====
section
/-! DEFINITION. modular_reduction_divider (44_modular_reduction.md). -/

namespace Sys2Proof.Machine

/-- REDUCE: e = X mod p (R212). -/
def reduceNat (x : Nat) : Nat := x % fieldOrder

/-- modular_reduction_divider (R217): X mod p exactly (R215), zero-extended to 256 bits (R213). DESIGN
CHOICE (log 25): `e_valid` pulses in the cycle of `x_valid`, and `e` is absent in every other. -/
def reduceUnit (x : Option (BitVec 384)) : Option Wide :=
  x.map fun v => BitVec.ofNat 256 (reduceNat v.toNat)

/-- mu = floor(2^508 / p), the constant of the Barrett form (R214). -/
def barrettMu : Nat := 0x54a47462623a04a7ab074a5868073013ae965e1767cd4c086f3aed8a19bf90e5

/-- q3 of the Barrett form (R214): the estimate of `X div p`. -/
def barrettQuotient (x : Nat) : Nat := ((x >>> 253) * barrettMu) >>> 255

/-- The corrections of the Barrett form, at most `n` of them (R214). -/
def barrettCorrect : Nat → Nat → Nat
  | 0, r => r
  | n + 1, r => if fieldOrder ≤ r then barrettCorrect n (r - fieldOrder) else r

/-- The Barrett form of REDUCE (R214, informative): one conforming implementation, with at most two corrections. -/
def barrettReduce (x : Nat) : Nat := barrettCorrect 2 (x - barrettQuotient x * fieldOrder)

end Sys2Proof.Machine
end

