-- ==== Sys2Proof/Machine/Slice.lean ====
section
/-! DEFINITION. big_endian_byte_slice_and_interpret (43_byte_slice_and_interpret.md): the chunks and their values, and the
clocked unit that reads one chunk through its ports (R205; log 25). -/

namespace Sys2Proof.Machine

/-- `chunk_i = slice(u, 48i, 48i + 48)` (R200). -/
def chunk (u : List Byte) (i : Nat) : List Byte := slice u (elemSize * i) (elemSize * i + elemSize)

/-- X_i = OS2IP(chunk_i) (R201). -/
def sliceInterpret (u : List Byte) (i : Nat) : Nat := os2ip (chunk u i)

/-- The registers of the slice unit. DESIGN CHOICE (log 25): the spec gives it none, and a unit that reads 48 bytes through
a port has to know where it stands. -/
structure SliceRegs where
  /-- The EXPBUF address of the next byte. -/
  addr  : BitVec 13
  /-- How many bytes are still to be read. -/
  left  : Nat
  /-- The bytes read so far, the first uppermost. -/
  x     : BitVec 384
  ready : Bool
  deriving DecidableEq, Repr

/-- The outputs of the slice unit (R205): the address of the next byte while one is to be read, and `x` with its pulse
`x_valid`. -/
def sliceOut (g : SliceRegs) : SliceOut where
  rdAddr := if g.left = 0 then none else some g.addr
  x := if g.ready then some g.x else none

/-- One rising edge of the clock (R205): `go` starts on EXPBUF byte 48·idx, and each byte read goes in below the ones before
it, so that byte k ends at bits [383-8k : 376-8k] (R202). DESIGN CHOICE (log 25): `go` wins over a chunk still being read,
whose rest is dropped; for an idx above 169, which R205 leaves out, the address is cut to its 13 bits and wraps. -/
def sliceClock (p : SliceIn) (g : SliceRegs) : SliceRegs :=
  if p.go then ⟨BitVec.ofNat 13 (elemSize * p.idx.toNat), elemSize, 0, false⟩
  else if g.left = 0 then { g with ready := false }
  else ⟨g.addr + 1, g.left - 1, (g.x ++ p.rdData).setWidth 384, decide (g.left = 1)⟩

/-- What EXPBUF puts on the read port's data side. The slice unit looks at it only while it drives an address. -/
def expbufPort (s : State) : Option (BitVec 13) → Byte
  | none => 0
  | some a => s.expbufAt a.toNat

/-- The slice unit's inputs in one cycle: `idx`, `go`, and the EXPBUF byte it asks for. -/
def sliceInputs (idx : BitVec 8) (go : Bool) (s : State) (g : SliceRegs) : SliceIn :=
  ⟨idx, go, expbufPort s (sliceOut g).rdAddr⟩

/-- Cycles after `go` until `x_valid` is 1, at most `n` of them. -/
def sliceRun (idx : BitVec 8) (s : State) : Nat → SliceRegs → SliceRegs
  | 0, g => g
  | n + 1, g => if g.ready then g else sliceRun idx s n (sliceClock (sliceInputs idx false s g) g)

/-- One whole chunk (R201, R205): the cycle with `go`, then a cycle per byte. It gives `x` in the cycle of `x_valid`, which
comes for every idx (`sliceUnit_eq` in Laws/Slice.lean). What the registers held before does not matter: `go` loads them
all. Irreducible, so that no unifier runs the 48 cycles; `sliceUnit_eq` says what they give. -/
@[irreducible] def sliceUnit (idx : BitVec 8) (s : State) : Option (BitVec 384) :=
  let g : SliceRegs := ⟨0, 0, 0, false⟩
  (sliceOut (sliceRun idx s elemSize (sliceClock (sliceInputs idx true s g) g))).x

end Sys2Proof.Machine
end

