-- ==== Sys2Proof/Machine/HashToField.lean ====
section
/-! DEFINITION. The function HashToField (45_hash_to_field.md R231), the sequencer's map phase (R235, R237), the commits
(42_expand_message_xmd.md R191, R238) and the work measure (R195, 70_reset_and_hazards.md R297). -/

namespace Sys2Proof.Machine

/-- `HashToField(dst, msg, count)` (R231), for a tag of at most 32 bytes and count ≤ 170 (beyond: log 26). -/
def hashToField (dst msg : List Byte) (count : Nat) : List Nat :=
  (List.range count).map fun i => reduceNat (sliceInterpret (expandXMD dst msg (elemSize * count)) i)

/-- The output bytes of HASH_TO_FIELD: each element as `I2OSP(e_i, 32)`, in order (R236). -/
def encodeElements (es : List Nat) : List Byte := es.flatMap fun e => i2osp e feBytes

/-- The end of MAP(i): RESBUF[32i .. 32i+31] <- the 32 bytes of e; pc <- COMMIT after the last element, else MAP(i+1)
(R237). For an i out of range see log 20. -/
def storeElement (i : Nat) (e : Wide) (s : State) : State :=
  { s with
    resbuf := Memory.storeBytes s.resbuf (feBytes * i) (wideBytes e)
    seq := if i + 1 = s.snap.count.toNat then .commit else .map (i + 1) }

/-- What the sequencer does in MAP(i) with the reduction unit's `e`, once `e_valid` says that it is there (R217, R237). -/
def storeReduced (i : Nat) (e : Option Wide) (s : State) : State :=
  match e with
  | none => s
  | some e => storeElement i e s

/-- MAP(i): RESBUF[32i .. 32i+31] <- I2OSP(X_i mod p, 32) (R237): the slice unit reads chunk i, the reduction unit takes
its `x` at `x_valid`. -/
def turnMap (i : Nat) (s : State) : State :=
  storeReduced i (reduceUnit (sliceUnit (BitVec.ofNat 8 i) s)) s

/-- The end of a command, in its commit step: RESULT_LEN, BUSY <- 0, DONE <- 1, pc <- IDLE (R191, R238). -/
def finishCommand (len : Word) (s : State) : State :=
  { s with
    resultLen := len
    status := { s.status with busy := false, done := true }
    seq := .idle }

/-- EXPAND commit (R191): OUT_BUF[k] <- EXPBUF[k] for k < L, all in one step. -/
def commitExpand (s : State) : State :=
  finishCommand s.snap.outLen (s.memWrite outBufBase (s.expbufRead 0 s.snap.outLen.toNat))

/-- HASH_TO_FIELD commit (R238): OUT_BUF[k] <- RESBUF[k] for k < 32*count, all in one step. -/
def commitHashToField (s : State) : State :=
  finishCommand (BitVec.ofNat 32 (feBytes * s.snap.count.toNat))
    (s.memWrite outBufBase (s.resbufRead 0 (feBytes * s.snap.count.toNat)))

/-- How often an accepted command evaluates SHA256, for `n = ell` output digests (R195). -/
def sha256Calls (n : Nat) : Nat := 1 + max n 1

/-- The cost of an accepted command in compression blocks (R195, R297). -/
def compressionBlocks (d m n : Nat) : Nat := blockCountOf (m + d + 68) + max n 1 * blockCountOf (d + 34)

end Sys2Proof.Machine
end

