-- ==== Sys2Proof/Machine/Operands.lean ====
section
/-! DEFINITION. Operand assembly (30_encoding.md R102), the acceptance checks (60_exceptions.md R250 to R254, R256) and
the snapshot (30_encoding.md R104). -/

namespace Sys2Proof.Machine

/-- `domainTag = MemRead(0x0100, R[DST_LEN])`, from a state's registers (R102). -/
def State.tag (s : State) : List Byte := s.memRead dstBufBase s.dstLen.toNat

/-- `message = MemRead(0x4000, R[MSG_LEN])`, from a state's registers (R102). -/
def State.message (s : State) : List Byte := s.memRead msgBufBase s.msgLen.toNat

/-- The checks on the operands of a command, in the order of R254; the first that fails gives the code. EXPAND does not
check COUNT and HASH_TO_FIELD does not check OUT_LEN (R253). -/
def checkOperands (i : Instr) (s : State) : Option ErrCode :=
  if dstMax < s.dstLen.toNat then some .invalidDomainSize
  else if s.msgbufSize.toNat < s.msgLen.toNat then some .msgLenRange
  else
    match i with
    | .expand => if outLenMax < s.outLen.toNat then some .outLenRange else none
    | .hashToField => if countMax < s.count.toNat then some .outLenRange else none

/-- `CheckCommand(v)` (R254): ILLEGAL_COMMAND first, then the operands. -/
def checkCommand (v : Word) (s : State) : Option ErrCode :=
  match decodeWord v with
  | .error _ => some .illegalCommand
  | .ok i => checkOperands i s

/-- `snapshot <- (v[7:0], R[DST_LEN], R[MSG_LEN], R[OUT_LEN], R[COUNT])` (R104). -/
def takeSnapshot (i : Instr) (s : State) : Snapshot := ⟨i, s.dstLen, s.msgLen, s.outLen, s.count⟩

/-- The command taken in: snapshot, BUSY <- 1 (R104). -/
def holdCommand (i : Instr) (s : State) : State :=
  { s with snap := takeSnapshot i s, status := { s.status with busy := true } }

/-- The end of acceptance (R104): the command is held, and `start` of the pipeline sets pc <- EXP_B0 (R199). -/
def startCommand (i : Instr) (s : State) : State :=
  let t := holdCommand i s
  { t with seq := pipelineStart (pipelineIn (heldLength t) true t) s.seq }

/-- Command acceptance (R104) for a word that is the command `i`: dropped while BUSY (R53), refused with the first
failing check (R255), or started. -/
def acceptCommand (i : Instr) (s : State) : State :=
  if s.status.busy then dropWrite s
  else
    match checkOperands i (clearOutcome s) with
    | some code => raiseError code (clearOutcome s)
    | none => startCommand i (clearOutcome s)

/-- Command acceptance (R104) for a word that is no command: dropped while BUSY (R53, R103), else ILLEGAL_COMMAND. -/
def refuseWord (s : State) : State :=
  if s.status.busy then dropWrite s
  else raiseError .illegalCommand (clearOutcome s)

end Sys2Proof.Machine
end

