-- ==== Sys2Proof/Machine/Commands.lean ====
section
/-! DEFINITION. The meanings of the two commands. Each has a host part, the CMD write (30_encoding.md R104), and an engine
part, one sequencer state per turn (42_expand_message_xmd.md R190, 45_hash_to_field.md R237; log 6). -/

namespace Sys2Proof.Machine

/-- One engine turn of the command held (R190, R237), with its pipeline inputs, the state AFTER_EXPAND and its commit.
At IDLE no command is held and nothing happens (R45; log 20). -/
def sequencerTurn (p : PipelineIn) (after : Seq) (commit : State → State) (s : State) : State :=
  match s.seq with
  | .idle => s
  | .expB0 => turnB0 p s
  | .expB1 => turnB1 p after s
  | .expBI j => turnBI p after j s
  | .map i => turnMap i s
  | .commit => commit s

/-- The engine's turns of EXPAND: Lx = L and AFTER_EXPAND = COMMIT (R190), then the commit (R191). -/
def engineExpand (s : State) : State :=
  sequencerTurn (pipelineIn s.snap.outLen.toNat false s) .commit commitExpand s

/-- AFTER_EXPAND of HASH_TO_FIELD: COMMIT for count = 0, else MAP(0) (R190). -/
def afterExpandHashToField (s : State) : Seq :=
  if s.snap.count = 0 then .commit else .map 0

/-- The engine's turns of HASH_TO_FIELD: Lx = 48 * count (R234), the map phase (R237), then the commit (R238). -/
def engineHashToField (s : State) : State :=
  sequencerTurn (pipelineIn (elemSize * s.snap.count.toNat) false s) (afterExpandHashToField s) commitHashToField s

/-- EXPAND (R185): the host's CMD write, or the engine's next turn of it. -/
def execExpand (s : State) : Host.Outcome State Fault Refusal :=
  match s.turn with
  | .host => .next (acceptCommand .expand s)
  | .engine => .next (engineExpand s)

/-- HASH_TO_FIELD (R233): the host's CMD write, or the engine's next turn of it. -/
def execHashToField (s : State) : Host.Outcome State Fault Refusal :=
  match s.turn with
  | .host => .next (acceptCommand .hashToField s)
  | .engine => .next (engineHashToField s)

end Sys2Proof.Machine
end

