-- ==== Sys2Proof/Machine/Dispatch.lean ====
section
/-! DEFINITION. One arm per command. -/

namespace Sys2Proof.Machine

def exec (i : Instr) (s : State) : Host.Outcome State Fault Refusal :=
  match i with
  | .expand => Sys2Proof.Machine.execExpand s
  | .hashToField => Sys2Proof.Machine.execHashToField s

end Sys2Proof.Machine
end

