-- ==== Sys2Proof/Machine/Bus.lean ====
section
/-! DEFINITION. The bus slave port (20_memory.md R70 to R81, 10_state.md R51, R53): which accesses are legal, what a READ
returns, what a WRITE does. -/

namespace Sys2Proof.Machine

/-- The places of the address map (R75). -/
inductive Place where
  | id
  | cmd
  | status
  | irqEn
  | dstLen
  | msgLen
  | outLen
  | count
  | resultLen
  | msgbufSize
  | dstBuf
  | outBuf
  | msgBuf
  deriving DecidableEq, Repr

/-- How many bytes a transaction covers (R70). -/
def sizeBytes : BusSize → Nat
  | .one => 1
  | .two => 2
  | .four => 4

/-- The control registers by offset (R75); 0x0028 to 0x00FF are reserved. -/
def controlPlace (off : Nat) : Option Place :=
  if off = 0x0000 then some .id
  else if off = 0x0004 then some .cmd
  else if off = 0x0008 then some .status
  else if off = 0x000C then some .irqEn
  else if off = 0x0010 then some .dstLen
  else if off = 0x0014 then some .msgLen
  else if off = 0x0018 then some .outLen
  else if off = 0x001C then some .count
  else if off = 0x0020 then some .resultLen
  else if off = 0x0024 then some .msgbufSize
  else none

/-- The buffer that holds all of the n bytes from `off` (R75); none if any of them lies outside (R73). -/
def bufferPlace (msgBufSize off n : Nat) : Option Place :=
  if dstBufBase ≤ off ∧ off + n ≤ dstBufBase + dstBufSize then some .dstBuf
  else if outBufBase ≤ off ∧ off + n ≤ outBufBase + outBufSize then some .outBuf
  else if msgBufBase ≤ off ∧ off + n ≤ msgBufBase + msgBufSize then some .msgBuf
  else none

/-- The place a transaction reaches, or none where it gets SLVERR: misaligned, narrow in the control region (R72), or not
wholly mapped (R73). -/
def busAccess (t : Transaction) (s : State) : Option Place :=
  if t.off.toNat % sizeBytes t.size ≠ 0 then none
  else if t.off.toNat < controlEnd then
    if t.size = .four then controlPlace t.off.toNat else none
  else bufferPlace s.msgbufSize.toNat t.off.toNat (sizeBytes t.size)

/-- rdata of a READ of a buffer: byte off+k on bits [8k+7 : 8k], the bits above read as 0 (R71, R77). -/
def readLanes (s : State) (off : Nat) : BusSize → Word
  | .one => laneWord (s.byteAt off) 0 0 0
  | .two => laneWord (s.byteAt off) (s.byteAt (off + 1)) 0 0
  | .four => laneWord (s.byteAt off) (s.byteAt (off + 1)) (s.byteAt (off + 2)) (s.byteAt (off + 3))

/-- The bytes a WRITE carries, in offset order: the data bits above 8n-1 are ignored (R71). -/
def writeLanes (v : Word) (n : BusSize) : List Byte := (laneBytes v).take (sizeBytes n)

/-- rdata of a legal READ (R51, R75). CMD reads 0 (R32). No read has a side effect (R81). -/
def readPlace (p : Place) (t : Transaction) (s : State) : Word :=
  match p with
  | .id => idValue
  | .cmd => 0
  | .status => s.status.word
  | .irqEn => s.irqEn.word
  | .dstLen => s.dstLen
  | .msgLen => s.msgLen
  | .outLen => s.outLen
  | .count => s.count
  | .resultLen => s.resultLen
  | .msgbufSize => s.msgbufSize
  | .dstBuf => readLanes s t.off.toNat t.size
  | .outBuf => readLanes s t.off.toNat t.size
  | .msgBuf => readLanes s t.off.toNat t.size

/-- A write that the busy rule covers (R53): done when BUSY = 0, dropped when BUSY = 1. -/
def unlessBusy (act : State → State) (s : State) : State :=
  if s.status.busy then dropWrite s else act s

/-- A legal WRITE to a place other than CMD (R51). RO places ignore it (R74); STATUS and IRQ_EN take it always (R53). A
CMD write is `acceptCommand` or `refuseWord`, so here CMD changes nothing. -/
def writePlace (p : Place) (t : Transaction) (s : State) : State :=
  match p with
  | .id => s
  | .cmd => s
  | .status => writeStatus t.wdata s
  | .irqEn => { s with irqEn := IrqEn.ofWord t.wdata }
  | .dstLen => unlessBusy (fun s => { s with dstLen := t.wdata }) s
  | .msgLen => unlessBusy (fun s => { s with msgLen := t.wdata }) s
  | .outLen => unlessBusy (fun s => { s with outLen := t.wdata }) s
  | .count => unlessBusy (fun s => { s with count := t.wdata }) s
  | .resultLen => s
  | .msgbufSize => s
  | .dstBuf => unlessBusy (fun s => s.memWrite t.off.toNat (writeLanes t.wdata t.size)) s
  | .outBuf => s
  | .msgBuf => unlessBusy (fun s => s.memWrite t.off.toNat (writeLanes t.wdata t.size)) s

/-- The port answers OKAY with read data (R70, R78). -/
def answerRead (v : Word) (s : State) : State := { s with response := some ⟨.okay, some v⟩ }

/-- The port answers OKAY to a WRITE (R78); rdata has no meaning then (R70; log 12). -/
def answerWrite (s : State) : State := { s with response := some ⟨.okay, none⟩ }

/-- The port answers SLVERR with rdata = 0 (R72, R73); nothing else changes (R79). -/
def answerError (s : State) : State := { s with response := some ⟨.slverr, some 0⟩ }

end Sys2Proof.Machine
end

