-- ==== Sys2Proof/Machine/Front.lean ====
section
/-! DEFINITION. What happens next: the next event of the interleaving (20_memory.md R80, R84, R86; log 1) turned into a
state, or into the command whose meaning runs. -/

namespace Sys2Proof.Machine

/-- The next move of the block. -/
inductive Move where
  /-- The move is complete. -/
  | done (s : State)
  /-- The meaning of this command runs: the host wrote its word to CMD, or the engine takes a turn of it. -/
  | run (i : Instr) (s : State)
  /-- The model refuses the event. -/
  | refuse (r : Refusal)

/-- The engine's turn (R86): the command held runs on; while IDLE the engine does nothing (R45, R269). -/
def engineMove (s : State) : Move :=
  if s.seq = .idle then .done s else .run s.snap.op { s with turn := .engine }

/-- A legal WRITE of `v` to CMD (30_encoding.md R104): the command it is, or ILLEGAL_COMMAND. -/
def commandMove (v : Word) (s : State) : Move :=
  match decodeWord v with
  | .ok i => .run i s
  | .error _ => .done (refuseWord s)

/-- One transaction, performed whole (R80). -/
def busMove (t : Transaction) (s : State) : Move :=
  match busAccess t s with
  | none => .done (answerError s)
  | some p =>
    match t.kind with
    | .read => .done (answerRead (readPlace p t s) s)
    | .write =>
      if p = .cmd then commandMove t.wdata (answerWrite s)
      else .done (writePlace p t (answerWrite s))

/-- The next move. With no event left to come the engine goes on, so an accepted command commits (R296; log 10). -/
def nextMove (s : State) : Move :=
  match s.input with
  | [] => engineMove s
  | .engine :: rest => engineMove { s with input := rest }
  | .assertReset :: rest => .done (enterReset { s with input := rest })
  | .releaseReset :: rest => .done (leaveReset { s with input := rest })
  | .bus t :: rest =>
    if s.rstN then busMove t { s with input := rest, turn := .host } else .refuse .busAccessDuringReset

/-- The transaction that writes `v` to CMD (R106: `WR32 0x0004, v`). -/
def cmdWrite (v : Word) : Transaction := ⟨.write, 0x0004, .four, v⟩

/-- The word whose bits are `w`, every bit from `nbits` on zero. -/
def tableWord (nbits w : Nat) : Word := BitVec.ofNat 32 (w % 2 ^ nbits)

/-- A state whose next event is the host's write of `v` to CMD, `rst_n` released (R283; log 1). -/
def withCommandWord (s : State) (v : Word) : State :=
  { s with input := .bus (cmdWrite v) :: s.input, rstN := true }

end Sys2Proof.Machine
end

