-- ==== Sys2Proof/Machine/Step.lean ====
section
/-! DEFINITION. One step of the block. -/

namespace Sys2Proof.Machine

/-- One step: the next event of the interleaving takes its effect whole (20_memory.md R80). -/
def step (s : State) : Host.Outcome State Fault Refusal :=
  match nextMove s with
  | .done s' => .next s'
  | .run i s' => exec i s'
  | .refuse r => .refused r

/-- The state with the command word placed where the next step takes it: the host's write to CMD is the next event
(log 1). -/
def State.withFetchWord (s : State) (nbits w : Nat) : State := withCommandWord s (tableWord nbits w)

end Sys2Proof.Machine
end

