-- ==== Sys2Proof/Machine/HostNotation.lean ====
section
/-! DEFINITION. The host notation and the driver macros (30_encoding.md R106, R107), and the bus address of an offset
(20_memory.md R70). A macro is a list of events: the host's transactions in order. It is not atomic, so events of the
engine may be put between them (R107). -/

namespace Sys2Proof.Machine

/-- The bus address of an offset of the window, `BASE + off` (R70, R9). -/
def busAddress (off : BitVec 16) : Nat := Config.base + off.toNat

/-- `WR32 off, val` (R106). -/
def wr32 (off : BitVec 16) (val : Word) : Event := .bus ⟨.write, off, .four, val⟩

/-- `WR16 off, val` (R106). -/
def wr16 (off : BitVec 16) (val : BitVec 16) : Event := .bus ⟨.write, off, .two, val.setWidth 32⟩

/-- `WR8 off, val` (R106). -/
def wr8 (off : BitVec 16) (val : Byte) : Event := .bus ⟨.write, off, .one, val.setWidth 32⟩

/-- `RD32 off` (R106). A READ carries no data; its `wdata` is not used (R70). -/
def rd32 (off : BitVec 16) : Event := .bus ⟨.read, off, .four, 0⟩

/-- `RD8 off` (R106). -/
def rd8 (off : BitVec 16) : Event := .bus ⟨.read, off, .one, 0⟩

/-- The reads of a `POLL off, mask, val` that ends at its n-th read (R106; log 21). -/
def pollReads (n : Nat) (off : BitVec 16) : List Event := List.replicate n (rd32 off)

/-- A read that ends a `POLL` (R106): `(rdata AND mask) = val`. -/
def pollEnds (mask val rdata : Word) : Bool := rdata &&& mask == val

/-- `w(s, a)` (R107): byte `s[a+k]` on bits [8k+7:8k]; bytes past the end of s count as 0. -/
def packWord (s : List Byte) (a : Nat) : Word :=
  laneWord (s.getD a 0) (s.getD (a + 1) 0) (s.getD (a + 2) 0) (s.getD (a + 3) 0)

/-- The word writes that store s from offset `base` on (R107). Its callers keep every offset within 16 bits (log 24). -/
def loadWords (base : Nat) (s : List Byte) : List Event :=
  (List.range (ceilDiv s.length 4)).map fun q => wr32 (BitVec.ofNat 16 (base + 4 * q)) (packWord s (4 * q))

/-- `LOAD_DST s` (R107). With `len(s) > 32` it cannot be expanded. -/
def loadDst (s : List Byte) : Option (List Event) :=
  if s.length ≤ dstBufSize then
    some (loadWords dstBufBase s ++ [wr32 0x0010 (BitVec.ofNat 32 s.length)])
  else none

/-- How a tag longer than 32 bytes is set up (R107): `LOAD_DST` of its first 32 bytes, then its length in DST_LEN. DESIGN
CHOICE (log 24): a length of 2^32 or more is no 32-bit value of a WRITE, and has no expansion; for a tag of at most 32 bytes,
for which R107 gives this setup no meaning, the function gives the same list, in which DST_LEN is written 32 and then
len(s). -/
def loadLongDst (s : List Byte) : Option (List Event) :=
  if s.length < 2 ^ 32 then
    some (loadWords dstBufBase (s.take dstBufSize) ++ [wr32 0x0010 (BitVec.ofNat 32 dstBufSize)] ++
      [wr32 0x0010 (BitVec.ofNat 32 s.length)])
  else none

/-- `LOAD_MSG s` (R107). DESIGN CHOICE (log 24): R107 gives no limit, and with `len(s) > 0xC000` an offset 0x4000 + 4q
leaves the 16 bits of R70, so there is no such transaction and the macro has no expansion. -/
def loadMsg (s : List Byte) : Option (List Event) :=
  if s.length ≤ 0xC000 then some (loadWords msgBufBase s ++ [wr32 0x0014 (BitVec.ofNat 32 s.length)])
  else none

/-- `EXPAND n` (R107). -/
def expandMacro (n : Word) : List Event := [wr32 0x0018 n, wr32 0x0004 (encode .expand)]

/-- `H2F c` (R107). -/
def h2fMacro (c : Word) : List Event := [wr32 0x001C c, wr32 0x0004 (encode .hashToField)]

/-- `WAIT` that ends at its n-th read of STATUS (R107). -/
def waitReads (n : Nat) : List Event := pollReads n 0x0008

/-- `WAIT` is over: BUSY = 0 (R107). -/
def waitEnds (rdata : Word) : Bool := pollEnds 0x00000001 0x00000000 rdata

/-- `CLEAR` (R107). -/
def clearMacro : List Event := [wr32 0x0008 0x0000000E]

end Sys2Proof.Machine
end

