-- ==== Sys2Proof/Safety.lean ====
section
/-! DEFINITION. What a sound state of the block is: the promises the spec makes about STATUS (10_state.md R34 to R36),
about the command held (R45, R46, R53), about the buffers (R40 to R42), about reset (70_reset_and_hazards.md R280), and
what the datapath holds in each sequencer state (42_expand_message_xmd.md R190, 45_hash_to_field.md R237). -/

namespace Sys2Proof.Machine

/-- A legal value of MSG_BUF_SIZE (00_scope.md R9). -/
def legalMsgBufSize (n : Nat) : Prop := n % 4 = 0 ∧ 4 ≤ n ∧ n ≤ 0xC000

/-- An offset of DST_BUF, OUT_BUF or MSG_BUF (20_memory.md R75). -/
def bufferOffset (msgBufSize off : Nat) : Prop :=
  (dstBufBase ≤ off ∧ off < dstBufBase + dstBufSize) ∨ (outBufBase ≤ off ∧ off < outBufBase + outBufSize) ∨
    (msgBufBase ≤ off ∧ off < msgBufBase + msgBufSize)

/-- STATUS keeps its promises (R35, R36, R251, U6): DONE and ERR never together, ERRCODE 0 exactly while ERR = 0 and
else 1 to 4, and neither DONE nor ERR while BUSY (R104). -/
structure StatusInv (st : Status) : Prop where
  notBoth : ¬(st.done = true ∧ st.err = true)
  codeZero : st.err = false → st.errcode = 0
  codeRange : st.err = true → 1 ≤ st.errcode.toNat ∧ st.errcode.toNat ≤ 4
  busyClear : st.busy = true → st.done = false ∧ st.err = false

/-- The sequencer state lies in the range that R45 gives it. -/
def seqInRange (s : State) : Prop :=
  match s.seq with
  | .idle => True
  | .expB0 => True
  | .expB1 => True
  | .expBI j => 2 ≤ j ∧ j ≤ ell (heldLength s)
  | .map i => s.snap.op = .hashToField ∧ i < s.snap.count.toNat
  | .commit => True

/-- While a command is held its snapshot equals the operand registers (R53), it passed the acceptance checks (R104,
R254), the sequencer is in range, and `rst_n` is 1 (R280). -/
structure HeldInv (s : State) : Prop where
  snapshot : s.snap = takeSnapshot s.snap.op s
  accepted : checkOperands s.snap.op s = none
  inRange : seqInRange s
  running : s.rstN = true

/-- The control state keeps its promises: BUSY says that a command is held (R34, R45), MSGBUF_SIZE is a legal parameter
(R44, R9), RESULT_LEN is the length of some result (R43), and while `rst_n` = 0 every register has its reset value
(R280). -/
structure ControlInv (s : State) : Prop where
  busyIff : s.status.busy = true ↔ s.seq ≠ .idle
  held : s.seq ≠ .idle → HeldInv s
  sizeLegal : legalMsgBufSize s.msgbufSize.toNat
  resultLen : s.resultLen.toNat ≤ outLenMax
  inReset : s.rstN = false → s.status = Status.zero ∧ s.irqEn = ⟨false, false⟩ ∧ s.dstLen = 0 ∧ s.msgLen = 0 ∧
    s.outLen = 0 ∧ s.count = 0 ∧ s.resultLen = 0 ∧ s.seq = .idle

/-- The byte stores are in canonical form (log 22) and list only places that exist (R40 to R42, R46). -/
structure MemoryInv (s : State) : Prop where
  memWf : Memory.wf s.mem = true
  memPlaces : ∀ c ∈ s.mem, bufferOffset s.msgbufSize.toNat c.1
  expbufWf : Memory.wf s.expbuf = true
  expbufPlaces : ∀ c ∈ s.expbuf, c.1 < outLenMax
  resbufWf : Memory.wf s.resbuf = true
  resbufPlaces : ∀ c ∈ s.resbuf, c.1 < outBufSize

/-- A sound state. -/
structure Inv (s : State) : Prop where
  status : StatusInv s.status
  control : ControlInv s
  memory : MemoryInv s

/-- The datapath holds what the reference function says it holds, in every sequencer state (R190, R237): the digests so
far, the expanded bytes, the elements so far, the result. The tag and the message are those in the buffers. -/
def DatapathInv (s : State) : Prop :=
  match s.seq with
  | .idle => True
  | .expB0 => True
  | .expB1 => wideBytes s.b0reg = digestZero s.tag s.message (heldLength s)
  | .expBI j =>
    wideBytes s.b0reg = digestZero s.tag s.message (heldLength s) ∧
    wideBytes s.bireg = chainDigest (digestZero s.tag s.message (heldLength s)) s.tag (j - 1) ∧
    s.jreg.toNat = j - 1 ∧
    s.expbufRead 0 (32 * (j - 1)) = uniformBytes (digestZero s.tag s.message (heldLength s)) s.tag (j - 1)
  | .map i =>
    s.expbufRead 0 (heldLength s) = expandXMD s.tag s.message (heldLength s) ∧
    s.resbufRead 0 (feBytes * i) =
      encodeElements ((hashToField s.tag s.message s.snap.count.toNat).take i)
  | .commit =>
    match s.snap.op with
    | .expand => s.expbufRead 0 s.snap.outLen.toNat = expandXMD s.tag s.message s.snap.outLen.toNat
    | .hashToField =>
      s.resbufRead 0 (feBytes * s.snap.count.toNat) =
        encodeElements (hashToField s.tag s.message s.snap.count.toNat)

/-- How many engine turns a command takes from acceptance to its commit, the commit included: b0, b1 to b_ell (b1
always, R187), the map phase, the commit (R190, R237). -/
def turnsToCommit (i : Instr) (outLen count : Nat) : Nat :=
  match i with
  | .expand => 1 + max (ell outLen) 1 + 1
  | .hashToField => 1 + max (ell (elemSize * count)) 1 + count + 1

/-- The bytes a command commits, from its operands (R191, R238). -/
def resultBytes (i : Instr) (dst msg : List Byte) (outLen count : Nat) : List Byte :=
  match i with
  | .expand => expandXMD dst msg outLen
  | .hashToField => encodeElements (hashToField dst msg count)

/-- Every buffer byte that a command would read has been written since reset (70_reset_and_hazards.md R284). -/
def inputsWritten (s : State) : Prop :=
  (∀ k < s.dstLen.toNat, s.written (dstBufBase + k) = true) ∧
  (∀ k < s.msgLen.toNat, s.written (msgBufBase + k) = true)

end Sys2Proof.Machine
end

