-- ==== Sys2Proof/WellFormed.lean ====
section
/-! DEFINITION. Which transactions a host may form so that the port does not refuse them whatever the state holds
(20_memory.md R72), and well-formed commands. The port's own check is `busAccess` in Machine/Bus.lean. -/

namespace Sys2Proof

/-- How many bytes a transaction of this size covers (R70). -/
def BusSize.bytes : BusSize → Nat
  | .one => 1
  | .two => 2
  | .four => 4

/-- The offset is a multiple of the size (R72). -/
def Transaction.aligned (t : Transaction) : Bool :=
  t.off.toNat % t.size.bytes == 0

/-- In the control region 0x0000 to 0x00FF only a 4-byte access is legal (R72). -/
def Transaction.widthLegal (t : Transaction) : Bool :=
  t.size == .four || decide (0x100 ≤ t.off.toNat)

/-- A well-formed transaction passes both checks of R72. -/
def Transaction.wellFormed (t : Transaction) : Bool :=
  t.aligned && t.widthLegal

/-- A well-formed event: a bus event carries a well-formed transaction. -/
def Event.wellFormed : Event → Bool
  | .bus t => t.wellFormed
  | .engine => true
  | .assertReset => true
  | .releaseReset => true

/-- A command has no operand field (R100, R102), so every command is well-formed. -/
def Instr.wellFormed : Instr → Bool
  | .expand => true
  | .hashToField => true

end Sys2Proof
end

