-- ==== Sys2Proof/Certificates/Slice0/Obligations.lean ====
section
/-! DEFINITION. The statements for the provers, one per definition; the docstring says which rule of spec/ each one
formalises. -/

open Sys2Proof Sys2Proof.Machine

/-! ### Encoding -/

/-- R101, R103, R105: exactly the words 0x00000001 and 0x00000002 are commands; every other word is rejected by name. -/
def Obligations.CommandWordsAreExactlyTwo : Prop :=
  ∀ w : Word,
    (decodeWord w = .ok .expand ↔ w = 0x00000001#32) ∧
    (decodeWord w = .ok .hashToField ↔ w = 0x00000002#32) ∧
    ((∃ e, decodeWord w = .error e) ↔ w ≠ 0x00000001#32 ∧ w ≠ 0x00000002#32)

/-- R100, R108: decoding the bytes of an encoded command gives the command back with the bytes behind it, and only those
bytes decode to it. -/
def Obligations.DecodeInvertsEncode : Prop :=
  (∀ (i : Instr) (rest : List Byte), i.wellFormed = true →
    decode (laneBytes (encode i) ++ rest) = .ok (i, rest)) ∧
  (∀ (bs rest : List Byte) (i : Instr), decode bs = .ok (i, rest) → bs = laneBytes (encode i) ++ rest)

/-- R101, R108: a few words written out from the opcode map, read by the decoder. -/
def Obligations.OpcodeMapWordsDecode : Prop :=
  decodeTableWord 32 0x00000001 = some .expand ∧ decodeTableWord 32 0x00000002 = some .hashToField ∧
  decodeTableWord 32 0x00000000 = none ∧ decodeTableWord 32 0x00000003 = none ∧
  decodeTableWord 32 0x00000101 = none ∧ decodeTableWord 32 0x80000002 = none

/-! ### The step -/

/-- R104, R80: when the next event is the host's write of a command's word to CMD, the step is `exec` of that command,
on the state without that event, with the port answering OKAY and the turn the host's. That the answer to a write carries
no rdata is the model's form (log 12). -/
def Obligations.StepRunsTheWrittenCommand : Prop :=
  ∀ (s : State) (v : Word) (i : Instr) (rest : List Event),
    s.rstN = true → s.input = .bus (cmdWrite v) :: rest → decodeWord v = .ok i →
    step s = exec i { s with input := rest, turn := .host, response := some ⟨.okay, none⟩ }

/-- R45, R86, R269: an engine turn, given by the next event or taken because no event is left, is `exec` of the command
held with the turn the engine's; while IDLE nothing happens. That the engine moves when no event is left is the model's
choice (log 10). -/
def Obligations.StepRunsTheHeldCommand : Prop :=
  ∀ (s : State) (rest : List Event), (s.input = .engine :: rest ∨ s.input = [] ∧ rest = []) →
    (s.seq ≠ .idle → step s = exec s.snap.op { s with input := rest, turn := .engine }) ∧
    (s.seq = .idle → step s = .next { s with input := rest })

/-- R280, U19 and the absence of any other stop: a step faults never, and refuses exactly a bus access while `rst_n` =
0. That the events to come stand in State is the model's form (log 1). -/
def Obligations.StepRefusesOnlyAccessesInReset : Prop :=
  ∀ s : State,
    (∀ f : Fault, step s ≠ .fault f) ∧
    (∀ r : Refusal, step s = .refused r ↔
      (r = .busAccessDuringReset ∧ s.rstN = false ∧ ∃ (t : Transaction) (rest : List Event), s.input = .bus t :: rest))

/-! ### Command acceptance -/

/-- R104, R255: a write of `v` to CMD is dropped while BUSY, else refused with the code of CheckCommand, else started
with the snapshot taken; nothing else changes but the port's answer, OKAY. -/
def Obligations.CommandWriteFollowsAcceptance : Prop :=
  ∀ (s : State) (v : Word) (rest : List Event), s.rstN = true → s.input = .bus (cmdWrite v) :: rest → ∃ d,
    let s0 := { s with input := rest, turn := .host, response := some ⟨.okay, d⟩ }
    (s.status.busy = true → step s = .next { s0 with status := { s.status with busywr := true } }) ∧
    (s.status.busy = false → ∀ code, checkCommand v s = some code →
      step s = .next { s0 with status := ⟨false, false, true, s.status.busywr, code.number⟩ }) ∧
    (s.status.busy = false → checkCommand v s = none →
      ∃ i, decodeWord v = .ok i ∧
        step s = .next { s0 with
          status := ⟨true, false, false, s.status.busywr, 0⟩
          snap := ⟨i, s.dstLen, s.msgLen, s.outLen, s.count⟩
          seq := .expB0 })

/-- R185, R104: EXPAND written with BUSY = 0 and its operands in range is accepted, whatever COUNT holds: BUSY is set,
DONE, ERR and ERRCODE are cleared, the snapshot is taken, the sequencer enters EXP_B0, and nothing else changes. -/
def Obligations.ExpandIsAccepted : Prop :=
  ∀ s : State, s.turn = .host → s.status.busy = false →
    s.dstLen.toNat ≤ 32 → s.msgLen.toNat ≤ s.msgbufSize.toNat → s.outLen.toNat ≤ 8160 →
    exec .expand s = .next { s with
      status := ⟨true, false, false, s.status.busywr, 0⟩
      snap := ⟨.expand, s.dstLen, s.msgLen, s.outLen, s.count⟩
      seq := .expB0 }

/-- R233, R104: HASH_TO_FIELD written with BUSY = 0 and its operands in range is accepted, whatever OUT_LEN holds; the
effect is that of an accepted EXPAND but for the snapshot's OP. -/
def Obligations.HashToFieldIsAccepted : Prop :=
  ∀ s : State, s.turn = .host → s.status.busy = false →
    s.dstLen.toNat ≤ 32 → s.msgLen.toNat ≤ s.msgbufSize.toNat → s.count.toNat ≤ 170 →
    exec .hashToField s = .next { s with
      status := ⟨true, false, false, s.status.busywr, 0⟩
      snap := ⟨.hashToField, s.dstLen, s.msgLen, s.outLen, s.count⟩
      seq := .expB0 }

/-- R254: CheckCommand in the numbers of the spec: 4 for a word that is no command, then 1, 3, 2, else no code. -/
def Obligations.ChecksRunInOrder : Prop :=
  ∀ (v : Word) (s : State),
    (checkCommand v s).map ErrCode.number =
      if v.toNat / 256 ≠ 0 ∨ (v.toNat % 256 ≠ 1 ∧ v.toNat % 256 ≠ 2) then some 4
      else if s.dstLen.toNat > 32 then some 1
      else if s.msgLen.toNat > s.msgbufSize.toNat then some 3
      else if v.toNat % 256 = 1 ∧ s.outLen.toNat > 8160 then some 2
      else if v.toNat % 256 = 2 ∧ s.count.toNat > 170 then some 2
      else none

/-- R255: a refused command changes only STATUS: ERR <- 1, ERRCODE <- the code, DONE cleared; BUSY stays 0 and the
sequencer stays where it is. -/
def Obligations.RefusalWritesOnlyStatus : Prop :=
  ∀ (s : State) (i : Instr) (code : ErrCode), s.turn = .host → s.status.busy = false →
    checkOperands i s = some code →
    exec i s = .next { s with status := ⟨false, false, true, s.status.busywr, code.number⟩ }

/-- R250: with BUSY = 0, a tag length of 33 or more raises INVALID_DOMAIN_SIZE, for both commands; 0 to 32 never does. -/
def Obligations.DomainSizeBoundaryIsThirtyTwo : Prop :=
  ∀ (s : State) (i : Instr) (rest : List Event), s.rstN = true → s.status.busy = false →
    s.input = .bus (cmdWrite (encode i)) :: rest →
    ∃ t, step s = .next t ∧
      (32 < s.dstLen.toNat → t.status = ⟨false, false, true, s.status.busywr, 1⟩) ∧
      (s.dstLen.toNat ≤ 32 → t.status.errcode ≠ 1)

/-- R252: with the tag length in range, a message longer than MSG_BUF_SIZE raises MSG_LEN_RANGE, for both commands; one
that fits never does. -/
def Obligations.MessageLengthBoundaryIsTheBuffer : Prop :=
  ∀ (s : State) (i : Instr) (rest : List Event), s.rstN = true → s.status.busy = false →
    s.input = .bus (cmdWrite (encode i)) :: rest → s.dstLen.toNat ≤ 32 →
    ∃ t, step s = .next t ∧
      (s.msgbufSize.toNat < s.msgLen.toNat → t.status = ⟨false, false, true, s.status.busywr, 3⟩) ∧
      (s.msgLen.toNat ≤ s.msgbufSize.toNat → t.status.errcode ≠ 3)

/-- R253: with tag and message in range, EXPAND of more than 8160 bytes and HASH_TO_FIELD of more than 170 elements raise
OUT_LEN_RANGE; EXPAND does not look at COUNT nor HASH_TO_FIELD at OUT_LEN. -/
def Obligations.OutputLengthBoundaryIsPerCommand : Prop :=
  ∀ (s : State) (i : Instr) (rest : List Event), s.rstN = true → s.status.busy = false →
    s.input = .bus (cmdWrite (encode i)) :: rest → s.dstLen.toNat ≤ 32 → s.msgLen.toNat ≤ s.msgbufSize.toNat →
    ∃ t, step s = .next t ∧
      (i = .expand → (8160 < s.outLen.toNat → t.status = ⟨false, false, true, s.status.busywr, 2⟩) ∧
        (s.outLen.toNat ≤ 8160 → t.status.busy = true ∧ t.status.err = false)) ∧
      (i = .hashToField → (170 < s.count.toNat → t.status = ⟨false, false, true, s.status.busywr, 2⟩) ∧
        (s.count.toNat ≤ 170 → t.status.busy = true ∧ t.status.err = false))

/-- R258: writing the same word again after a refusal, with the same registers, raises the same code. -/
def Obligations.SameCommandIsRefusedAgain : Prop :=
  ∀ (s : State) (v : Word) (code : ErrCode), s.rstN = true → s.status.busy = false →
    s.input = [.bus (cmdWrite v), .bus (cmdWrite v)] → checkCommand v s = some code →
    ∃ t u, step s = .next t ∧ step t = .next u ∧
      t.status = ⟨false, false, true, s.status.busywr, code.number⟩ ∧ u.status = t.status

/-! ### The bus -/

/-- R53: while BUSY = 1, a write to CMD, an operand register, DST_BUF or MSG_BUF is dropped and sets BUSYWR, nothing
more. Whether or not BUSY = 1, a write to STATUS or IRQ_EN takes effect, a write to a RO place is ignored and does not
set BUSYWR, and a read is answered. Every one of these accesses gets OKAY. -/
def Obligations.BusyRuleDropsSetupWrites : Prop :=
  ∀ (s : State) (x : Transaction) (rest : List Event) (p : Place), s.rstN = true →
    s.input = .bus x :: rest → busAccess x s = some p → ∃ d,
    let s0 := { s with input := rest, turn := .host, response := some ⟨.okay, d⟩ }
    (s.status.busy = true → x.kind = .write →
      p ∈ [Place.cmd, .dstLen, .msgLen, .outLen, .count, .dstBuf, .msgBuf] →
      step s = .next { s0 with status := { s.status with busywr := true } }) ∧
    (x.kind = .write → p = .status → step s = .next { s0 with status := s.status.writeOneToClear x.wdata }) ∧
    (x.kind = .write → p = .irqEn →
      step s = .next { s0 with irqEn := ⟨x.wdata.getLsbD 0, x.wdata.getLsbD 1⟩ }) ∧
    (x.kind = .write → p ∈ [Place.id, .resultLen, .msgbufSize, .outBuf] → step s = .next s0) ∧
    (x.kind = .read → ∃ v, step s = .next { s0 with response := some ⟨.okay, some v⟩ })

/-- R72, R73, R78: an access that is misaligned, narrow in the control region, or covers a byte outside the address map
gets SLVERR with rdata = 0 and changes nothing; every other access gets OKAY. -/
def Obligations.BusErrorsAreExactlyTheIllegalAccesses : Prop :=
  ∀ (s : State) (x : Transaction) (rest : List Event), s.rstN = true → s.input = .bus x :: rest →
    legalMsgBufSize s.msgbufSize.toNat →
    ((x.off.toNat % x.size.bytes ≠ 0 ∨ (x.off.toNat < 0x100 ∧ x.size ≠ .four) ∨
        ∃ k < x.size.bytes, ¬(x.off.toNat + k < 0x28 ∨ bufferOffset s.msgbufSize.toNat (x.off.toNat + k))) →
      step s = .next { s with input := rest, turn := .host, response := some ⟨.slverr, some 0⟩ }) ∧
    (¬(x.off.toNat % x.size.bytes ≠ 0 ∨ (x.off.toNat < 0x100 ∧ x.size ≠ .four) ∨
        ∃ k < x.size.bytes, ¬(x.off.toNat + k < 0x28 ∨ bufferOffset s.msgbufSize.toNat (x.off.toNat + k))) →
      ∃ t d, step s = .next t ∧ t.response = some ⟨.okay, d⟩)

/-- R79: an access that gets SLVERR has no effect on any state, STATUS included: only the port's answer and the event
list differ. -/
def Obligations.BusErrorsChangeNothing : Prop :=
  ∀ (s t : State) (x : Transaction) (rest : List Event) (d : Option Word), s.input = .bus x :: rest →
    step s = .next t → t.response = some ⟨.slverr, d⟩ →
    d = some 0 ∧ t = { s with input := rest, turn := .host, response := some ⟨.slverr, some 0⟩ }

/-- R81: a read has no side effect anywhere in the window. -/
def Obligations.ReadsChangeNothing : Prop :=
  ∀ (s : State) (x : Transaction) (rest : List Event), s.rstN = true → s.input = .bus x :: rest → x.kind = .read →
    ∃ a, step s = .next { s with input := rest, turn := .host, response := some a }

/-- R31 to R33, R38, R39, R43, R44, R75: what a 4-byte read of each control register returns; STATUS and IRQ_EN with
every reserved bit 0. -/
def Obligations.RegisterReadsReturnTheRegisters : Prop :=
  ∀ (s : State) (rest : List Event), s.rstN = true →
    let reads := fun (off : BitVec 16) (v : Nat) =>
      s.input = rd32 off :: rest →
        step s = .next { s with
          input := rest, turn := .host, response := some ⟨.okay, some (BitVec.ofNat 32 v)⟩ }
    reads 0x0000 0x48544631 ∧ reads 0x0004 0 ∧
    reads 0x0008 (s.status.busy.toNat + 2 * s.status.done.toNat + 4 * s.status.err.toNat +
      8 * s.status.busywr.toNat + 256 * s.status.errcode.toNat) ∧
    reads 0x000C (s.irqEn.enDone.toNat + 2 * s.irqEn.enErr.toNat) ∧
    reads 0x0010 s.dstLen.toNat ∧ reads 0x0014 s.msgLen.toNat ∧ reads 0x0018 s.outLen.toNat ∧
    reads 0x001C s.count.toNat ∧ reads 0x0020 s.resultLen.toNat ∧ reads 0x0024 s.msgbufSize.toNat

/-- R71, R77: a read of n buffer bytes returns byte off+k on bits [8k+7:8k] and 0 on the bits above 8n-1. -/
def Obligations.BufferReadsUseLittleEndianLanes : Prop :=
  ∀ (s : State) (x : Transaction) (rest : List Event) (p : Place), s.rstN = true → s.input = .bus x :: rest →
    x.kind = .read → busAccess x s = some p → p ∈ [Place.dstBuf, .outBuf, .msgBuf] →
    ∃ v : Word, step s = .next { s with input := rest, turn := .host, response := some ⟨.okay, some v⟩ } ∧
      (∀ k < x.size.bytes, v.extractLsb' (8 * k) 8 = s.byteAt (x.off.toNat + k)) ∧
      v.toNat < 256 ^ x.size.bytes

/-- R40, R41, R71: with BUSY = 0, a write of n bytes to DST_BUF or MSG_BUF stores bits [8k+7:8k] at off+k, marks those
bytes written, and leaves every other byte and everything else unchanged. That the answer to a write carries no rdata
is the model's form (log 12). -/
def Obligations.BufferWritesStoreTheirLanes : Prop :=
  ∀ (s : State) (x : Transaction) (rest : List Event) (p : Place), s.rstN = true → s.status.busy = false →
    s.input = .bus x :: rest → x.kind = .write → busAccess x s = some p → p ∈ [Place.dstBuf, .msgBuf] →
    ∃ m : Memory,
      let t := { s with input := rest, turn := .host, response := some ⟨.okay, none⟩, mem := m }
      step s = .next t ∧
      (∀ k < x.size.bytes, t.byteAt (x.off.toNat + k) = x.wdata.extractLsb' (8 * k) 8 ∧
        t.written (x.off.toNat + k) = true) ∧
      (∀ a, ¬(x.off.toNat ≤ a ∧ a < x.off.toNat + x.size.bytes) →
        t.byteAt a = s.byteAt a ∧ t.written a = s.written a)

/-- R39: with BUSY = 0, a write to an operand register stores all 32 bits, with no check of range, and changes nothing
else. That the answer to a write carries no rdata is the model's form (log 12). -/
def Obligations.OperandWritesStoreEveryBit : Prop :=
  ∀ (s : State) (v : Word) (rest : List Event), s.rstN = true → s.status.busy = false →
    let s0 := { s with input := rest, turn := .host, response := some ⟨.okay, none⟩ }
    (s.input = wr32 0x0010 v :: rest → step s = .next { s0 with dstLen := v }) ∧
    (s.input = wr32 0x0014 v :: rest → step s = .next { s0 with msgLen := v }) ∧
    (s.input = wr32 0x0018 v :: rest → step s = .next { s0 with outLen := v }) ∧
    (s.input = wr32 0x001C v :: rest → step s = .next { s0 with count := v })

/-- R33, R257: a write to STATUS, while BUSY or not, clears DONE, ERR with ERRCODE, and BUSYWR where bit 1, 2, 3 is
written 1, leaves the others, and changes nothing else. That the answer to a write carries no rdata is the model's
form (log 12). -/
def Obligations.StatusWritesClearByOnes : Prop :=
  ∀ (s : State) (v : Word) (rest : List Event), s.rstN = true → s.input = wr32 0x0008 v :: rest →
    step s = .next { s with
      input := rest
      turn := .host
      response := some ⟨.okay, none⟩
      status := {
        busy := s.status.busy
        done := if v.getLsbD 1 then false else s.status.done
        err := if v.getLsbD 2 then false else s.status.err
        busywr := if v.getLsbD 3 then false else s.status.busywr
        errcode := if v.getLsbD 2 then 0 else s.status.errcode } }

/-- R38: a write to IRQ_EN stores bits 0 and 1, while BUSY or not, and reads back with bits [31:2] zero. That the
answer to a write carries no rdata is the model's form (log 12). -/
def Obligations.IrqEnableKeepsTwoBits : Prop :=
  ∀ (s : State) (v : Word) (rest : List Event), s.rstN = true →
    s.input = wr32 0x000C v :: rd32 0x000C :: rest →
    ∃ t, step s = .next t ∧
      t = { s with
        input := rd32 0x000C :: rest
        turn := .host
        response := some ⟨.okay, none⟩
        irqEn := ⟨v.getLsbD 0, v.getLsbD 1⟩ } ∧
      step t = .next { t with
        input := rest, response := some ⟨.okay, some (BitVec.ofNat 32 (v.toNat % 4))⟩ }

/-- R74: a legal write to ID, RESULT_LEN, MSGBUF_SIZE or any byte of OUT_BUF gets OKAY and changes nothing, while BUSY
or not; it never sets BUSYWR. -/
def Obligations.ReadOnlyPlacesIgnoreWrites : Prop :=
  ∀ (s : State) (x : Transaction) (rest : List Event) (p : Place), s.rstN = true → s.input = .bus x :: rest →
    x.kind = .write → busAccess x s = some p → p ∈ [Place.id, .resultLen, .msgbufSize, .outBuf] →
    ∃ d, step s = .next { s with input := rest, turn := .host, response := some ⟨.okay, d⟩ }

/-! ### STATUS, the interrupt and the parameter over every step -/

/-- R34: BUSY rises only in the step of a CMD write that passes CheckCommand, and falls only in the step in which the
command held commits, or by reset. -/
def Obligations.BusyFollowsAcceptanceAndCommit : Prop :=
  ∀ s t : State, step s = .next t →
    (s.status.busy = false → t.status.busy = true →
      ∃ (v : Word) (x : Transaction) (rest : List Event), s.input = .bus x :: rest ∧ x.kind = .write ∧
        x.off = 0x0004 ∧ x.wdata = v ∧ checkCommand v s = none ∧ t.seq = .expB0) ∧
    (s.status.busy = true → t.status.busy = false →
      (s.seq = .commit ∧ t.status.done = true ∧ t.seq = .idle) ∨ ∃ rest, s.input = .assertReset :: rest)

/-- R37, R53: BUSYWR rises only when a write that the busy rule drops (to CMD, an operand register, DST_BUF or MSG_BUF)
meets BUSY = 1, and falls only by a W1C write of bit 3 to STATUS or by reset. -/
def Obligations.BusyWriteFlagIsSticky : Prop :=
  ∀ s t : State, step s = .next t →
    (s.status.busywr = false → t.status.busywr = true →
      s.status.busy = true ∧ ∃ (x : Transaction) (rest : List Event) (p : Place), s.input = .bus x :: rest ∧
        x.kind = .write ∧ busAccess x s = some p ∧
        p ∈ [Place.cmd, .dstLen, .msgLen, .outLen, .count, .dstBuf, .msgBuf]) ∧
    (s.status.busywr = true → t.status.busywr = false →
      (∃ (x : Transaction) (rest : List Event), s.input = .bus x :: rest ∧ x.kind = .write ∧ x.off = 0x0008 ∧
        x.wdata.getLsbD 3 = true) ∨ ∃ rest, s.input = .assertReset :: rest)

/-- R264: `irq` rises only in a commit step, in the step of a CMD write that is refused, or in the step of a write to
IRQ_EN. BUSYWR, a dropped write and a bus error never raise it. -/
def Obligations.IrqRisesOnlyAtItsCauses : Prop :=
  ∀ s t : State, step s = .next t → s.irq = false → t.irq = true →
    (s.seq = .commit ∧ s.status.done = false ∧ t.status.done = true) ∨
    (∃ (x : Transaction) (rest : List Event), s.input = .bus x :: rest ∧ x.kind = .write ∧ x.off = 0x0004 ∧
      s.status.busy = false ∧ t.status.err = true) ∨
    (∃ (x : Transaction) (rest : List Event), s.input = .bus x :: rest ∧ x.kind = .write ∧ x.off = 0x000C ∧
      t.irqEn ≠ s.irqEn)

/-- R49, R263, R264: when `irq` is 1. It is 1 exactly while DONE and EN_DONE, or ERR and EN_ERR, read as 1. A commit with
EN_DONE set ends with `irq` = 1, and so does a refused CMD write with EN_ERR set; a write to IRQ_EN gives at once the level
of the bits it enables; a write to STATUS leaves the level of the pending bits it does not clear, so clearing the last
enabled one ends with `irq` = 0; an accepted command ends with `irq` = 0. That the engine moves, and so commits, when no
event is left is the model's choice (log 10). -/
def Obligations.IrqIsTheLevelOfEnabledPendingBits : Prop :=
  ∀ s : State,
    (s.irq = true ↔ (s.status.word.getLsbD 1 = true ∧ s.irqEn.word.getLsbD 0 = true) ∨
      (s.status.word.getLsbD 2 = true ∧ s.irqEn.word.getLsbD 1 = true)) ∧
    (s.seq = .commit → s.irqEn.enDone = true → (s.input = [] ∨ ∃ rest, s.input = .engine :: rest) →
      ∃ t, step s = .next t ∧ t.irq = true) ∧
    (∀ (v : Word) (code : ErrCode) (rest : List Event), s.rstN = true → s.input = .bus (cmdWrite v) :: rest →
      s.status.busy = false → checkCommand v s = some code → s.irqEn.enErr = true →
      ∃ t, step s = .next t ∧ t.irq = true) ∧
    (∀ (v : Word) (rest : List Event), s.rstN = true → s.input = wr32 0x000C v :: rest →
      ∃ t, step s = .next t ∧
        t.irq = ((s.status.done && v.getLsbD 0) || (s.status.err && v.getLsbD 1))) ∧
    (∀ (v : Word) (rest : List Event), s.rstN = true → s.input = wr32 0x0008 v :: rest →
      ∃ t, step s = .next t ∧
        t.irq = ((s.status.done && !v.getLsbD 1 && s.irqEn.enDone) ||
          (s.status.err && !v.getLsbD 2 && s.irqEn.enErr))) ∧
    (∀ (v : Word) (rest : List Event), s.rstN = true → s.input = .bus (cmdWrite v) :: rest →
      s.status.busy = false → checkCommand v s = none → ∃ t, step s = .next t ∧ t.irq = false)

/-- R44: MSGBUF_SIZE is hardwired: no step changes it, reset included. -/
def Obligations.MessageBufferSizeNeverChanges : Prop :=
  ∀ s t : State, step s = .next t → t.msgbufSize = s.msgbufSize

/-- R42, R43, R85, R191, R238: OUT_BUF and RESULT_LEN change only in a commit step of the engine, or by reset. That the
engine moves when no event is left is the model's choice (log 10). -/
def Obligations.OutputsChangeOnlyAtCommit : Prop :=
  ∀ s t : State, legalMsgBufSize s.msgbufSize.toNat → step s = .next t →
    (t.resultLen ≠ s.resultLen ∨ ∃ a, 0x2000 ≤ a ∧ a < 0x4000 ∧ t.byteAt a ≠ s.byteAt a) →
    (s.seq = .commit ∧ t.seq = .idle ∧ t.status.done = true ∧
      (s.input = [] ∨ ∃ rest, s.input = .engine :: rest)) ∨
    ∃ rest, s.input = .assertReset :: rest

/-! ### Reset -/

/-- R280, R281: when `rst_n` falls every register takes its reset value, the sequencer is IDLE, `irq` is 0, no buffer
byte counts as written, and a command in flight is gone; a bus access before `rst_n` rises is refused; after it rises
the state is otherwise the same. That the events to come outlive a reset is the model's form (log 13). -/
def Obligations.ResetReplacesTheState : Prop :=
  ∀ (s : State) (rest : List Event), s.input = .assertReset :: rest →
    ∃ t, step s = .next t ∧
      t.status = ⟨false, false, false, false, 0⟩ ∧ t.irqEn = ⟨false, false⟩ ∧ t.dstLen = 0 ∧ t.msgLen = 0 ∧
      t.outLen = 0 ∧ t.count = 0 ∧ t.resultLen = 0 ∧ t.msgbufSize = s.msgbufSize ∧ t.seq = .idle ∧ t.irq = false ∧
      (∀ a, t.written a = false) ∧ t.rstN = false ∧ t.input = rest ∧
      (∀ (x : Transaction) (rest' : List Event), rest = .bus x :: rest' → step t = .refused .busAccessDuringReset) ∧
      (∀ rest' : List Event, rest = .releaseReset :: rest' →
        step t = .next { t with rstN := true, input := rest' })

/-- R50, R282: the state after reset: every register 0, IDLE, no buffer byte written, `irq` 0, `rst_n` released, and
MSGBUF_SIZE some legal value (the model's choice of it is log 3). -/
def Obligations.ResetStateIsIdleAndZero : Prop :=
  State.reset.status.word = 0 ∧ State.reset.irqEn.word = 0 ∧ State.reset.dstLen = 0 ∧ State.reset.msgLen = 0 ∧
  State.reset.outLen = 0 ∧ State.reset.count = 0 ∧ State.reset.resultLen = 0 ∧ State.reset.seq = .idle ∧
  State.reset.irq = false ∧ (∀ a, State.reset.written a = false) ∧ State.reset.rstN = true ∧
  legalMsgBufSize State.reset.msgbufSize.toNat

/-- R282: EXPAND written at once after reset, with no setup, is accepted and commits an empty result: RESULT_LEN = 0,
DONE = 1, no byte written. Shown for every legal MSG_BUF_SIZE and every draw of the buffers. The four steps are the
model's (log 6, log 10). -/
def Obligations.ExpandRightAfterResetIsEmpty : Prop :=
  ∀ (size : Word) (epoch : Nat), legalMsgBufSize size.toNat →
    ∃ t : State,
      Host.Core.run Sys2Proof.core 4 (State.resetValue size epoch true [wr32 0x0004 0x00000001]) = .next t ∧
      t.status = ⟨false, true, false, false, 0⟩ ∧ t.resultLen = 0 ∧ t.seq = .idle ∧ t.mem = [] ∧ t.epoch = epoch

/-! ### The engine's turns -/

/-- R186, R190: the turn in EXP_B0 puts b0 = SHA256(msg_prime) into B0REG and goes to EXP_B1; besides the hash unit's
registers nothing else changes. The hash takes N(m + d + 68) blocks (R172). That one turn runs one sequencer state
whole, and that the unit counts its blocks as a number, is the model's choice (log 6, log 7), as is what the turn does for
a snapshot that acceptance would refuse (log 20). -/
def Obligations.TurnB0HashesMsgPrime : Prop :=
  ∀ (s : State) (i : Instr), s.turn = .engine → s.seq = .expB0 → s.snap.op = i →
    s.snap.dstLen.toNat ≤ 32 → s.snap.msgLen.toNat ≤ 0xC000 → heldLength s ≤ 8160 →
    ∃ r : ShaRegs,
      exec i s = .next { s with
        sha := r
        b0reg := bytesWide (sha256 (mixMsgPrime (s.memRead 0x0100 s.snap.dstLen.toNat)
          (s.memRead 0x4000 s.snap.msgLen.toNat) (heldLength s)))
        seq := .expB1 } ∧
      r.blockCount = (s.snap.msgLen.toNat + s.snap.dstLen.toNat + 68 + 72) / 64

/-- R187, R190: the turn in EXP_B1 puts b1 into BIREG and EXPBUF[0..31], J <- 1, and goes to EXP_BI(2), or past the
expand phase when ell ≤ 1; besides the hash unit's registers nothing else changes. That one turn runs one sequencer state
whole, and that the unit counts its blocks as a number, is the model's choice (log 6, log 7), as is what the turn does for
a snapshot that acceptance would refuse (log 20). -/
def Obligations.TurnB1HashesMixFirst : Prop :=
  ∀ (s : State) (i : Instr), s.turn = .engine → s.seq = .expB1 → s.snap.op = i →
    s.snap.dstLen.toNat ≤ 32 → s.snap.msgLen.toNat ≤ 0xC000 → heldLength s ≤ 8160 →
    ∃ (r : ShaRegs) (m : Memory),
      let b1 := sha256 (mixFirst (wideBytes s.b0reg) (s.memRead 0x0100 s.snap.dstLen.toNat))
      let t := { s with
        sha := r, bireg := bytesWide b1, jreg := 1, expbuf := m
        seq := if heldLength s ≤ 32 then
            (if i = .expand ∨ s.snap.count = 0 then .commit else .map 0)
          else .expBI 2 }
      exec i s = .next t ∧
      (∀ k, t.expbufAt k = if k < 32 then b1.getD k 0 else s.expbufAt k) ∧
      r.blockCount = (s.snap.dstLen.toNat + 34 + 72) / 64

/-- R188, R190: the turn in EXP_BI(j) puts b_j into BIREG and EXPBUF[32(j-1)..32j-1], J <- j, and goes to EXP_BI(j+1),
or past the expand phase when j = ell; besides the hash unit's registers nothing else changes. That one turn runs one
sequencer state whole, and that the unit counts its blocks as a number, is the model's choice (log 6, log 7), as is what the
turn does for j above ell or a snapshot that acceptance would refuse (log 20). -/
def Obligations.TurnBIHashesMixChain : Prop :=
  ∀ (s : State) (i : Instr) (j : Nat), s.turn = .engine → s.seq = .expBI j → s.snap.op = i →
    s.snap.dstLen.toNat ≤ 32 → s.snap.msgLen.toNat ≤ 0xC000 → heldLength s ≤ 8160 → 2 ≤ j → j ≤ 255 →
    ∃ (r : ShaRegs) (m : Memory),
      let bj := sha256 (mixChain (wideBytes s.b0reg) (wideBytes s.bireg)
        (s.memRead 0x0100 s.snap.dstLen.toNat) j)
      let t := { s with
        sha := r, bireg := bytesWide bj, jreg := BitVec.ofNat 8 j, expbuf := m
        seq := if j = (heldLength s + 31) / 32 then
            (if i = .expand ∨ s.snap.count = 0 then .commit else .map 0)
          else .expBI (j + 1) }
      exec i s = .next t ∧
      (∀ k, t.expbufAt k = if 32 * (j - 1) ≤ k ∧ k < 32 * j then bj.getD (k - 32 * (j - 1)) 0 else s.expbufAt k) ∧
      r.blockCount = (s.snap.dstLen.toNat + 34 + 72) / 64

/-- R237, R201, R212, R236: the turn of HASH_TO_FIELD in MAP(i) writes the 32 big-endian bytes of X_i mod p to
RESBUF[32i..32i+31] and goes on to MAP(i+1) or COMMIT; nothing else changes. The order of the elements is the model's
choice (log 9), as is what the turn does for i from count on (log 20). -/
def Obligations.TurnMapReducesOneSlice : Prop :=
  ∀ (s : State) (k : Nat), s.turn = .engine → s.seq = .map k → s.snap.op = .hashToField → k < 170 →
    ∃ m : Memory,
      let e := os2ip (s.expbufRead (48 * k) 48) %
        21888242871839275222246405745257275088696311157297823662689037894645226208583
      let t := { s with
        resbuf := m, seq := if k + 1 = s.snap.count.toNat then .commit else .map (k + 1) }
      exec .hashToField s = .next t ∧
      ∀ a, t.resbufAt a = if 32 * k ≤ a ∧ a < 32 * k + 32 then (i2osp e 32).getD (a - 32 * k) 0 else s.resbufAt a

/-- R191: the commit of EXPAND copies EXPBUF[0..L-1] to OUT_BUF[0..L-1], sets RESULT_LEN <- L, BUSY <- 0, DONE <- 1 and
pc <- IDLE in one step; every other byte and everything else is unchanged. For an L above 8160, which acceptance refuses,
this is the model's choice (log 20). -/
def Obligations.ExpandCommitPublishesExpbuf : Prop :=
  ∀ s : State, s.turn = .engine → s.seq = .commit → s.snap.op = .expand →
    ∃ m : Memory,
      let t := { s with
        mem := m, resultLen := s.snap.outLen, seq := .idle
        status := { s.status with busy := false, done := true } }
      exec .expand s = .next t ∧
      ∀ a, t.byteAt a = if 0x2000 ≤ a ∧ a < 0x2000 + s.snap.outLen.toNat then s.expbufAt (a - 0x2000) else s.byteAt a

/-- R238: the commit of HASH_TO_FIELD copies RESBUF[0..32*count-1] to OUT_BUF, sets RESULT_LEN <- 32*count, BUSY <- 0,
DONE <- 1 and pc <- IDLE in one step; every other byte and everything else is unchanged. For a count above 170, which
acceptance refuses, this is the model's choice (log 20). -/
def Obligations.HashToFieldCommitPublishesResbuf : Prop :=
  ∀ s : State, s.turn = .engine → s.seq = .commit → s.snap.op = .hashToField →
    ∃ m : Memory,
      let t := { s with
        mem := m, resultLen := BitVec.ofNat 32 (32 * s.snap.count.toNat), seq := .idle
        status := { s.status with busy := false, done := true } }
      exec .hashToField s = .next t ∧
      ∀ a, t.byteAt a =
        if 0x2000 ≤ a ∧ a < 0x2000 + 32 * s.snap.count.toNat then s.resbufAt (a - 0x2000) else s.byteAt a

/-- R47, R85: an engine turn before the commit changes no host-visible state: registers, buffers, `irq`, the port's
answer. It covers states that no run reaches, of which R47 and R85 do not speak: a turn at IDLE, a turn of a command other
than the one held, a sequencer state out of range. What it says of those is the model's choice (log 20). -/
def Obligations.TurnsBeforeCommitAreInvisible : Prop :=
  ∀ (s : State) (i : Instr), s.turn = .engine → s.seq ≠ .commit →
    ∃ t, exec i s = .next t ∧
      t = { s with
        seq := t.seq, sha := t.sha, b0reg := t.b0reg, bireg := t.bireg, jreg := t.jreg
        expbuf := t.expbuf, resbuf := t.resbuf }

/-! ### Whole commands -/

/-- R185, R181, R194: EXPAND written with BUSY = 0 and operands in range computes ExpandXMD: after the write and
`turnsToCommit` engine turns (log 6, log 10), OUT_BUF[0..L-1] is ExpandXMD(dst, msg, L), RESULT_LEN = L, DONE = 1, BUSY = 0,
ERR = 0, and every other byte, operand register, IRQ_EN and BUSYWR is unchanged. -/
def Obligations.ExpandComputesExpandXMD : Prop :=
  ∀ s : State, s.rstN = true → s.status.busy = false → s.input = [wr32 0x0004 0x00000001] →
    legalMsgBufSize s.msgbufSize.toNat →
    s.dstLen.toNat ≤ 32 → s.msgLen.toNat ≤ s.msgbufSize.toNat → s.outLen.toNat ≤ 8160 →
    ∃ t : State,
      Host.Core.run Sys2Proof.core (1 + turnsToCommit .expand s.outLen.toNat s.count.toNat) s = .next t ∧
      t.memRead 0x2000 s.outLen.toNat =
        expandXMD (s.memRead 0x0100 s.dstLen.toNat) (s.memRead 0x4000 s.msgLen.toNat) s.outLen.toNat ∧
      t.resultLen = s.outLen ∧ t.seq = .idle ∧ t.status = ⟨false, true, false, s.status.busywr, 0⟩ ∧
      (∀ a, ¬(0x2000 ≤ a ∧ a < 0x2000 + s.outLen.toNat) → t.byteAt a = s.byteAt a) ∧
      t.irqEn = s.irqEn ∧ t.dstLen = s.dstLen ∧ t.msgLen = s.msgLen ∧ t.outLen = s.outLen ∧ t.count = s.count ∧
      t.msgbufSize = s.msgbufSize

/-- R233, R231, R239: HASH_TO_FIELD written with BUSY = 0 and operands in range computes HashToField: after the write and
`turnsToCommit` engine turns (log 6, log 10), OUT_BUF[0..32*count-1] holds the elements, 32 big-endian bytes each,
RESULT_LEN = 32*count, DONE = 1, BUSY = 0, ERR = 0, and every other byte, operand register, IRQ_EN and BUSYWR is unchanged. -/
def Obligations.HashToFieldComputesTheElements : Prop :=
  ∀ s : State, s.rstN = true → s.status.busy = false → s.input = [wr32 0x0004 0x00000002] →
    legalMsgBufSize s.msgbufSize.toNat →
    s.dstLen.toNat ≤ 32 → s.msgLen.toNat ≤ s.msgbufSize.toNat → s.count.toNat ≤ 170 →
    ∃ t : State,
      Host.Core.run Sys2Proof.core (1 + turnsToCommit .hashToField s.outLen.toNat s.count.toNat) s = .next t ∧
      t.memRead 0x2000 (32 * s.count.toNat) =
        encodeElements (hashToField (s.memRead 0x0100 s.dstLen.toNat) (s.memRead 0x4000 s.msgLen.toNat)
          s.count.toNat) ∧
      t.resultLen.toNat = 32 * s.count.toNat ∧ t.seq = .idle ∧ t.status = ⟨false, true, false, s.status.busywr, 0⟩ ∧
      (∀ a, ¬(0x2000 ≤ a ∧ a < 0x2000 + 32 * s.count.toNat) → t.byteAt a = s.byteAt a) ∧
      t.irqEn = s.irqEn ∧ t.dstLen = s.dstLen ∧ t.msgLen = s.msgLen ∧ t.outLen = s.outLen ∧ t.count = s.count ∧
      t.msgbufSize = s.msgbufSize

/-- R35, R36, R45, R46, R53, R280, U6: every step keeps a sound state sound, whatever the host sends and whenever. -/
def Obligations.EveryStepKeepsTheInvariant : Prop :=
  ∀ s t : State, Inv s → step s = .next t → Inv t

/-- R190, R237, R53: in a sound state every step keeps what the datapath holds equal to the reference functions of the tag
and the message in the buffers, under any interleaving of host, engine and reset. -/
def Obligations.EveryStepKeepsTheDatapath : Prop :=
  ∀ s t : State, Inv s → DatapathInv s → step s = .next t → DatapathInv t

/-- R50, R9: the state that reset leaves is sound, for every legal MSG_BUF_SIZE, every draw of the buffers, either level of
`rst_n` and whatever events are to come; State.reset, whose size 16384 is the model's choice (log 3), is one of them. -/
def Obligations.ResetIsSound : Prop :=
  (∀ (size : Word) (epoch : Nat) (level : Bool) (es : List Event), legalMsgBufSize size.toNat →
    Inv (State.resetValue size epoch level es) ∧ DatapathInv (State.resetValue size epoch level es)) ∧
  (∃ (size : Word) (epoch : Nat) (es : List Event), legalMsgBufSize size.toNat ∧
    State.reset = State.resetValue size epoch true es)

/-- R86, R191, R238, R52: whenever a step sets DONE, under any interleaving, OUT_BUF holds the reference result of the
command for the operand registers, tag and message as they stand, RESULT_LEN is its length, and every byte beyond it is
as before. -/
def Obligations.DoneMeansTheReferenceResult : Prop :=
  ∀ s t : State, Inv s → DatapathInv s → step s = .next t → s.status.done = false → t.status.done = true →
    t.memRead 0x2000 t.resultLen.toNat =
      resultBytes s.snap.op s.tag s.message s.outLen.toNat s.count.toNat ∧
    t.resultLen.toNat = (match s.snap.op with | .expand => s.outLen.toNat | .hashToField => 32 * s.count.toNat) ∧
    ∀ a, ¬(0x2000 ≤ a ∧ a < 0x2000 + t.resultLen.toNat) → t.byteAt a = s.byteAt a

/-- R192, R259, R296: from every sound state with a command held, the engine left to itself commits within 427 turns, with
DONE = 1 and no error. The turns are the model's (log 6, log 10): the spec gives no count. -/
def Obligations.HeldCommandsCommit : Prop :=
  ∀ s : State, Inv s → s.seq ≠ .idle → s.input = [] →
    ∃ n t, n ≤ 427 ∧ Host.Core.run Sys2Proof.core n s = .next t ∧
      t.seq = .idle ∧ t.status.done = true ∧ t.status.busy = false ∧ t.status.err = false

/-- R52, R193, R239: the result depends on the command, its lengths and the buffer bytes below the lengths, and on
nothing else: two states that agree on those commit the same bytes and the same length, whatever else they hold. The
number of turns is the model's (log 6, log 10). -/
def Obligations.ResultDependsOnlyOnItsInputs : Prop :=
  ∀ (s1 s2 : State) (i : Instr),
    (∀ s, s = s1 ∨ s = s2 → s.rstN = true ∧ s.status.busy = false ∧ s.input = [.bus (cmdWrite (encode i))] ∧
      legalMsgBufSize s.msgbufSize.toNat ∧ checkOperands i s = none) →
    s1.dstLen = s2.dstLen → s1.msgLen = s2.msgLen →
    (i = .expand → s1.outLen = s2.outLen) → (i = .hashToField → s1.count = s2.count) →
    (∀ k < s1.dstLen.toNat, s1.byteAt (0x0100 + k) = s2.byteAt (0x0100 + k)) →
    (∀ k < s1.msgLen.toNat, s1.byteAt (0x4000 + k) = s2.byteAt (0x4000 + k)) →
    ∃ t1 t2 : State,
      Host.Core.run Sys2Proof.core (1 + turnsToCommit i s1.outLen.toNat s1.count.toNat) s1 = .next t1 ∧
      Host.Core.run Sys2Proof.core (1 + turnsToCommit i s2.outLen.toNat s2.count.toNat) s2 = .next t2 ∧
      t1.resultLen = t2.resultLen ∧
      t1.memRead 0x2000 t1.resultLen.toNat = t2.memRead 0x2000 t2.resultLen.toNat

/-- R265: a W1C write of DONE and a commit in the same cycle act as one of the two orders: commit, then clear, ends
with DONE = 0; clear, then commit, ends with DONE = 1; in both the command is over. The two orders are the two orders
of the event list (log 16). -/
def Obligations.ClearAndCommitTakeEitherOrder : Prop :=
  ∀ (s : State) (v : Word), Inv s → s.seq = .commit → v.getLsbD 1 = true →
    (∃ t : State,
      Host.Core.run Sys2Proof.core 2 { s with input := [.engine, wr32 0x0008 v] } = .next t ∧
        t.status.done = false ∧ t.status.busy = false ∧ t.seq = .idle) ∧
    (∃ t : State,
      Host.Core.run Sys2Proof.core 2 { s with input := [wr32 0x0008 v, .engine] } = .next t ∧
        t.status.done = true ∧ t.status.busy = false ∧ t.seq = .idle)

/-! ### The functions of the sub-blocks -/

/-- R214, R215: the Barrett form of REDUCE, with at most two corrections, is X mod p for every 384-bit X. -/
def Obligations.BarrettFormIsExact : Prop :=
  ∀ x : Nat, x < 2 ^ 384 → barrettReduce x = reduceNat x

/-- R213: what leaves the reduction unit is X mod p, below p, below 2^254, with bits [255:254] zero. -/
def Obligations.ReducedElementsStayBelowTheModulus : Prop :=
  ∀ x : BitVec 384, ∃ e : Wide, reduceUnit (some x) = some e ∧ e.toNat = x.toNat % fieldOrder ∧
    e.toNat < fieldOrder ∧ fieldOrder < 2 ^ 254 ∧ e.getLsbD 254 = false ∧ e.getLsbD 255 = false

/-- R216: the quotient of a 384-bit X by p fits 131 bits. -/
def Obligations.QuotientFits131Bits : Prop :=
  ∀ x : Nat, x < 2 ^ 384 →
    x / fieldOrder ≤ 1800144782160100251025577826785925726522 ∧
    1800144782160100251025577826785925726522 < 2 ^ 131

/-- R163: XOR32 of the bytes of two 256-bit words is the bytes of their bitwise XOR; it is commutative, x with itself
gives 32 zero bytes, and x with zeros gives x. -/
def Obligations.XorLanesAreTheWideXor : Prop :=
  ∀ x y : Wide,
    xor32 (wideBytes x) (wideBytes y) = wideBytes (x ^^^ y) ∧
    xor32 (wideBytes x) (wideBytes y) = xor32 (wideBytes y) (wideBytes x) ∧
    xor32 (wideBytes x) (wideBytes x) = zeros 32 ∧ xor32 (wideBytes x) (zeros 32) = wideBytes x

/-- R170: MIX_FIRST is the chained form with the second XOR operand forced to zero and counter 1. For a tag above 32 bytes,
which R160 leaves out, this is the model's total function and its I2OSP, a choice (log 26). -/
def Obligations.MixFirstIsTheChainFormWithZero : Prop :=
  ∀ b0 dst : List Byte, b0.length = 32 → mixFirst b0 dst = mixChain b0 (zeros 32) dst 1

/-- R167 to R169, R171, R173: with `out_ready` held at 1, and watched after `go` for as many cycles as its own list of
bytes is long, the clocked mixer emits m + d + 68, d + 34 and d + 34 bytes in its three modes. They are
those of MIX_MSGPRIME, MIX_FIRST and MIX_CHAIN in order, read through its buffer port; `out_last` stands with the last byte
alone, and `out_empty` under no inputs at all. Two parts are the model's choice (log 8) and no rule's: that the unit holds
the bytes it has still to emit (MixerRegs, mixerSources), and all that is said of inputs outside the ranges of R173, which
are `dst_len` from 33 to 63, `j` 0 or 1 in mode 2, `out_len` above 8160, and `msg_len` above 0xC000 (only the length is said
of this one). -/
def Obligations.MixerEmitsExactLengths : Prop :=
  ∀ (c : MixerControl) (s : State),
    let tag := s.memRead 0x0100 c.dstLen.toNat
    (c.mode = 0 → (mixerStream c s).length = c.msgLen.toNat + c.dstLen.toNat + 68 ∧
      (c.msgLen.toNat ≤ 0xC000 → (mixerStream c s).map StreamBeat.byte =
        mixMsgPrime tag (s.memRead 0x4000 c.msgLen.toNat) c.outLen.toNat)) ∧
    (c.mode = 1 → (mixerStream c s).length = c.dstLen.toNat + 34 ∧
      (mixerStream c s).map StreamBeat.byte = mixFirst (wideBytes c.b0) tag) ∧
    (c.mode = 2 → (mixerStream c s).length = c.dstLen.toNat + 34 ∧
      (mixerStream c s).map StreamBeat.byte = mixChain (wideBytes c.b0) (wideBytes c.bprev) tag c.j.toNat) ∧
    (c.mode ≠ 3 → (mixerStream c s).map StreamBeat.last =
      List.replicate ((mixerStream c s).length - 1) false ++ [true]) ∧
    ∀ (p : MixerIn) (g : MixerRegs), (mixerOut p g).outEmpty = false

/-- R189, R181: ExpandXMD gives exactly L bytes, and byte k is byte k mod 32 of b_{(k div 32) + 1}. For L above 8160 or a
tag above 32 bytes, which R181 leaves out, this is the model's total function and its I2OSP, a choice (log 26). -/
def Obligations.ExpandedBytesComeFromTheChain : Prop :=
  ∀ (dst msg : List Byte) (len : Nat),
    (expandXMD dst msg len).length = len ∧
    ∀ k < len, (expandXMD dst msg len)[k]? =
      (chainDigest (digestZero dst msg len) dst (k / 32 + 1))[k % 32]?

/-- R204: each 48-byte chunk spans exactly two digests: for even i a whole digest and the first 16 bytes of the next, for
odd i the last 16 bytes of a digest and the whole next one, from digest b_{(48i div 32) + 1} on. Beyond count 170 or a tag
of 32 bytes, this is the model's total function and its I2OSP, a choice (log 26). -/
def Obligations.ChunksSpanTwoDigests : Prop :=
  ∀ (dst msg : List Byte) (count i : Nat), i < count →
    let b := chainDigest (digestZero dst msg (48 * count)) dst
    let q := 48 * i / 32 + 1
    chunk (expandXMD dst msg (48 * count)) i =
      if i % 2 = 0 then b q ++ (b (q + 1)).take 16 else (b q).drop 16 ++ b (q + 1)

/-- R239, R236: HashToField gives exactly `count` elements, each below p, and the i-th 32 bytes of their encoding are the
i-th element, big-endian. Beyond count 170 or a tag of 32 bytes, this is the model's total function and its I2OSP, a choice
(log 26). -/
def Obligations.ElementsAreInRangeAndInOrder : Prop :=
  ∀ (dst msg : List Byte) (count : Nat),
    (hashToField dst msg count).length = count ∧
    (∀ e ∈ hashToField dst msg count, e < fieldOrder) ∧
    (encodeElements (hashToField dst msg count)).length = 32 * count ∧
    ∀ i < count,
      os2ip (slice (encodeElements (hashToField dst msg count)) (32 * i) (32 * i + 32)) =
        os2ip (chunk (expandXMD dst msg (48 * count)) i) % fieldOrder
end

