-- ==== Sys2Proof/Laws/Decode.lean ====
section
/-! SUPPORT. The command word in numbers (30_encoding.md R100, R101). -/

namespace Sys2Proof

/-- RSV is the word divided by 256 (R100). -/
theorem rsvField_toNat (w : Word) : (rsvField w).toNat = w.toNat / 256 := by
  have := w.isLt
  simp only [rsvField, BitVec.extractLsb'_toNat, Nat.shiftRight_eq_div_pow]; omega

/-- OP is the word modulo 256 (R100). -/
theorem opField_toNat (w : Word) : (opField w).toNat = w.toNat % 256 := by
  simp only [opField, BitVec.extractLsb'_toNat, Nat.shiftRight_eq_div_pow]; omega

/-- The decoder on the number of the word (R101). -/
theorem decodeWord_toNat (w : Word) :
    decodeWord w =
      if w.toNat / 256 ≠ 0 then .error .reservedBits
      else if w.toNat % 256 = 1 then .ok .expand
      else if w.toNat % 256 = 2 then .ok .hashToField
      else .error .illegalOpcode := by
  simp only [decodeWord, ← BitVec.toNat_inj, rsvField_toNat, opField_toNat, ne_eq]
  rfl

/-- The lanes of R71 as a number. -/
theorem laneWord_toNat (b0 b1 b2 b3 : Byte) :
    (laneWord b0 b1 b2 b3).toNat = b0.toNat + 256 * b1.toNat + 65536 * b2.toNat + 16777216 * b3.toNat := by
  have h0 := b0.isLt
  have h1 := b1.isLt
  have h2 := b2.isLt
  have join : ∀ (x : Nat) (b : Byte), x <<< 8 ||| b.toNat = x * 256 + b.toNat := by
    intro x b
    rw [Nat.shiftLeft_eq, Nat.mul_comm, ← Nat.two_pow_add_eq_or_of_lt b.isLt]
  simp only [laneWord, BitVec.toNat_append, join]
  omega

/-- Byte lane k of the word that four bytes form (R71). -/
theorem laneWord_lane (b0 b1 b2 b3 : Byte) {k : Nat} (hk : k < 4) :
    (laneWord b0 b1 b2 b3).extractLsb' (8 * k) 8 = [b0, b1, b2, b3].getD k 0 := by
  have h0 := b0.isLt
  have h1 := b1.isLt
  have h2 := b2.isLt
  have h3 := b3.isLt
  apply BitVec.eq_of_toNat_eq
  rw [BitVec.extractLsb'_toNat, laneWord_toNat, Nat.shiftRight_eq_div_pow]
  interval_cases k <;> simp <;> omega

/-- Four bytes put on the lanes and taken off again (R71). -/
theorem laneBytes_laneWord (b0 b1 b2 b3 : Byte) : laneBytes (laneWord b0 b1 b2 b3) = [b0, b1, b2, b3] := by
  have h := fun k hk => laneWord_lane b0 b1 b2 b3 (k := k) hk
  exact congr (congrArg List.cons (h 0 (by decide))) (congr (congrArg List.cons (h 1 (by decide)))
    (congr (congrArg List.cons (h 2 (by decide))) (congrArg (fun b => [b]) (h 3 (by decide)))))

end Sys2Proof
end

