-- ==== Sys2Proof/Laws/Memory.lean ====
section
/-! SUPPORT. The laws of byte stores: a read after a write gives what was written, every other place is left alone, and
every write keeps the canonical form (log 22). -/

namespace Sys2Proof.Machine

/-- Every listed address of a store satisfies `p`. -/
theorem Memory.mem_store {m : Memory} {x : Nat} {v : Byte} {c : Host.Cell} (h : c ∈ Memory.store m x v) :
    c = (x, v) ∨ c ∈ m := by
  induction m with
  | nil => simpa [Memory.store] using h
  | cons d m ih =>
    obtain ⟨a, b⟩ := d
    simp only [Memory.store] at h
    split at h
    · simpa using h
    · split at h
      · rcases List.mem_cons.mp h with h | h
        · exact .inl h
        · exact .inr (List.mem_cons_of_mem _ h)
      · rcases List.mem_cons.mp h with h | h
        · exact .inr (h ▸ List.mem_cons_self)
        · rcases ih h with h | h
          · exact .inl h
          · exact .inr (List.mem_cons_of_mem _ h)

/-- The byte listed after one write. -/
theorem Memory.lookup_store (m : Memory) (x : Nat) (v : Byte) (a : Nat) :
    Memory.lookup (Memory.store m x v) a = if a = x then some v else Memory.lookup m a := by
  induction m with
  | nil => simp [Memory.store, Memory.lookup]
  | cons c m ih =>
    obtain ⟨y, b⟩ := c
    simp only [Memory.store]
    split
    · simp [Memory.lookup]
    · split
      · subst_vars
        by_cases h : a = y <;> simp [Memory.lookup, h]
      · rename_i h1 h2
        by_cases h : a = y
        · subst h; simp [Memory.lookup, Ne.symm h2]
        · simp [Memory.lookup, h, ih]

/-- The byte listed after a string of writes. -/
theorem Memory.lookup_storeBytes (m : Memory) (x : Nat) (bs : List Byte) (a : Nat) :
    Memory.lookup (Memory.storeBytes m x bs) a =
      if x ≤ a ∧ a < x + bs.length then bs[a - x]? else Memory.lookup m a := by
  induction bs generalizing m x with
  | nil =>
    have h : ¬(x ≤ a ∧ a < x + 0) := by omega
    simp only [Memory.storeBytes, List.length_nil, h, if_false]
  | cons b bs ih =>
    rw [Memory.storeBytes, ih, Memory.lookup_store]
    by_cases h1 : a = x
    · subst h1
      simp
    · by_cases h2 : x + 1 ≤ a ∧ a < x + 1 + bs.length
      · have h3 : x ≤ a ∧ a < x + (b :: bs).length := by simp; omega
        have h4 : a - x = (a - (x + 1)) + 1 := by omega
        simp only [h2, h3, h4, and_self, if_true, List.getElem?_cons_succ]
      · have h3 : ¬(x ≤ a ∧ a < x + (b :: bs).length) := by simp; omega
        simp only [h2, h3, h1, if_false]

/-- Every listed cell after a string of writes was listed before or lies among the places written. -/
theorem Memory.mem_storeBytes {m : Memory} {x : Nat} {bs : List Byte} {c : Host.Cell}
    (h : c ∈ Memory.storeBytes m x bs) : (x ≤ c.1 ∧ c.1 < x + bs.length) ∨ c ∈ m := by
  induction bs generalizing m x with
  | nil => exact .inr h
  | cons b bs ih =>
    rcases ih h with h | h
    · left; simp; omega
    · rcases Memory.mem_store h with h | h
      · left; subst h; simp
      · exact .inr h

/-- Every address of a canonical store is above the one before it. -/
theorem Memory.wf_cons {a : Nat} {b : Byte} {m : Memory} :
    Memory.wf ((a, b) :: m) = true ↔ (∀ c ∈ m, a < c.1) ∧ Memory.wf m = true := by
  induction m generalizing a b with
  | nil => simp [Memory.wf]
  | cons d m ih =>
    obtain ⟨c, d⟩ := d
    simp only [Memory.wf, Bool.and_eq_true, decide_eq_true_eq, ih, List.mem_cons]
    constructor
    · rintro ⟨h1, h2, h3⟩
      exact ⟨fun e he => he.elim (fun h => h ▸ h1) (fun h => h1.trans (h2 e h)), h2, h3⟩
    · rintro ⟨h1, h2, h3⟩
      exact ⟨h1 _ (.inl rfl), h2, h3⟩

/-- A write keeps the canonical form. -/
theorem Memory.wf_store {m : Memory} (h : Memory.wf m = true) (x : Nat) (v : Byte) :
    Memory.wf (Memory.store m x v) = true := by
  induction m with
  | nil => rfl
  | cons c m ih =>
    obtain ⟨a, b⟩ := c
    have hc := Memory.wf_cons.mp h
    simp only [Memory.store]
    split
    · rename_i hx
      refine Memory.wf_cons.mpr ⟨fun e he => ?_, h⟩
      rcases List.mem_cons.mp he with he | he
      · exact he ▸ hx
      · exact hx.trans (hc.1 e he)
    · split
      · subst_vars; exact Memory.wf_cons.mpr hc
      · refine Memory.wf_cons.mpr ⟨fun e he => ?_, ih hc.2⟩
        rcases Memory.mem_store he with he | he
        · subst he; simp only; omega
        · exact hc.1 e he

/-- A string of writes keeps the canonical form. -/
theorem Memory.wf_storeBytes {m : Memory} (h : Memory.wf m = true) (x : Nat) (bs : List Byte) :
    Memory.wf (Memory.storeBytes m x bs) = true := by
  induction bs generalizing m x with
  | nil => exact h
  | cons b bs ih => exact ih (Memory.wf_store h x b) (x + 1)

/-- The memory at reset has the canonical form: nothing is listed. -/
theorem Memory.wf_reset : Memory.wf State.reset.mem = true := rfl

/-- A byte read after a string of writes: the byte written there, else as before. -/
theorem readCell_storeBytes (sp : Space) (e : Nat) (m : Memory) (x : Nat) (bs : List Byte) (a : Nat) :
    readCell sp e (Memory.storeBytes m x bs) a =
      if x ≤ a ∧ a < x + bs.length then bs.getD (a - x) 0 else readCell sp e m a := by
  unfold readCell
  rw [Memory.lookup_storeBytes]
  split
  · rename_i h
    have hlt : a - x < bs.length := by omega
    simp [List.getElem?_eq_getElem hlt]
  · rfl

/-- The byte at an offset after `memWrite`. -/
theorem byteAt_memWrite (s : State) (off : Nat) (bs : List Byte) (a : Nat) :
    (s.memWrite off bs).byteAt a = if off ≤ a ∧ a < off + bs.length then bs.getD (a - off) 0 else s.byteAt a :=
  readCell_storeBytes _ _ _ _ _ _

@[simp] theorem memRead_length (s : State) (off n : Nat) : (s.memRead off n).length = n := by
  simp [State.memRead]

@[simp] theorem expbufRead_length (s : State) (k n : Nat) : (s.expbufRead k n).length = n := by
  simp [State.expbufRead]

@[simp] theorem resbufRead_length (s : State) (k n : Nat) : (s.resbufRead k n).length = n := by
  simp [State.resbufRead]

/-- `MemRead` depends on the bytes it reads and on nothing else. -/
theorem memRead_congr {s t : State} {off n : Nat} (h : ∀ k < n, s.byteAt (off + k) = t.byteAt (off + k)) :
    s.memRead off n = t.memRead off n := by
  apply List.map_congr_left
  intro k hk
  exact h k (List.mem_range.mp hk)

/-- The run of bytes read back right after writing it. -/
theorem map_readCell_storeBytes (sp : Space) (e : Nat) (m : Memory) (x : Nat) (bs : List Byte) :
    ((List.range bs.length).map fun k => readCell sp e (Memory.storeBytes m x bs) (x + k)) = bs := by
  apply List.ext_getElem
  · simp
  · intro k h1 h2
    simp only [List.length_map, List.length_range] at h1
    simp [readCell_storeBytes, h1]

end Sys2Proof.Machine
end

