-- ==== Sys2Proof/Laws/Bytes.lean ====
section
/-! SUPPORT. Lengths and round trips of the byte-string conversions (00_scope.md R11, R14, R15). -/

namespace Sys2Proof.Machine

@[simp] theorem zeros_length (n : Nat) : (zeros n).length = n := List.length_replicate

@[simp] theorem i2osp_length (x n : Nat) : (i2osp x n).length = n := by simp [i2osp]

theorem slice_length {s : List Byte} {a b : Nat} (h : b ≤ s.length) : (slice s a b).length = b - a := by
  simp only [slice, List.length_take, List.length_drop]; omega

@[simp] theorem xorBytes_length (a b : List Byte) : (xorBytes a b).length = min a.length b.length := by
  simp [xorBytes]

@[simp] theorem wideBytes_length (x : Wide) : (wideBytes x).length = 32 := i2osp_length _ _

@[simp] theorem i2osp_zero (x : Nat) : i2osp x 0 = [] := rfl

/-- The digits of R14 in recursive form: the top byte, then the rest. -/
theorem i2osp_succ (x n : Nat) :
    i2osp x (n + 1) = BitVec.ofNat 8 (x / 256 ^ n % 256) :: i2osp x n := by
  simp only [i2osp, List.range_succ_eq_map, List.map_cons, List.map_map]
  congr 1
  apply List.map_congr_left
  intro k _
  simp only [Function.comp_apply, Nat.succ_eq_add_one]
  have : n + 1 - 1 - (k + 1) = n - 1 - k := by omega
  rw [this]

@[simp] theorem os2ip_append (s t : List Byte) : os2ip (s ++ t) = os2ip s * 256 ^ t.length + os2ip t := by
  induction s with
  | nil => simp [os2ip]
  | cons b s ih => simp only [List.cons_append, os2ip, ih, List.length_append, pow_add]; ring

/-- OS2IP of n bytes is below 256^n (R15). -/
theorem os2ip_lt (s : List Byte) : os2ip s < 256 ^ s.length := by
  induction s with
  | nil => simp [os2ip]
  | cons b s ih =>
    have hb := b.isLt
    simp only [os2ip, List.length_cons, pow_succ]
    calc b.toNat * 256 ^ s.length + os2ip s < b.toNat * 256 ^ s.length + 256 ^ s.length := by omega
      _ = (b.toNat + 1) * 256 ^ s.length := by ring
      _ ≤ 256 * 256 ^ s.length := Nat.mul_le_mul_right _ (by omega)
      _ = 256 ^ s.length * 256 := by ring

/-- I2OSP keeps the value modulo 256^n. -/
theorem os2ip_i2osp_mod (x n : Nat) : os2ip (i2osp x n) = x % 256 ^ n := by
  induction n with
  | zero => simp [os2ip, Nat.mod_one]
  | succ n ih =>
    rw [i2osp_succ, os2ip, ih, i2osp_length, pow_succ, Nat.mod_mul]
    simp only [BitVec.toNat_ofNat]
    rw [Nat.mod_mod_of_dvd _ (by decide)]
    ring

/-- I2OSP reads only the value modulo 256^n. -/
theorem i2osp_mod (x n : Nat) : i2osp (x % 256 ^ n) n = i2osp x n := by
  apply List.map_congr_left
  intro k hk
  have hk := List.mem_range.mp hk
  congr 1
  have e : 256 ^ n = 256 ^ (n - 1 - k) * 256 * 256 ^ k := by
    rw [← pow_succ, ← pow_add]; congr 1; omega
  rw [e, mul_assoc, Nat.mod_mul_right_div_self, Nat.mod_mod_of_dvd _ (Dvd.intro _ rfl)]

/-- I2OSP inverts OS2IP at the string's own length. -/
theorem i2osp_os2ip (s : List Byte) : i2osp (os2ip s) s.length = s := by
  induction s with
  | nil => rfl
  | cons b s ih =>
    have hlt := os2ip_lt s
    rw [List.length_cons, i2osp_succ]
    congr 1
    · apply BitVec.eq_of_toNat_eq
      have h1 : os2ip (b :: s) / 256 ^ s.length = b.toNat := by
        rw [os2ip, Nat.mul_comm, Nat.mul_add_div (Nat.pow_pos (by decide)), Nat.div_eq_of_lt hlt, Nat.add_zero]
      have hb := b.isLt
      simp only [h1, BitVec.toNat_ofNat]; omega
    · rw [← i2osp_mod, os2ip, Nat.mul_comm, Nat.mul_add_mod, Nat.mod_eq_of_lt hlt, ih]

/-- A 256-bit register holds 32 bytes and gives them back (R133). -/
theorem wideBytes_bytesWide {s : List Byte} (h : s.length = 32) : wideBytes (bytesWide s) = s := by
  have hlt := os2ip_lt s
  rw [h] at hlt
  unfold wideBytes bytesWide
  rw [BitVec.toNat_ofNat, Nat.mod_eq_of_lt (by simpa using hlt), ← h, i2osp_os2ip]

end Sys2Proof.Machine
end

