-- ==== Sys2Proof/Laws/Slice.lean ====
section
/-! SUPPORT. What the clocked slice unit reads (43_byte_slice_and_interpret.md R201, R202, R205), and what MAP(i) stores. -/

namespace Sys2Proof.Machine

/-- The bytes that the slice unit reads for idx, at its 13-bit addresses. -/
def sliceBytes (a : BitVec 13) (s : State) (n : Nat) : List Byte :=
  (List.range n).map fun k => s.expbufAt (a + BitVec.ofNat 13 k).toNat

theorem sliceBytes_succ (a : BitVec 13) (s : State) (n : Nat) :
    sliceBytes a s (n + 1) = s.expbufAt a.toNat :: sliceBytes (a + 1) s n := by
  simp only [sliceBytes, List.range_succ_eq_map, List.map_cons, List.map_map]
  congr 1
  · simp
  · refine List.map_congr_left fun k _ => ?_
    simp only [Function.comp_apply]
    congr 2
    bv_omega

@[simp] theorem sliceBytes_length (a : BitVec 13) (s : State) (n : Nat) : (sliceBytes a s n).length = n := by
  simp [sliceBytes]

/-- Shifting a byte in multiplies by 256 and adds it. -/
theorem shiftIn_eq (x : BitVec 384) (b : Byte) :
    (x ++ b).setWidth 384 = BitVec.ofNat 384 (x.toNat * 256 + b.toNat) := by
  apply BitVec.eq_of_toNat_eq
  rw [BitVec.toNat_setWidth, BitVec.toNat_append, BitVec.toNat_ofNat, ← Nat.shiftLeft_add_eq_or_of_lt b.isLt,
    Nat.shiftLeft_eq]

/-- `go` starts a chunk, whatever the registers held. -/
theorem sliceClock_go (idx : BitVec 8) (s : State) (g : SliceRegs) :
    sliceClock (sliceInputs idx true s g) g = ⟨BitVec.ofNat 13 (elemSize * idx.toNat), elemSize, 0, false⟩ := rfl

/-- A value cut to w bits first gives the same sum in w bits. -/
theorem ofNat_mul_add (w m c d : Nat) :
    BitVec.ofNat w ((BitVec.ofNat w m).toNat * c + d) = BitVec.ofNat w (m * c + d) := by
  apply BitVec.eq_of_toNat_eq
  simp [Nat.add_mod, Nat.mul_mod]

/-- While bytes are left, one cycle takes the next one in. -/
theorem sliceClock_read (idx : BitVec 8) (s : State) (a : BitVec 13) (n : Nat) (x : BitVec 384) :
    sliceClock (sliceInputs idx false s ⟨a, n + 1, x, false⟩) ⟨a, n + 1, x, false⟩ =
      ⟨a + 1, n, BitVec.ofNat 384 (x.toNat * 256 + (s.expbufAt a.toNat).toNat), decide (n = 0)⟩ := by
  simp [sliceClock, sliceInputs, sliceOut, expbufPort, shiftIn_eq]

/-- The cycles after `go` end with `x_valid`, the bytes read appended to `x`, big-endian. -/
theorem sliceRun_x (idx : BitVec 8) (s : State) (n : Nat) (a : BitVec 13) (x : BitVec 384) :
    (sliceOut (sliceRun idx s (n + 1) ⟨a, n + 1, x, false⟩)).x =
      some (BitVec.ofNat 384 (x.toNat * 256 ^ (n + 1) + os2ip (sliceBytes a s (n + 1)))) := by
  induction n generalizing a x with
  | zero =>
    rw [sliceRun, if_neg (by simp), sliceClock_read, sliceRun, sliceBytes_succ]
    simp [sliceOut, os2ip, sliceBytes]
  | succ n ih =>
    rw [sliceRun, if_neg (by simp), sliceClock_read, show decide (n + 1 = 0) = false from rfl, ih,
      sliceBytes_succ a s (n + 1)]
    rw [ofNat_mul_add, os2ip, sliceBytes_length]
    congr 2
    rw [Nat.pow_succ 256 (n + 1)]
    ring

/-- What the slice unit answers for every idx: `x_valid` comes, and `x` is OS2IP of the bytes at its addresses. -/
theorem sliceUnit_eq (idx : BitVec 8) (s : State) :
    sliceUnit idx s = some (BitVec.ofNat 384
      (os2ip (sliceBytes (BitVec.ofNat 13 (elemSize * idx.toNat)) s elemSize))) := by
  have h := sliceRun_x idx s 47 (BitVec.ofNat 13 (elemSize * idx.toNat)) 0
  rw [show (0 : BitVec 384).toNat = 0 from BitVec.toNat_zero, Nat.zero_mul, Nat.zero_add,
    show 47 + 1 = elemSize from rfl] at h
  delta sliceUnit
  exact h

/-- For an element index of R205, 0 to 169, the bytes read are EXPBUF[48i .. 48i+47]. -/
theorem sliceBytes_eq (s : State) {i : Nat} (hi : i ≤ 169) :
    sliceBytes (BitVec.ofNat 13 (elemSize * i)) s elemSize = s.expbufRead (elemSize * i) elemSize := by
  refine List.map_congr_left fun k hk => ?_
  have := List.mem_range.mp hk
  unfold elemSize at *
  congr 1
  rw [BitVec.toNat_add, BitVec.toNat_ofNat, BitVec.toNat_ofNat]
  omega

/-- The word that MAP(i) stores: X_i mod p of the bytes that the slice unit reads (R212, R213). -/
def mapWord (i : Nat) (s : State) : Wide :=
  BitVec.ofNat 256 (reduceNat (BitVec.ofNat 384
    (os2ip (sliceBytes (BitVec.ofNat 13 (elemSize * (BitVec.ofNat 8 i).toNat)) s elemSize))).toNat)

/-- MAP(i) stores X mod p for the X that the slice unit answers (R212, R237). -/
theorem turnMap_of_slice {i : Nat} {s : State} {x : BitVec 384} (h : sliceUnit (BitVec.ofNat 8 i) s = some x) :
    turnMap i s = storeElement i (BitVec.ofNat 256 (reduceNat x.toNat)) s := by
  rw [turnMap, h]; rfl

/-- MAP(i) always completes (R237). -/
theorem turnMap_store (i : Nat) (s : State) : turnMap i s = storeElement i (mapWord i s) s :=
  turnMap_of_slice (sliceUnit_eq _ s)

end Sys2Proof.Machine
end

