-- ==== Sys2Proof/Laws/State.lean ====
section
/-! SUPPORT. What each named update leaves in each field of State: one lemma per field per update. A field that a lemma
of Laws/Engine.lean describes has none here. -/

namespace Sys2Proof.Machine

/-! ### dropWrite -/

@[simp] theorem dropWrite_status (s : State) : (dropWrite s).status = { s.status with busywr := true } := rfl
@[simp] theorem dropWrite_irqEn (s : State) : (dropWrite s).irqEn = s.irqEn := rfl
@[simp] theorem dropWrite_dstLen (s : State) : (dropWrite s).dstLen = s.dstLen := rfl
@[simp] theorem dropWrite_msgLen (s : State) : (dropWrite s).msgLen = s.msgLen := rfl
@[simp] theorem dropWrite_outLen (s : State) : (dropWrite s).outLen = s.outLen := rfl
@[simp] theorem dropWrite_count (s : State) : (dropWrite s).count = s.count := rfl
@[simp] theorem dropWrite_resultLen (s : State) : (dropWrite s).resultLen = s.resultLen := rfl
@[simp] theorem dropWrite_msgbufSize (s : State) : (dropWrite s).msgbufSize = s.msgbufSize := rfl
@[simp] theorem dropWrite_mem (s : State) : (dropWrite s).mem = s.mem := rfl
@[simp] theorem dropWrite_seq (s : State) : (dropWrite s).seq = s.seq := rfl
@[simp] theorem dropWrite_snap (s : State) : (dropWrite s).snap = s.snap := rfl
@[simp] theorem dropWrite_b0reg (s : State) : (dropWrite s).b0reg = s.b0reg := rfl
@[simp] theorem dropWrite_bireg (s : State) : (dropWrite s).bireg = s.bireg := rfl
@[simp] theorem dropWrite_jreg (s : State) : (dropWrite s).jreg = s.jreg := rfl
@[simp] theorem dropWrite_expbuf (s : State) : (dropWrite s).expbuf = s.expbuf := rfl
@[simp] theorem dropWrite_resbuf (s : State) : (dropWrite s).resbuf = s.resbuf := rfl
@[simp] theorem dropWrite_sha (s : State) : (dropWrite s).sha = s.sha := rfl
@[simp] theorem dropWrite_rstN (s : State) : (dropWrite s).rstN = s.rstN := rfl
@[simp] theorem dropWrite_response (s : State) : (dropWrite s).response = s.response := rfl
@[simp] theorem dropWrite_input (s : State) : (dropWrite s).input = s.input := rfl
@[simp] theorem dropWrite_turn (s : State) : (dropWrite s).turn = s.turn := rfl
@[simp] theorem dropWrite_epoch (s : State) : (dropWrite s).epoch = s.epoch := rfl

/-! ### clearOutcome -/

@[simp] theorem clearOutcome_status (s : State) : (clearOutcome s).status = { s.status with done := false, err := false, errcode := 0 } := rfl
@[simp] theorem clearOutcome_irqEn (s : State) : (clearOutcome s).irqEn = s.irqEn := rfl
@[simp] theorem clearOutcome_dstLen (s : State) : (clearOutcome s).dstLen = s.dstLen := rfl
@[simp] theorem clearOutcome_msgLen (s : State) : (clearOutcome s).msgLen = s.msgLen := rfl
@[simp] theorem clearOutcome_outLen (s : State) : (clearOutcome s).outLen = s.outLen := rfl
@[simp] theorem clearOutcome_count (s : State) : (clearOutcome s).count = s.count := rfl
@[simp] theorem clearOutcome_resultLen (s : State) : (clearOutcome s).resultLen = s.resultLen := rfl
@[simp] theorem clearOutcome_msgbufSize (s : State) : (clearOutcome s).msgbufSize = s.msgbufSize := rfl
@[simp] theorem clearOutcome_mem (s : State) : (clearOutcome s).mem = s.mem := rfl
@[simp] theorem clearOutcome_seq (s : State) : (clearOutcome s).seq = s.seq := rfl
@[simp] theorem clearOutcome_snap (s : State) : (clearOutcome s).snap = s.snap := rfl
@[simp] theorem clearOutcome_b0reg (s : State) : (clearOutcome s).b0reg = s.b0reg := rfl
@[simp] theorem clearOutcome_bireg (s : State) : (clearOutcome s).bireg = s.bireg := rfl
@[simp] theorem clearOutcome_jreg (s : State) : (clearOutcome s).jreg = s.jreg := rfl
@[simp] theorem clearOutcome_expbuf (s : State) : (clearOutcome s).expbuf = s.expbuf := rfl
@[simp] theorem clearOutcome_resbuf (s : State) : (clearOutcome s).resbuf = s.resbuf := rfl
@[simp] theorem clearOutcome_sha (s : State) : (clearOutcome s).sha = s.sha := rfl
@[simp] theorem clearOutcome_rstN (s : State) : (clearOutcome s).rstN = s.rstN := rfl
@[simp] theorem clearOutcome_response (s : State) : (clearOutcome s).response = s.response := rfl
@[simp] theorem clearOutcome_input (s : State) : (clearOutcome s).input = s.input := rfl
@[simp] theorem clearOutcome_turn (s : State) : (clearOutcome s).turn = s.turn := rfl
@[simp] theorem clearOutcome_epoch (s : State) : (clearOutcome s).epoch = s.epoch := rfl

/-! ### raiseError -/

@[simp] theorem raiseError_status (c : ErrCode) (s : State) : (raiseError c s).status = { s.status with err := true, errcode := c.number } := rfl
@[simp] theorem raiseError_irqEn (c : ErrCode) (s : State) : (raiseError c s).irqEn = s.irqEn := rfl
@[simp] theorem raiseError_dstLen (c : ErrCode) (s : State) : (raiseError c s).dstLen = s.dstLen := rfl
@[simp] theorem raiseError_msgLen (c : ErrCode) (s : State) : (raiseError c s).msgLen = s.msgLen := rfl
@[simp] theorem raiseError_outLen (c : ErrCode) (s : State) : (raiseError c s).outLen = s.outLen := rfl
@[simp] theorem raiseError_count (c : ErrCode) (s : State) : (raiseError c s).count = s.count := rfl
@[simp] theorem raiseError_resultLen (c : ErrCode) (s : State) : (raiseError c s).resultLen = s.resultLen := rfl
@[simp] theorem raiseError_msgbufSize (c : ErrCode) (s : State) : (raiseError c s).msgbufSize = s.msgbufSize := rfl
@[simp] theorem raiseError_mem (c : ErrCode) (s : State) : (raiseError c s).mem = s.mem := rfl
@[simp] theorem raiseError_seq (c : ErrCode) (s : State) : (raiseError c s).seq = s.seq := rfl
@[simp] theorem raiseError_snap (c : ErrCode) (s : State) : (raiseError c s).snap = s.snap := rfl
@[simp] theorem raiseError_b0reg (c : ErrCode) (s : State) : (raiseError c s).b0reg = s.b0reg := rfl
@[simp] theorem raiseError_bireg (c : ErrCode) (s : State) : (raiseError c s).bireg = s.bireg := rfl
@[simp] theorem raiseError_jreg (c : ErrCode) (s : State) : (raiseError c s).jreg = s.jreg := rfl
@[simp] theorem raiseError_expbuf (c : ErrCode) (s : State) : (raiseError c s).expbuf = s.expbuf := rfl
@[simp] theorem raiseError_resbuf (c : ErrCode) (s : State) : (raiseError c s).resbuf = s.resbuf := rfl
@[simp] theorem raiseError_sha (c : ErrCode) (s : State) : (raiseError c s).sha = s.sha := rfl
@[simp] theorem raiseError_rstN (c : ErrCode) (s : State) : (raiseError c s).rstN = s.rstN := rfl
@[simp] theorem raiseError_response (c : ErrCode) (s : State) : (raiseError c s).response = s.response := rfl
@[simp] theorem raiseError_input (c : ErrCode) (s : State) : (raiseError c s).input = s.input := rfl
@[simp] theorem raiseError_turn (c : ErrCode) (s : State) : (raiseError c s).turn = s.turn := rfl
@[simp] theorem raiseError_epoch (c : ErrCode) (s : State) : (raiseError c s).epoch = s.epoch := rfl

/-! ### writeStatus -/

@[simp] theorem writeStatus_status (v : Word) (s : State) : (writeStatus v s).status = s.status.writeOneToClear v := rfl
@[simp] theorem writeStatus_irqEn (v : Word) (s : State) : (writeStatus v s).irqEn = s.irqEn := rfl
@[simp] theorem writeStatus_dstLen (v : Word) (s : State) : (writeStatus v s).dstLen = s.dstLen := rfl
@[simp] theorem writeStatus_msgLen (v : Word) (s : State) : (writeStatus v s).msgLen = s.msgLen := rfl
@[simp] theorem writeStatus_outLen (v : Word) (s : State) : (writeStatus v s).outLen = s.outLen := rfl
@[simp] theorem writeStatus_count (v : Word) (s : State) : (writeStatus v s).count = s.count := rfl
@[simp] theorem writeStatus_resultLen (v : Word) (s : State) : (writeStatus v s).resultLen = s.resultLen := rfl
@[simp] theorem writeStatus_msgbufSize (v : Word) (s : State) : (writeStatus v s).msgbufSize = s.msgbufSize := rfl
@[simp] theorem writeStatus_mem (v : Word) (s : State) : (writeStatus v s).mem = s.mem := rfl
@[simp] theorem writeStatus_seq (v : Word) (s : State) : (writeStatus v s).seq = s.seq := rfl
@[simp] theorem writeStatus_snap (v : Word) (s : State) : (writeStatus v s).snap = s.snap := rfl
@[simp] theorem writeStatus_b0reg (v : Word) (s : State) : (writeStatus v s).b0reg = s.b0reg := rfl
@[simp] theorem writeStatus_bireg (v : Word) (s : State) : (writeStatus v s).bireg = s.bireg := rfl
@[simp] theorem writeStatus_jreg (v : Word) (s : State) : (writeStatus v s).jreg = s.jreg := rfl
@[simp] theorem writeStatus_expbuf (v : Word) (s : State) : (writeStatus v s).expbuf = s.expbuf := rfl
@[simp] theorem writeStatus_resbuf (v : Word) (s : State) : (writeStatus v s).resbuf = s.resbuf := rfl
@[simp] theorem writeStatus_sha (v : Word) (s : State) : (writeStatus v s).sha = s.sha := rfl
@[simp] theorem writeStatus_rstN (v : Word) (s : State) : (writeStatus v s).rstN = s.rstN := rfl
@[simp] theorem writeStatus_response (v : Word) (s : State) : (writeStatus v s).response = s.response := rfl
@[simp] theorem writeStatus_input (v : Word) (s : State) : (writeStatus v s).input = s.input := rfl
@[simp] theorem writeStatus_turn (v : Word) (s : State) : (writeStatus v s).turn = s.turn := rfl
@[simp] theorem writeStatus_epoch (v : Word) (s : State) : (writeStatus v s).epoch = s.epoch := rfl

/-! ### memWrite -/

@[simp] theorem memWrite_status (s : State) (a : Nat) (bs : List Byte) : (s.memWrite a bs).status = s.status := rfl
@[simp] theorem memWrite_irqEn (s : State) (a : Nat) (bs : List Byte) : (s.memWrite a bs).irqEn = s.irqEn := rfl
@[simp] theorem memWrite_dstLen (s : State) (a : Nat) (bs : List Byte) : (s.memWrite a bs).dstLen = s.dstLen := rfl
@[simp] theorem memWrite_msgLen (s : State) (a : Nat) (bs : List Byte) : (s.memWrite a bs).msgLen = s.msgLen := rfl
@[simp] theorem memWrite_outLen (s : State) (a : Nat) (bs : List Byte) : (s.memWrite a bs).outLen = s.outLen := rfl
@[simp] theorem memWrite_count (s : State) (a : Nat) (bs : List Byte) : (s.memWrite a bs).count = s.count := rfl
@[simp] theorem memWrite_resultLen (s : State) (a : Nat) (bs : List Byte) : (s.memWrite a bs).resultLen = s.resultLen := rfl
@[simp] theorem memWrite_msgbufSize (s : State) (a : Nat) (bs : List Byte) : (s.memWrite a bs).msgbufSize = s.msgbufSize := rfl
@[simp] theorem memWrite_mem (s : State) (a : Nat) (bs : List Byte) : (s.memWrite a bs).mem = Memory.storeBytes s.mem a bs := rfl
@[simp] theorem memWrite_seq (s : State) (a : Nat) (bs : List Byte) : (s.memWrite a bs).seq = s.seq := rfl
@[simp] theorem memWrite_snap (s : State) (a : Nat) (bs : List Byte) : (s.memWrite a bs).snap = s.snap := rfl
@[simp] theorem memWrite_b0reg (s : State) (a : Nat) (bs : List Byte) : (s.memWrite a bs).b0reg = s.b0reg := rfl
@[simp] theorem memWrite_bireg (s : State) (a : Nat) (bs : List Byte) : (s.memWrite a bs).bireg = s.bireg := rfl
@[simp] theorem memWrite_jreg (s : State) (a : Nat) (bs : List Byte) : (s.memWrite a bs).jreg = s.jreg := rfl
@[simp] theorem memWrite_expbuf (s : State) (a : Nat) (bs : List Byte) : (s.memWrite a bs).expbuf = s.expbuf := rfl
@[simp] theorem memWrite_resbuf (s : State) (a : Nat) (bs : List Byte) : (s.memWrite a bs).resbuf = s.resbuf := rfl
@[simp] theorem memWrite_sha (s : State) (a : Nat) (bs : List Byte) : (s.memWrite a bs).sha = s.sha := rfl
@[simp] theorem memWrite_rstN (s : State) (a : Nat) (bs : List Byte) : (s.memWrite a bs).rstN = s.rstN := rfl
@[simp] theorem memWrite_response (s : State) (a : Nat) (bs : List Byte) : (s.memWrite a bs).response = s.response := rfl
@[simp] theorem memWrite_input (s : State) (a : Nat) (bs : List Byte) : (s.memWrite a bs).input = s.input := rfl
@[simp] theorem memWrite_turn (s : State) (a : Nat) (bs : List Byte) : (s.memWrite a bs).turn = s.turn := rfl
@[simp] theorem memWrite_epoch (s : State) (a : Nat) (bs : List Byte) : (s.memWrite a bs).epoch = s.epoch := rfl

/-! ### holdCommand -/

@[simp] theorem holdCommand_status (i : Instr) (s : State) : (holdCommand i s).status = { s.status with busy := true } := rfl
@[simp] theorem holdCommand_snap (i : Instr) (s : State) : (holdCommand i s).snap = takeSnapshot i s := rfl
@[simp] theorem holdCommand_irqEn (i : Instr) (s : State) : (holdCommand i s).irqEn = s.irqEn := rfl
@[simp] theorem holdCommand_dstLen (i : Instr) (s : State) : (holdCommand i s).dstLen = s.dstLen := rfl
@[simp] theorem holdCommand_msgLen (i : Instr) (s : State) : (holdCommand i s).msgLen = s.msgLen := rfl
@[simp] theorem holdCommand_outLen (i : Instr) (s : State) : (holdCommand i s).outLen = s.outLen := rfl
@[simp] theorem holdCommand_count (i : Instr) (s : State) : (holdCommand i s).count = s.count := rfl
@[simp] theorem holdCommand_resultLen (i : Instr) (s : State) : (holdCommand i s).resultLen = s.resultLen := rfl
@[simp] theorem holdCommand_msgbufSize (i : Instr) (s : State) : (holdCommand i s).msgbufSize = s.msgbufSize := rfl
@[simp] theorem holdCommand_mem (i : Instr) (s : State) : (holdCommand i s).mem = s.mem := rfl
@[simp] theorem holdCommand_seq (i : Instr) (s : State) : (holdCommand i s).seq = s.seq := rfl
@[simp] theorem holdCommand_b0reg (i : Instr) (s : State) : (holdCommand i s).b0reg = s.b0reg := rfl
@[simp] theorem holdCommand_bireg (i : Instr) (s : State) : (holdCommand i s).bireg = s.bireg := rfl
@[simp] theorem holdCommand_jreg (i : Instr) (s : State) : (holdCommand i s).jreg = s.jreg := rfl
@[simp] theorem holdCommand_expbuf (i : Instr) (s : State) : (holdCommand i s).expbuf = s.expbuf := rfl
@[simp] theorem holdCommand_resbuf (i : Instr) (s : State) : (holdCommand i s).resbuf = s.resbuf := rfl
@[simp] theorem holdCommand_sha (i : Instr) (s : State) : (holdCommand i s).sha = s.sha := rfl
@[simp] theorem holdCommand_rstN (i : Instr) (s : State) : (holdCommand i s).rstN = s.rstN := rfl
@[simp] theorem holdCommand_response (i : Instr) (s : State) : (holdCommand i s).response = s.response := rfl
@[simp] theorem holdCommand_input (i : Instr) (s : State) : (holdCommand i s).input = s.input := rfl
@[simp] theorem holdCommand_turn (i : Instr) (s : State) : (holdCommand i s).turn = s.turn := rfl
@[simp] theorem holdCommand_epoch (i : Instr) (s : State) : (holdCommand i s).epoch = s.epoch := rfl

/-! ### startCommand -/

/-- The whole of `startCommand` (R104): `start` of the pipeline gives EXP_B0. -/
theorem startCommand_eq (i : Instr) (s : State) :
    startCommand i s =
      { s with snap := takeSnapshot i s, status := { s.status with busy := true }, seq := .expB0 } := rfl

@[simp] theorem startCommand_status (i : Instr) (s : State) : (startCommand i s).status = { s.status with busy := true } := rfl
@[simp] theorem startCommand_irqEn (i : Instr) (s : State) : (startCommand i s).irqEn = s.irqEn := rfl
@[simp] theorem startCommand_dstLen (i : Instr) (s : State) : (startCommand i s).dstLen = s.dstLen := rfl
@[simp] theorem startCommand_msgLen (i : Instr) (s : State) : (startCommand i s).msgLen = s.msgLen := rfl
@[simp] theorem startCommand_outLen (i : Instr) (s : State) : (startCommand i s).outLen = s.outLen := rfl
@[simp] theorem startCommand_count (i : Instr) (s : State) : (startCommand i s).count = s.count := rfl
@[simp] theorem startCommand_resultLen (i : Instr) (s : State) : (startCommand i s).resultLen = s.resultLen := rfl
@[simp] theorem startCommand_msgbufSize (i : Instr) (s : State) : (startCommand i s).msgbufSize = s.msgbufSize := rfl
@[simp] theorem startCommand_mem (i : Instr) (s : State) : (startCommand i s).mem = s.mem := rfl
@[simp] theorem startCommand_seq (i : Instr) (s : State) : (startCommand i s).seq = .expB0 := rfl
@[simp] theorem startCommand_snap (i : Instr) (s : State) : (startCommand i s).snap = takeSnapshot i s := rfl
@[simp] theorem startCommand_b0reg (i : Instr) (s : State) : (startCommand i s).b0reg = s.b0reg := rfl
@[simp] theorem startCommand_bireg (i : Instr) (s : State) : (startCommand i s).bireg = s.bireg := rfl
@[simp] theorem startCommand_jreg (i : Instr) (s : State) : (startCommand i s).jreg = s.jreg := rfl
@[simp] theorem startCommand_expbuf (i : Instr) (s : State) : (startCommand i s).expbuf = s.expbuf := rfl
@[simp] theorem startCommand_resbuf (i : Instr) (s : State) : (startCommand i s).resbuf = s.resbuf := rfl
@[simp] theorem startCommand_sha (i : Instr) (s : State) : (startCommand i s).sha = s.sha := rfl
@[simp] theorem startCommand_rstN (i : Instr) (s : State) : (startCommand i s).rstN = s.rstN := rfl
@[simp] theorem startCommand_response (i : Instr) (s : State) : (startCommand i s).response = s.response := rfl
@[simp] theorem startCommand_input (i : Instr) (s : State) : (startCommand i s).input = s.input := rfl
@[simp] theorem startCommand_turn (i : Instr) (s : State) : (startCommand i s).turn = s.turn := rfl
@[simp] theorem startCommand_epoch (i : Instr) (s : State) : (startCommand i s).epoch = s.epoch := rfl

/-! ### finishCommand -/

@[simp] theorem finishCommand_status (n : Word) (s : State) : (finishCommand n s).status = { s.status with busy := false, done := true } := rfl
@[simp] theorem finishCommand_irqEn (n : Word) (s : State) : (finishCommand n s).irqEn = s.irqEn := rfl
@[simp] theorem finishCommand_dstLen (n : Word) (s : State) : (finishCommand n s).dstLen = s.dstLen := rfl
@[simp] theorem finishCommand_msgLen (n : Word) (s : State) : (finishCommand n s).msgLen = s.msgLen := rfl
@[simp] theorem finishCommand_outLen (n : Word) (s : State) : (finishCommand n s).outLen = s.outLen := rfl
@[simp] theorem finishCommand_count (n : Word) (s : State) : (finishCommand n s).count = s.count := rfl
@[simp] theorem finishCommand_resultLen (n : Word) (s : State) : (finishCommand n s).resultLen = n := rfl
@[simp] theorem finishCommand_msgbufSize (n : Word) (s : State) : (finishCommand n s).msgbufSize = s.msgbufSize := rfl
@[simp] theorem finishCommand_mem (n : Word) (s : State) : (finishCommand n s).mem = s.mem := rfl
@[simp] theorem finishCommand_seq (n : Word) (s : State) : (finishCommand n s).seq = .idle := rfl
@[simp] theorem finishCommand_snap (n : Word) (s : State) : (finishCommand n s).snap = s.snap := rfl
@[simp] theorem finishCommand_b0reg (n : Word) (s : State) : (finishCommand n s).b0reg = s.b0reg := rfl
@[simp] theorem finishCommand_bireg (n : Word) (s : State) : (finishCommand n s).bireg = s.bireg := rfl
@[simp] theorem finishCommand_jreg (n : Word) (s : State) : (finishCommand n s).jreg = s.jreg := rfl
@[simp] theorem finishCommand_expbuf (n : Word) (s : State) : (finishCommand n s).expbuf = s.expbuf := rfl
@[simp] theorem finishCommand_resbuf (n : Word) (s : State) : (finishCommand n s).resbuf = s.resbuf := rfl
@[simp] theorem finishCommand_sha (n : Word) (s : State) : (finishCommand n s).sha = s.sha := rfl
@[simp] theorem finishCommand_rstN (n : Word) (s : State) : (finishCommand n s).rstN = s.rstN := rfl
@[simp] theorem finishCommand_response (n : Word) (s : State) : (finishCommand n s).response = s.response := rfl
@[simp] theorem finishCommand_input (n : Word) (s : State) : (finishCommand n s).input = s.input := rfl
@[simp] theorem finishCommand_turn (n : Word) (s : State) : (finishCommand n s).turn = s.turn := rfl
@[simp] theorem finishCommand_epoch (n : Word) (s : State) : (finishCommand n s).epoch = s.epoch := rfl

/-! ### answerRead -/

@[simp] theorem answerRead_status (v : Word) (s : State) : (answerRead v s).status = s.status := rfl
@[simp] theorem answerRead_irqEn (v : Word) (s : State) : (answerRead v s).irqEn = s.irqEn := rfl
@[simp] theorem answerRead_dstLen (v : Word) (s : State) : (answerRead v s).dstLen = s.dstLen := rfl
@[simp] theorem answerRead_msgLen (v : Word) (s : State) : (answerRead v s).msgLen = s.msgLen := rfl
@[simp] theorem answerRead_outLen (v : Word) (s : State) : (answerRead v s).outLen = s.outLen := rfl
@[simp] theorem answerRead_count (v : Word) (s : State) : (answerRead v s).count = s.count := rfl
@[simp] theorem answerRead_resultLen (v : Word) (s : State) : (answerRead v s).resultLen = s.resultLen := rfl
@[simp] theorem answerRead_msgbufSize (v : Word) (s : State) : (answerRead v s).msgbufSize = s.msgbufSize := rfl
@[simp] theorem answerRead_mem (v : Word) (s : State) : (answerRead v s).mem = s.mem := rfl
@[simp] theorem answerRead_seq (v : Word) (s : State) : (answerRead v s).seq = s.seq := rfl
@[simp] theorem answerRead_snap (v : Word) (s : State) : (answerRead v s).snap = s.snap := rfl
@[simp] theorem answerRead_b0reg (v : Word) (s : State) : (answerRead v s).b0reg = s.b0reg := rfl
@[simp] theorem answerRead_bireg (v : Word) (s : State) : (answerRead v s).bireg = s.bireg := rfl
@[simp] theorem answerRead_jreg (v : Word) (s : State) : (answerRead v s).jreg = s.jreg := rfl
@[simp] theorem answerRead_expbuf (v : Word) (s : State) : (answerRead v s).expbuf = s.expbuf := rfl
@[simp] theorem answerRead_resbuf (v : Word) (s : State) : (answerRead v s).resbuf = s.resbuf := rfl
@[simp] theorem answerRead_sha (v : Word) (s : State) : (answerRead v s).sha = s.sha := rfl
@[simp] theorem answerRead_rstN (v : Word) (s : State) : (answerRead v s).rstN = s.rstN := rfl
@[simp] theorem answerRead_response (v : Word) (s : State) : (answerRead v s).response = some ⟨.okay, some v⟩ := rfl
@[simp] theorem answerRead_input (v : Word) (s : State) : (answerRead v s).input = s.input := rfl
@[simp] theorem answerRead_turn (v : Word) (s : State) : (answerRead v s).turn = s.turn := rfl
@[simp] theorem answerRead_epoch (v : Word) (s : State) : (answerRead v s).epoch = s.epoch := rfl

/-! ### answerWrite -/

@[simp] theorem answerWrite_status (s : State) : (answerWrite s).status = s.status := rfl
@[simp] theorem answerWrite_irqEn (s : State) : (answerWrite s).irqEn = s.irqEn := rfl
@[simp] theorem answerWrite_dstLen (s : State) : (answerWrite s).dstLen = s.dstLen := rfl
@[simp] theorem answerWrite_msgLen (s : State) : (answerWrite s).msgLen = s.msgLen := rfl
@[simp] theorem answerWrite_outLen (s : State) : (answerWrite s).outLen = s.outLen := rfl
@[simp] theorem answerWrite_count (s : State) : (answerWrite s).count = s.count := rfl
@[simp] theorem answerWrite_resultLen (s : State) : (answerWrite s).resultLen = s.resultLen := rfl
@[simp] theorem answerWrite_msgbufSize (s : State) : (answerWrite s).msgbufSize = s.msgbufSize := rfl
@[simp] theorem answerWrite_mem (s : State) : (answerWrite s).mem = s.mem := rfl
@[simp] theorem answerWrite_seq (s : State) : (answerWrite s).seq = s.seq := rfl
@[simp] theorem answerWrite_snap (s : State) : (answerWrite s).snap = s.snap := rfl
@[simp] theorem answerWrite_b0reg (s : State) : (answerWrite s).b0reg = s.b0reg := rfl
@[simp] theorem answerWrite_bireg (s : State) : (answerWrite s).bireg = s.bireg := rfl
@[simp] theorem answerWrite_jreg (s : State) : (answerWrite s).jreg = s.jreg := rfl
@[simp] theorem answerWrite_expbuf (s : State) : (answerWrite s).expbuf = s.expbuf := rfl
@[simp] theorem answerWrite_resbuf (s : State) : (answerWrite s).resbuf = s.resbuf := rfl
@[simp] theorem answerWrite_sha (s : State) : (answerWrite s).sha = s.sha := rfl
@[simp] theorem answerWrite_rstN (s : State) : (answerWrite s).rstN = s.rstN := rfl
@[simp] theorem answerWrite_response (s : State) : (answerWrite s).response = some ⟨.okay, none⟩ := rfl
@[simp] theorem answerWrite_input (s : State) : (answerWrite s).input = s.input := rfl
@[simp] theorem answerWrite_turn (s : State) : (answerWrite s).turn = s.turn := rfl
@[simp] theorem answerWrite_epoch (s : State) : (answerWrite s).epoch = s.epoch := rfl

/-! ### answerError -/

@[simp] theorem answerError_status (s : State) : (answerError s).status = s.status := rfl
@[simp] theorem answerError_irqEn (s : State) : (answerError s).irqEn = s.irqEn := rfl
@[simp] theorem answerError_dstLen (s : State) : (answerError s).dstLen = s.dstLen := rfl
@[simp] theorem answerError_msgLen (s : State) : (answerError s).msgLen = s.msgLen := rfl
@[simp] theorem answerError_outLen (s : State) : (answerError s).outLen = s.outLen := rfl
@[simp] theorem answerError_count (s : State) : (answerError s).count = s.count := rfl
@[simp] theorem answerError_resultLen (s : State) : (answerError s).resultLen = s.resultLen := rfl
@[simp] theorem answerError_msgbufSize (s : State) : (answerError s).msgbufSize = s.msgbufSize := rfl
@[simp] theorem answerError_mem (s : State) : (answerError s).mem = s.mem := rfl
@[simp] theorem answerError_seq (s : State) : (answerError s).seq = s.seq := rfl
@[simp] theorem answerError_snap (s : State) : (answerError s).snap = s.snap := rfl
@[simp] theorem answerError_b0reg (s : State) : (answerError s).b0reg = s.b0reg := rfl
@[simp] theorem answerError_bireg (s : State) : (answerError s).bireg = s.bireg := rfl
@[simp] theorem answerError_jreg (s : State) : (answerError s).jreg = s.jreg := rfl
@[simp] theorem answerError_expbuf (s : State) : (answerError s).expbuf = s.expbuf := rfl
@[simp] theorem answerError_resbuf (s : State) : (answerError s).resbuf = s.resbuf := rfl
@[simp] theorem answerError_sha (s : State) : (answerError s).sha = s.sha := rfl
@[simp] theorem answerError_rstN (s : State) : (answerError s).rstN = s.rstN := rfl
@[simp] theorem answerError_response (s : State) : (answerError s).response = some ⟨.slverr, some 0⟩ := rfl
@[simp] theorem answerError_input (s : State) : (answerError s).input = s.input := rfl
@[simp] theorem answerError_turn (s : State) : (answerError s).turn = s.turn := rfl
@[simp] theorem answerError_epoch (s : State) : (answerError s).epoch = s.epoch := rfl

/-! ### leaveReset -/

@[simp] theorem leaveReset_status (s : State) : (leaveReset s).status = s.status := rfl
@[simp] theorem leaveReset_irqEn (s : State) : (leaveReset s).irqEn = s.irqEn := rfl
@[simp] theorem leaveReset_dstLen (s : State) : (leaveReset s).dstLen = s.dstLen := rfl
@[simp] theorem leaveReset_msgLen (s : State) : (leaveReset s).msgLen = s.msgLen := rfl
@[simp] theorem leaveReset_outLen (s : State) : (leaveReset s).outLen = s.outLen := rfl
@[simp] theorem leaveReset_count (s : State) : (leaveReset s).count = s.count := rfl
@[simp] theorem leaveReset_resultLen (s : State) : (leaveReset s).resultLen = s.resultLen := rfl
@[simp] theorem leaveReset_msgbufSize (s : State) : (leaveReset s).msgbufSize = s.msgbufSize := rfl
@[simp] theorem leaveReset_mem (s : State) : (leaveReset s).mem = s.mem := rfl
@[simp] theorem leaveReset_seq (s : State) : (leaveReset s).seq = s.seq := rfl
@[simp] theorem leaveReset_snap (s : State) : (leaveReset s).snap = s.snap := rfl
@[simp] theorem leaveReset_b0reg (s : State) : (leaveReset s).b0reg = s.b0reg := rfl
@[simp] theorem leaveReset_bireg (s : State) : (leaveReset s).bireg = s.bireg := rfl
@[simp] theorem leaveReset_jreg (s : State) : (leaveReset s).jreg = s.jreg := rfl
@[simp] theorem leaveReset_expbuf (s : State) : (leaveReset s).expbuf = s.expbuf := rfl
@[simp] theorem leaveReset_resbuf (s : State) : (leaveReset s).resbuf = s.resbuf := rfl
@[simp] theorem leaveReset_sha (s : State) : (leaveReset s).sha = s.sha := rfl
@[simp] theorem leaveReset_rstN (s : State) : (leaveReset s).rstN = true := rfl
@[simp] theorem leaveReset_response (s : State) : (leaveReset s).response = s.response := rfl
@[simp] theorem leaveReset_input (s : State) : (leaveReset s).input = s.input := rfl
@[simp] theorem leaveReset_turn (s : State) : (leaveReset s).turn = s.turn := rfl
@[simp] theorem leaveReset_epoch (s : State) : (leaveReset s).epoch = s.epoch := rfl

/-! ### turnB0, turnB1 and turnBI: the fields that no turn of the expand phase touches. What such a turn does to the others
stands in Laws/Engine.lean. -/

@[simp] theorem turnB0_status (p : PipelineIn) (s : State) : (turnB0 p s).status = s.status := by unfold turnB0; split <;> rfl
@[simp] theorem turnB0_irqEn (p : PipelineIn) (s : State) : (turnB0 p s).irqEn = s.irqEn := by unfold turnB0; split <;> rfl
@[simp] theorem turnB0_dstLen (p : PipelineIn) (s : State) : (turnB0 p s).dstLen = s.dstLen := by unfold turnB0; split <;> rfl
@[simp] theorem turnB0_msgLen (p : PipelineIn) (s : State) : (turnB0 p s).msgLen = s.msgLen := by unfold turnB0; split <;> rfl
@[simp] theorem turnB0_outLen (p : PipelineIn) (s : State) : (turnB0 p s).outLen = s.outLen := by unfold turnB0; split <;> rfl
@[simp] theorem turnB0_count (p : PipelineIn) (s : State) : (turnB0 p s).count = s.count := by unfold turnB0; split <;> rfl
@[simp] theorem turnB0_resultLen (p : PipelineIn) (s : State) : (turnB0 p s).resultLen = s.resultLen := by unfold turnB0; split <;> rfl
@[simp] theorem turnB0_msgbufSize (p : PipelineIn) (s : State) : (turnB0 p s).msgbufSize = s.msgbufSize := by unfold turnB0; split <;> rfl
@[simp] theorem turnB0_mem (p : PipelineIn) (s : State) : (turnB0 p s).mem = s.mem := by unfold turnB0; split <;> rfl
@[simp] theorem turnB0_snap (p : PipelineIn) (s : State) : (turnB0 p s).snap = s.snap := by unfold turnB0; split <;> rfl
@[simp] theorem turnB0_bireg (p : PipelineIn) (s : State) : (turnB0 p s).bireg = s.bireg := by unfold turnB0; split <;> rfl
@[simp] theorem turnB0_jreg (p : PipelineIn) (s : State) : (turnB0 p s).jreg = s.jreg := by unfold turnB0; split <;> rfl
@[simp] theorem turnB0_expbuf (p : PipelineIn) (s : State) : (turnB0 p s).expbuf = s.expbuf := by unfold turnB0; split <;> rfl
@[simp] theorem turnB0_resbuf (p : PipelineIn) (s : State) : (turnB0 p s).resbuf = s.resbuf := by unfold turnB0; split <;> rfl
@[simp] theorem turnB0_rstN (p : PipelineIn) (s : State) : (turnB0 p s).rstN = s.rstN := by unfold turnB0; split <;> rfl
@[simp] theorem turnB0_response (p : PipelineIn) (s : State) : (turnB0 p s).response = s.response := by unfold turnB0; split <;> rfl
@[simp] theorem turnB0_input (p : PipelineIn) (s : State) : (turnB0 p s).input = s.input := by unfold turnB0; split <;> rfl
@[simp] theorem turnB0_turn (p : PipelineIn) (s : State) : (turnB0 p s).turn = s.turn := by unfold turnB0; split <;> rfl
@[simp] theorem turnB0_epoch (p : PipelineIn) (s : State) : (turnB0 p s).epoch = s.epoch := by unfold turnB0; split <;> rfl

@[simp] theorem turnB1_status (p : PipelineIn) (q : Seq) (s : State) : (turnB1 p q s).status = s.status := by unfold turnB1; split <;> rfl
@[simp] theorem turnB1_irqEn (p : PipelineIn) (q : Seq) (s : State) : (turnB1 p q s).irqEn = s.irqEn := by unfold turnB1; split <;> rfl
@[simp] theorem turnB1_dstLen (p : PipelineIn) (q : Seq) (s : State) : (turnB1 p q s).dstLen = s.dstLen := by unfold turnB1; split <;> rfl
@[simp] theorem turnB1_msgLen (p : PipelineIn) (q : Seq) (s : State) : (turnB1 p q s).msgLen = s.msgLen := by unfold turnB1; split <;> rfl
@[simp] theorem turnB1_outLen (p : PipelineIn) (q : Seq) (s : State) : (turnB1 p q s).outLen = s.outLen := by unfold turnB1; split <;> rfl
@[simp] theorem turnB1_count (p : PipelineIn) (q : Seq) (s : State) : (turnB1 p q s).count = s.count := by unfold turnB1; split <;> rfl
@[simp] theorem turnB1_resultLen (p : PipelineIn) (q : Seq) (s : State) : (turnB1 p q s).resultLen = s.resultLen := by unfold turnB1; split <;> rfl
@[simp] theorem turnB1_msgbufSize (p : PipelineIn) (q : Seq) (s : State) : (turnB1 p q s).msgbufSize = s.msgbufSize := by unfold turnB1; split <;> rfl
@[simp] theorem turnB1_mem (p : PipelineIn) (q : Seq) (s : State) : (turnB1 p q s).mem = s.mem := by unfold turnB1; split <;> rfl
@[simp] theorem turnB1_snap (p : PipelineIn) (q : Seq) (s : State) : (turnB1 p q s).snap = s.snap := by unfold turnB1; split <;> rfl
@[simp] theorem turnB1_b0reg (p : PipelineIn) (q : Seq) (s : State) : (turnB1 p q s).b0reg = s.b0reg := by unfold turnB1; split <;> rfl
@[simp] theorem turnB1_resbuf (p : PipelineIn) (q : Seq) (s : State) : (turnB1 p q s).resbuf = s.resbuf := by unfold turnB1; split <;> rfl
@[simp] theorem turnB1_rstN (p : PipelineIn) (q : Seq) (s : State) : (turnB1 p q s).rstN = s.rstN := by unfold turnB1; split <;> rfl
@[simp] theorem turnB1_response (p : PipelineIn) (q : Seq) (s : State) : (turnB1 p q s).response = s.response := by unfold turnB1; split <;> rfl
@[simp] theorem turnB1_input (p : PipelineIn) (q : Seq) (s : State) : (turnB1 p q s).input = s.input := by unfold turnB1; split <;> rfl
@[simp] theorem turnB1_turn (p : PipelineIn) (q : Seq) (s : State) : (turnB1 p q s).turn = s.turn := by unfold turnB1; split <;> rfl
@[simp] theorem turnB1_epoch (p : PipelineIn) (q : Seq) (s : State) : (turnB1 p q s).epoch = s.epoch := by unfold turnB1; split <;> rfl

@[simp] theorem turnBI_status (p : PipelineIn) (q : Seq) (j : Nat) (s : State) : (turnBI p q j s).status = s.status := by unfold turnBI; split <;> rfl
@[simp] theorem turnBI_irqEn (p : PipelineIn) (q : Seq) (j : Nat) (s : State) : (turnBI p q j s).irqEn = s.irqEn := by unfold turnBI; split <;> rfl
@[simp] theorem turnBI_dstLen (p : PipelineIn) (q : Seq) (j : Nat) (s : State) : (turnBI p q j s).dstLen = s.dstLen := by unfold turnBI; split <;> rfl
@[simp] theorem turnBI_msgLen (p : PipelineIn) (q : Seq) (j : Nat) (s : State) : (turnBI p q j s).msgLen = s.msgLen := by unfold turnBI; split <;> rfl
@[simp] theorem turnBI_outLen (p : PipelineIn) (q : Seq) (j : Nat) (s : State) : (turnBI p q j s).outLen = s.outLen := by unfold turnBI; split <;> rfl
@[simp] theorem turnBI_count (p : PipelineIn) (q : Seq) (j : Nat) (s : State) : (turnBI p q j s).count = s.count := by unfold turnBI; split <;> rfl
@[simp] theorem turnBI_resultLen (p : PipelineIn) (q : Seq) (j : Nat) (s : State) : (turnBI p q j s).resultLen = s.resultLen := by unfold turnBI; split <;> rfl
@[simp] theorem turnBI_msgbufSize (p : PipelineIn) (q : Seq) (j : Nat) (s : State) : (turnBI p q j s).msgbufSize = s.msgbufSize := by unfold turnBI; split <;> rfl
@[simp] theorem turnBI_mem (p : PipelineIn) (q : Seq) (j : Nat) (s : State) : (turnBI p q j s).mem = s.mem := by unfold turnBI; split <;> rfl
@[simp] theorem turnBI_snap (p : PipelineIn) (q : Seq) (j : Nat) (s : State) : (turnBI p q j s).snap = s.snap := by unfold turnBI; split <;> rfl
@[simp] theorem turnBI_b0reg (p : PipelineIn) (q : Seq) (j : Nat) (s : State) : (turnBI p q j s).b0reg = s.b0reg := by unfold turnBI; split <;> rfl
@[simp] theorem turnBI_resbuf (p : PipelineIn) (q : Seq) (j : Nat) (s : State) : (turnBI p q j s).resbuf = s.resbuf := by unfold turnBI; split <;> rfl
@[simp] theorem turnBI_rstN (p : PipelineIn) (q : Seq) (j : Nat) (s : State) : (turnBI p q j s).rstN = s.rstN := by unfold turnBI; split <;> rfl
@[simp] theorem turnBI_response (p : PipelineIn) (q : Seq) (j : Nat) (s : State) : (turnBI p q j s).response = s.response := by unfold turnBI; split <;> rfl
@[simp] theorem turnBI_input (p : PipelineIn) (q : Seq) (j : Nat) (s : State) : (turnBI p q j s).input = s.input := by unfold turnBI; split <;> rfl
@[simp] theorem turnBI_turn (p : PipelineIn) (q : Seq) (j : Nat) (s : State) : (turnBI p q j s).turn = s.turn := by unfold turnBI; split <;> rfl
@[simp] theorem turnBI_epoch (p : PipelineIn) (q : Seq) (j : Nat) (s : State) : (turnBI p q j s).epoch = s.epoch := by unfold turnBI; split <;> rfl

/-! ### storeElement -/

@[simp] theorem storeElement_status (i : Nat) (e : Wide) (s : State) : (storeElement i e s).status = s.status := rfl
@[simp] theorem storeElement_irqEn (i : Nat) (e : Wide) (s : State) : (storeElement i e s).irqEn = s.irqEn := rfl
@[simp] theorem storeElement_dstLen (i : Nat) (e : Wide) (s : State) : (storeElement i e s).dstLen = s.dstLen := rfl
@[simp] theorem storeElement_msgLen (i : Nat) (e : Wide) (s : State) : (storeElement i e s).msgLen = s.msgLen := rfl
@[simp] theorem storeElement_outLen (i : Nat) (e : Wide) (s : State) : (storeElement i e s).outLen = s.outLen := rfl
@[simp] theorem storeElement_count (i : Nat) (e : Wide) (s : State) : (storeElement i e s).count = s.count := rfl
@[simp] theorem storeElement_resultLen (i : Nat) (e : Wide) (s : State) : (storeElement i e s).resultLen = s.resultLen := rfl
@[simp] theorem storeElement_msgbufSize (i : Nat) (e : Wide) (s : State) : (storeElement i e s).msgbufSize = s.msgbufSize := rfl
@[simp] theorem storeElement_mem (i : Nat) (e : Wide) (s : State) : (storeElement i e s).mem = s.mem := rfl
@[simp] theorem storeElement_seq (i : Nat) (e : Wide) (s : State) : (storeElement i e s).seq = if i + 1 = s.snap.count.toNat then .commit else .map (i + 1) := rfl
@[simp] theorem storeElement_snap (i : Nat) (e : Wide) (s : State) : (storeElement i e s).snap = s.snap := rfl
@[simp] theorem storeElement_b0reg (i : Nat) (e : Wide) (s : State) : (storeElement i e s).b0reg = s.b0reg := rfl
@[simp] theorem storeElement_bireg (i : Nat) (e : Wide) (s : State) : (storeElement i e s).bireg = s.bireg := rfl
@[simp] theorem storeElement_jreg (i : Nat) (e : Wide) (s : State) : (storeElement i e s).jreg = s.jreg := rfl
@[simp] theorem storeElement_expbuf (i : Nat) (e : Wide) (s : State) : (storeElement i e s).expbuf = s.expbuf := rfl
@[simp] theorem storeElement_sha (i : Nat) (e : Wide) (s : State) : (storeElement i e s).sha = s.sha := rfl
@[simp] theorem storeElement_rstN (i : Nat) (e : Wide) (s : State) : (storeElement i e s).rstN = s.rstN := rfl
@[simp] theorem storeElement_response (i : Nat) (e : Wide) (s : State) : (storeElement i e s).response = s.response := rfl
@[simp] theorem storeElement_input (i : Nat) (e : Wide) (s : State) : (storeElement i e s).input = s.input := rfl
@[simp] theorem storeElement_turn (i : Nat) (e : Wide) (s : State) : (storeElement i e s).turn = s.turn := rfl
@[simp] theorem storeElement_epoch (i : Nat) (e : Wide) (s : State) : (storeElement i e s).epoch = s.epoch := rfl

/-! ### turnMap -/

@[simp] theorem turnMap_status (i : Nat) (s : State) : (turnMap i s).status = s.status := by rw [turnMap_store]; rfl
@[simp] theorem turnMap_irqEn (i : Nat) (s : State) : (turnMap i s).irqEn = s.irqEn := by rw [turnMap_store]; rfl
@[simp] theorem turnMap_dstLen (i : Nat) (s : State) : (turnMap i s).dstLen = s.dstLen := by rw [turnMap_store]; rfl
@[simp] theorem turnMap_msgLen (i : Nat) (s : State) : (turnMap i s).msgLen = s.msgLen := by rw [turnMap_store]; rfl
@[simp] theorem turnMap_outLen (i : Nat) (s : State) : (turnMap i s).outLen = s.outLen := by rw [turnMap_store]; rfl
@[simp] theorem turnMap_count (i : Nat) (s : State) : (turnMap i s).count = s.count := by rw [turnMap_store]; rfl
@[simp] theorem turnMap_resultLen (i : Nat) (s : State) : (turnMap i s).resultLen = s.resultLen := by rw [turnMap_store]; rfl
@[simp] theorem turnMap_msgbufSize (i : Nat) (s : State) : (turnMap i s).msgbufSize = s.msgbufSize := by rw [turnMap_store]; rfl
@[simp] theorem turnMap_mem (i : Nat) (s : State) : (turnMap i s).mem = s.mem := by rw [turnMap_store]; rfl
@[simp] theorem turnMap_seq (i : Nat) (s : State) : (turnMap i s).seq = if i + 1 = s.snap.count.toNat then .commit else .map (i + 1) := by rw [turnMap_store]; rfl
@[simp] theorem turnMap_snap (i : Nat) (s : State) : (turnMap i s).snap = s.snap := by rw [turnMap_store]; rfl
@[simp] theorem turnMap_b0reg (i : Nat) (s : State) : (turnMap i s).b0reg = s.b0reg := by rw [turnMap_store]; rfl
@[simp] theorem turnMap_bireg (i : Nat) (s : State) : (turnMap i s).bireg = s.bireg := by rw [turnMap_store]; rfl
@[simp] theorem turnMap_jreg (i : Nat) (s : State) : (turnMap i s).jreg = s.jreg := by rw [turnMap_store]; rfl
@[simp] theorem turnMap_expbuf (i : Nat) (s : State) : (turnMap i s).expbuf = s.expbuf := by rw [turnMap_store]; rfl
@[simp] theorem turnMap_sha (i : Nat) (s : State) : (turnMap i s).sha = s.sha := by rw [turnMap_store]; rfl
@[simp] theorem turnMap_rstN (i : Nat) (s : State) : (turnMap i s).rstN = s.rstN := by rw [turnMap_store]; rfl
@[simp] theorem turnMap_response (i : Nat) (s : State) : (turnMap i s).response = s.response := by rw [turnMap_store]; rfl
@[simp] theorem turnMap_input (i : Nat) (s : State) : (turnMap i s).input = s.input := by rw [turnMap_store]; rfl
@[simp] theorem turnMap_turn (i : Nat) (s : State) : (turnMap i s).turn = s.turn := by rw [turnMap_store]; rfl
@[simp] theorem turnMap_epoch (i : Nat) (s : State) : (turnMap i s).epoch = s.epoch := by rw [turnMap_store]; rfl

/-! ### enterReset -/

@[simp] theorem enterReset_status (s : State) : (enterReset s).status = Status.zero := rfl
@[simp] theorem enterReset_irqEn (s : State) : (enterReset s).irqEn = ⟨false, false⟩ := rfl
@[simp] theorem enterReset_dstLen (s : State) : (enterReset s).dstLen = 0 := rfl
@[simp] theorem enterReset_msgLen (s : State) : (enterReset s).msgLen = 0 := rfl
@[simp] theorem enterReset_outLen (s : State) : (enterReset s).outLen = 0 := rfl
@[simp] theorem enterReset_count (s : State) : (enterReset s).count = 0 := rfl
@[simp] theorem enterReset_resultLen (s : State) : (enterReset s).resultLen = 0 := rfl
@[simp] theorem enterReset_msgbufSize (s : State) : (enterReset s).msgbufSize = s.msgbufSize := rfl
@[simp] theorem enterReset_mem (s : State) : (enterReset s).mem = [] := rfl
@[simp] theorem enterReset_seq (s : State) : (enterReset s).seq = .idle := rfl
@[simp] theorem enterReset_snap (s : State) : (enterReset s).snap = Snapshot.atReset := rfl
@[simp] theorem enterReset_b0reg (s : State) : (enterReset s).b0reg = 0 := rfl
@[simp] theorem enterReset_bireg (s : State) : (enterReset s).bireg = 0 := rfl
@[simp] theorem enterReset_jreg (s : State) : (enterReset s).jreg = 0 := rfl
@[simp] theorem enterReset_expbuf (s : State) : (enterReset s).expbuf = [] := rfl
@[simp] theorem enterReset_resbuf (s : State) : (enterReset s).resbuf = [] := rfl
@[simp] theorem enterReset_sha (s : State) : (enterReset s).sha = ShaRegs.atReset := rfl
@[simp] theorem enterReset_rstN (s : State) : (enterReset s).rstN = false := rfl
@[simp] theorem enterReset_response (s : State) : (enterReset s).response = none := rfl
@[simp] theorem enterReset_input (s : State) : (enterReset s).input = s.input := rfl
@[simp] theorem enterReset_turn (s : State) : (enterReset s).turn = .host := rfl
@[simp] theorem enterReset_epoch (s : State) : (enterReset s).epoch = s.epoch + 1 := rfl

/-! ### The words of STATUS and IRQ_EN (R33, R38) -/

theorem bit_getLsbD (b : Bool) : (bit b).getLsbD 0 = b := by cases b <;> rfl

theorem Status.word_done (st : Status) : st.word.getLsbD 1 = st.done := by
  simp only [Status.word, BitVec.getLsbD_append]
  exact bit_getLsbD _

theorem Status.word_err (st : Status) : st.word.getLsbD 2 = st.err := by
  simp only [Status.word, BitVec.getLsbD_append]
  exact bit_getLsbD _

theorem IrqEn.word_enDone (e : IrqEn) : e.word.getLsbD 0 = e.enDone := by
  simp only [IrqEn.word, BitVec.getLsbD_append]
  exact bit_getLsbD _

theorem IrqEn.word_enErr (e : IrqEn) : e.word.getLsbD 1 = e.enErr := by
  simp only [IrqEn.word, BitVec.getLsbD_append]
  exact bit_getLsbD _

end Sys2Proof.Machine
end

