-- ==== Sys2Proof/Laws/Bus.lean ====
section
/-! SUPPORT. What the port's check, the busy rule, a write and a CMD write can do (20_memory.md R70 to R81, 10_state.md R53,
30_encoding.md R104). -/

namespace Sys2Proof.Machine

theorem sizeBytes_eq (n : BusSize) : sizeBytes n = n.bytes := by cases n <;> rfl

/-! ### Which place an access reaches -/

/-- The offsets of the registers that a write can change at any time (R75). -/
theorem controlPlace_off {off : Nat} {p : Place} (h : controlPlace off = some p) :
    (p = .cmd → off = 0x0004) ∧ (p = .status → off = 0x0008) ∧ (p = .irqEn → off = 0x000C) ∧
      p ≠ .dstBuf ∧ p ≠ .outBuf ∧ p ≠ .msgBuf := by
  simp only [controlPlace] at h
  repeat' split at h
  all_goals cases h
  all_goals simp_all

/-- What lies in a buffer lies within its bounds (R73, R75). -/
theorem bufferPlace_bounds {size off n : Nat} {p : Place} (h : bufferPlace size off n = some p) :
    (p = .dstBuf ∧ 0x0100 ≤ off ∧ off + n ≤ 0x0120) ∨ (p = .outBuf ∧ 0x2000 ≤ off ∧ off + n ≤ 0x4000) ∨
      (p = .msgBuf ∧ 0x4000 ≤ off ∧ off + n ≤ 0x4000 + size) := by
  simp only [bufferPlace] at h
  have e : dstBufBase = 0x0100 ∧ dstBufSize = 0x20 ∧ outBufBase = 0x2000 ∧ outBufSize = 0x2000 ∧ msgBufBase = 0x4000 :=
    ⟨rfl, rfl, rfl, rfl, rfl⟩
  split at h
  · obtain rfl := Option.some.inj h
    exact .inl ⟨rfl, by omega⟩
  · split at h
    · obtain rfl := Option.some.inj h
      exact .inr (.inl ⟨rfl, by omega⟩)
    · split at h
      · obtain rfl := Option.some.inj h
        exact .inr (.inr ⟨rfl, by omega⟩)
      · cases h

/-- An access that the port lets through reaches a control register at its own offset, or lies whole in one buffer
(R72, R73, R75). -/
theorem busAccess_place {t : Transaction} {s : State} {p : Place} (h : busAccess t s = some p) :
    controlPlace t.off.toNat = some p ∨ bufferPlace s.msgbufSize.toNat t.off.toNat t.size.bytes = some p := by
  rw [busAccess, sizeBytes_eq] at h
  split at h
  · cases h
  · split at h
    · split at h
      · exact .inl h
      · cases h
    · exact .inr h

/-! ### Lanes -/

@[simp] theorem writeLanes_length (v : Word) (n : BusSize) : (writeLanes v n).length = n.bytes := by cases n <;> rfl

/-- The byte that a write carries for offset `off + k` (R71). -/
theorem writeLanes_lane (v : Word) {n : BusSize} {k : Nat} (hk : k < n.bytes) :
    (writeLanes v n).getD k 0 = v.extractLsb' (8 * k) 8 := by
  cases n <;> simp only [BusSize.bytes] at hk <;> interval_cases k <;> rfl

/-! ### The busy rule and acceptance -/

/-- While BUSY a write of the busy rule is dropped (R53). -/
theorem unlessBusy_busy {s : State} (h : s.status.busy = true) (act : State → State) :
    unlessBusy act s = dropWrite s := by simp [unlessBusy, h]

/-- With BUSY = 0 it takes effect (R53). -/
theorem unlessBusy_idle {s : State} (h : s.status.busy = false) (act : State → State) :
    unlessBusy act s = act s := by simp [unlessBusy, h]

/-- The checks read the operand registers and MSGBUF_SIZE and nothing else (R254). -/
theorem checkOperands_congr {s t : State} (i : Instr) (h1 : s.dstLen = t.dstLen) (h2 : s.msgLen = t.msgLen)
    (h3 : s.outLen = t.outLen) (h4 : s.count = t.count) (h5 : s.msgbufSize = t.msgbufSize) :
    checkOperands i s = checkOperands i t := by
  simp only [checkOperands, h1, h2, h3, h4, h5]

/-- A command written while BUSY is dropped (R53, R104). -/
theorem acceptCommand_busy {s : State} (h : s.status.busy = true) (i : Instr) : acceptCommand i s = dropWrite s := by
  simp [acceptCommand, h]

/-- A command whose operands fail a check is refused (R255). -/
theorem acceptCommand_refused {s : State} (h : s.status.busy = false) {i : Instr} {code : ErrCode}
    (hc : checkOperands i s = some code) : acceptCommand i s = raiseError code (clearOutcome s) := by
  have hc' : checkOperands i (clearOutcome s) = some code := hc
  simp [acceptCommand, h, hc']

/-- A command whose operands pass is started (R104). -/
theorem acceptCommand_started {s : State} (h : s.status.busy = false) {i : Instr} (hc : checkOperands i s = none) :
    acceptCommand i s = startCommand i (clearOutcome s) := by
  have hc' : checkOperands i (clearOutcome s) = none := hc
  simp [acceptCommand, h, hc']

/-- Everything a CMD write of a command can do. -/
theorem acceptCommand_cases (i : Instr) (s : State) :
    (s.status.busy = true ∧ acceptCommand i s = dropWrite s) ∨
    (∃ code, s.status.busy = false ∧ checkOperands i s = some code ∧
      acceptCommand i s = raiseError code (clearOutcome s)) ∨
    (s.status.busy = false ∧ checkOperands i s = none ∧ acceptCommand i s = startCommand i (clearOutcome s)) := by
  cases hb : s.status.busy with
  | true => exact .inl ⟨rfl, acceptCommand_busy hb i⟩
  | false =>
    cases hc : checkOperands i s with
    | some code => exact .inr (.inl ⟨code, rfl, rfl, acceptCommand_refused hb hc⟩)
    | none => exact .inr (.inr ⟨rfl, rfl, acceptCommand_started hb hc⟩)

/-- A word that is no command, written while BUSY, is dropped (R103). -/
theorem refuseWord_busy {s : State} (h : s.status.busy = true) : refuseWord s = dropWrite s := by
  simp [refuseWord, h]

/-- A word that is no command, written with BUSY = 0 (R103, R255). -/
theorem refuseWord_idle {s : State} (h : s.status.busy = false) :
    refuseWord s = raiseError .illegalCommand (clearOutcome s) := by
  simp [refuseWord, h]

/-! ### Writes to places other than CMD -/

/-- No such write touches the sequencer, its snapshot, the outputs or the parameter. -/
theorem writePlace_frame (p : Place) (t : Transaction) (s : State) :
    (writePlace p t s).seq = s.seq ∧ (writePlace p t s).snap = s.snap ∧ (writePlace p t s).resultLen = s.resultLen ∧
      (writePlace p t s).msgbufSize = s.msgbufSize ∧ (writePlace p t s).rstN = s.rstN ∧
      (writePlace p t s).epoch = s.epoch ∧ (writePlace p t s).response = s.response ∧
      (writePlace p t s).status.busy = s.status.busy := by
  cases p <;> simp [writePlace, unlessBusy, Status.writeOneToClear] <;> split <;> simp

/-- Only a write to STATUS touches DONE, ERR and ERRCODE (R33). -/
theorem writePlace_outcome {p : Place} (h : p ≠ .status) (t : Transaction) (s : State) :
    (writePlace p t s).status.done = s.status.done ∧ (writePlace p t s).status.err = s.status.err ∧
      (writePlace p t s).status.errcode = s.status.errcode := by
  cases p <;> first | exact absurd rfl h | (simp [writePlace, unlessBusy] <;> split <;> simp)

end Sys2Proof.Machine
end

