-- ==== Sys2Proof/Laws/Sha.lean ====
section
/-! SUPPORT. What the clocked hash unit can do: fed a stream of bytes after `start`, it comes to `dig_valid` with the
digest of the function SHA256 (R131) and the block count of R125, whatever its registers held before. -/

namespace Sys2Proof.Machine

@[simp] theorem digestBytes_length (hv : HashWords) : (digestBytes hv).length = 32 := by simp [digestBytes]

@[simp] theorem sha256_length (s : List Byte) : (sha256 s).length = 32 := digestBytes_length _

/-! ### The message schedule and its 16-word window (R127) -/

theorem blockWords_length (m : List Byte) : (blockWords m).length = 16 := by simp [blockWords]

@[simp] theorem extendSchedule_length (n : Nat) (w : List Word) : (extendSchedule n w).length = w.length + n := by
  induction n generalizing w with
  | zero => rfl
  | succ n ih => simp only [extendSchedule, ih, List.length_append, List.length_singleton]; omega

theorem extendSchedule_succ (n : Nat) (w : List Word) :
    extendSchedule (n + 1) w = extendSchedule n w ++ [scheduleNext (extendSchedule n w)] := by
  induction n generalizing w with
  | zero => rfl
  | succ n ih => rw [extendSchedule, ih]; rfl

theorem extendSchedule_isPrefix (w : List Word) {n m : Nat} (h : n ≤ m) :
    extendSchedule n w <+: extendSchedule m w := by
  induction m, h using Nat.le_induction with
  | base => exact List.prefix_rfl
  | succ m _ ih => exact ih.trans (extendSchedule_succ m w ▸ List.prefix_append _ _)

theorem getD_of_isPrefix {a b : List Word} (h : a <+: b) {k : Nat} (hk : k < a.length) :
    b.getD k 0 = a.getD k 0 := by
  obtain ⟨c, rfl⟩ := h
  rw [List.getD_eq_getElem?_getD, List.getElem?_append_left hk, ← List.getD_eq_getElem?_getD]

/-- The words of a block stand at the start of its schedule. -/
theorem messageSchedule_low (m : List Byte) {t : Nat} (ht : t < 16) :
    (messageSchedule m).getD t 0 = (blockWords m).getD t 0 :=
  getD_of_isPrefix (extendSchedule_isPrefix _ (Nat.zero_le 48)) (by rw [extendSchedule_length, blockWords_length]; omega)

/-- The later words of the schedule, each from the words before it. -/
theorem messageSchedule_high (m : List Byte) {n : Nat} (hn : n < 48) :
    (messageSchedule m).getD (16 + n) 0 = scheduleNext (extendSchedule n (blockWords m)) := by
  have hp := extendSchedule_isPrefix (blockWords m) (show n + 1 ≤ 48 by omega)
  have hl : (extendSchedule n (blockWords m)).length = 16 + n := by rw [extendSchedule_length, blockWords_length]
  rw [messageSchedule, getD_of_isPrefix hp (by rw [extendSchedule_length, blockWords_length]; omega),
    extendSchedule_succ, List.getD_eq_getElem?_getD, List.getElem?_append_right (by omega), hl]
  simp

/-- `W[t]` depends on the last 16 words only, so a 16-word window gives the same words (R127). -/
theorem scheduleNext_drop (w : List Word) (n : Nat) (h : w.length = 16 + n) :
    scheduleNext (w.drop n) = scheduleNext w := by
  have e : (w.drop n).length = 16 := by rw [List.length_drop, h]; omega
  have g : ∀ k, (w.drop n).getD k 0 = w.getD (n + k) 0 := by
    intro k; simp [List.getD_eq_getElem?_getD, List.getElem?_drop]
  simp only [scheduleNext, e, h, g]
  congr 2 <;> (try congr 2) <;> (try congr 1) <;> (try omega)

/-! ### Cycles of the unit -/

/-- The inputs in a cycle with nothing to offer. -/
def shaQuiet : ShaIn := ⟨false, false, 0, false, false⟩

/-- The inputs in a cycle that offers a byte. -/
def shaOffer (b : StreamBeat) : ShaIn := ⟨false, true, b.byte, b.last, false⟩

/-- Cycles with a byte stream at the input until `dig_valid`, at most `n`: the head of the stream is offered until it is
taken (R134). -/
def shaDrive : Nat → List StreamBeat → ShaRegs → ShaRegs
  | 0, _, r => r
  | n + 1, [], r => if (shaOut r).digValid then r else shaDrive n [] (shaClock shaQuiet r)
  | n + 1, b :: rest, r =>
    if (shaOut r).digValid then r
    else if (shaOut r).inReady then shaDrive n rest (shaClock (shaOffer b) r)
    else shaDrive n (b :: rest) (shaClock (shaOffer b) r)

/-- Outside `absorb` the unit looks at no byte that is offered. -/
theorem shaClock_offer {r : ShaRegs} (h : r.phase ≠ .absorb) (b : StreamBeat) :
    shaClock (shaOffer b) r = shaClock shaQuiet r := by
  cases hp : r.phase <;> simp_all [shaClock, shaOffer, shaQuiet]

/-- A cycle outside `absorb` and `digest` leaves the stream as it is. -/
theorem shaDrive_busy {r : ShaRegs} (h : r.phase ≠ .absorb ∧ r.phase ≠ .digest) (n : Nat) (beats : List StreamBeat) :
    shaDrive (n + 1) beats r = shaDrive n beats (shaClock shaQuiet r) := by
  cases beats with
  | nil => simp [shaDrive, shaOut, h.2]
  | cons b beats => simp [shaDrive, shaOut, h.1, h.2, shaClock_offer h.1]

/-- A cycle in `absorb` takes the byte that is offered. -/
theorem shaDrive_absorb {r : ShaRegs} (h : r.phase = .absorb) (n : Nat) (b : StreamBeat) (beats : List StreamBeat) :
    shaDrive (n + 1) (b :: beats) r = shaDrive n beats (shaTake b.byte b.last r) := by
  simp [shaDrive, shaOut, h, shaClock, shaOffer]

/-- With `dig_valid` the digest is taken. -/
theorem shaDrive_digest {r : ShaRegs} (h : r.phase = .digest) (n : Nat) (beats : List StreamBeat) :
    shaDrive n beats r = r := by
  cases n with
  | zero => cases beats <;> rfl
  | succ n => cases beats <;> simp [shaDrive, shaOut, h]

/-- The registers in the rounds of a block, before round `k` (R127, R128). -/
structure InRounds (m : List Byte) (r0 r : ShaRegs) (k : Nat) : Prop where
  work : r.work = shaRounds (messageSchedule m) r0.hash k
  t : r.t = BitVec.ofNat 6 k
  window : r.window = (extendSchedule (k - 16) (blockWords m)).drop (k - 16)
  phase : r.phase = if k = 64 then .update else .rounds
  hash : r.hash = r0.hash
  byteCount : r.byteCount = r0.byteCount
  blockCount : r.blockCount = r0.blockCount
  lastTaken : r.lastTaken = r0.lastTaken
  markPlaced : r.markPlaced = r0.markPlaced
  lengthPlaced : r.lengthPlaced = r0.lengthPlaced

theorem inRounds_load {r : ShaRegs} : InRounds r.block r (shaLoad r) 0 :=
  ⟨rfl, rfl, rfl, rfl, rfl, rfl, rfl, rfl, rfl, rfl⟩

theorem inRounds_succ {m : List Byte} {r0 r : ShaRegs} {k : Nat} (hk : k < 64) (h : InRounds m r0 r k) :
    InRounds m r0 (shaRoundCycle r) (k + 1) := by
  have ht : r.t.toNat = k := by rw [h.t, BitVec.toNat_ofNat]; omega
  have hlen := extendSchedule_length (k - 16) (blockWords m)
  rw [blockWords_length] at hlen
  have hw : shaWord r = (messageSchedule m).getD k 0 := by
    unfold shaWord
    rw [ht, h.window]
    split
    · rename_i h16
      rw [messageSchedule_low m h16, show k - 16 = 0 by omega]; rfl
    · rename_i h16
      rw [scheduleNext_drop _ _ hlen, ← messageSchedule_high m (show k - 16 < 48 by omega)]
      congr 1; omega
  refine ⟨?_, ?_, ?_, ?_, h.hash, h.byteCount, h.blockCount, h.lastTaken, h.markPlaced, h.lengthPlaced⟩
  · simp only [shaRoundCycle, ht, hw, h.work, shaRounds]
  · apply BitVec.eq_of_toNat_eq
    simp [shaRoundCycle, h.t]
  · simp only [shaRoundCycle, ht]
    split
    · rename_i h16
      rw [h.window, show k - 16 = 0 by omega, show k + 1 - 16 = 0 by omega]
    · rename_i h16
      have e : k + 1 - 16 = (k - 16) + 1 := by omega
      have hn : shaWord r = scheduleNext (extendSchedule (k - 16) (blockWords m)) := by
        rw [hw, ← messageSchedule_high m (show k - 16 < 48 by omega)]; congr 1; omega
      rw [h.window, hn, e, extendSchedule_succ, List.drop_append_of_le_length (by omega), List.tail_drop]
  · simp only [shaRoundCycle, ht]
    split <;> split <;> first | rfl | omega

/-- `k` rounds after the load. -/
theorem drive_rounds (r0 : ShaRegs) (hl : r0.phase = .load) (k : Nat) (hk : k ≤ 64) :
    ∃ r, InRounds r0.block r0 r k ∧ ∀ n beats, shaDrive (n + (k + 1)) beats r0 = shaDrive n beats r := by
  induction k with
  | zero =>
    refine ⟨shaLoad r0, inRounds_load, fun n beats => ?_⟩
    rw [shaDrive_busy (by rw [hl]; decide)]
    simp [shaClock, shaQuiet, hl]
  | succ k ih =>
    obtain ⟨r, hr, hd⟩ := ih (by omega)
    have hp : r.phase = .rounds := by rw [hr.phase, if_neg (by omega)]
    refine ⟨shaRoundCycle r, inRounds_succ (by omega) hr, fun n beats => ?_⟩
    rw [show n + (k + 1 + 1) = (n + 1) + (k + 1) by omega, hd, shaDrive_busy (by rw [hp]; decide)]
    simp [shaClock, shaQuiet, hp]

/-- What is left of a block after its 66 cycles: its hash value added in, the buffer empty, the counter up by one. -/
structure BlockDone (r0 r : ShaRegs) : Prop where
  hash : r.hash = compress r0.hash r0.block
  block : r.block = []
  blockCount : r.blockCount = r0.blockCount + 1
  byteCount : r.byteCount = r0.byteCount
  lastTaken : r.lastTaken = r0.lastTaken
  markPlaced : r.markPlaced = r0.markPlaced
  lengthPlaced : r.lengthPlaced = r0.lengthPlaced
  phase : r.phase = if r0.lengthPlaced then .digest else if r0.lastTaken then .pad else .absorb

/-- One full block: load, 64 rounds and the update (R126 to R129). -/
theorem drive_block (r0 : ShaRegs) (hl : r0.phase = .load) :
    ∃ r, BlockDone r0 r ∧ ∀ n beats, shaDrive (n + 66) beats r0 = shaDrive n beats r := by
  obtain ⟨r, hr, hd⟩ := drive_rounds r0 hl 64 (by omega)
  have hp : r.phase = .update := by rw [hr.phase, if_pos rfl]
  refine ⟨shaUpdate r, ⟨?_, rfl, ?_, hr.byteCount, hr.lastTaken, hr.markPlaced, hr.lengthPlaced, ?_⟩, fun n beats => ?_⟩
  · simp only [shaUpdate, hr.hash, hr.work, compress]
  · simp only [shaUpdate, hr.blockCount]
  · simp only [shaUpdate, hr.lastTaken, hr.lengthPlaced]
  · rw [show n + 66 = (n + 1) + (64 + 1) by omega, hd, shaDrive_busy (by rw [hp]; decide)]
    simp [shaClock, shaQuiet, hp]

/-! ### The padded input (R124 to R126) -/

theorem padZeroCount_short {len : Nat} (h : len % 64 ≤ 55) : padZeroCount len = 55 - len % 64 := by
  unfold padZeroCount; omega

theorem padZeroCount_long {len : Nat} (h : 56 ≤ len % 64) : padZeroCount len = 119 - len % 64 := by
  unfold padZeroCount; omega

theorem blockCountOf_short {len : Nat} (h : len % 64 ≤ 55) : blockCountOf len = len / 64 + 1 := by
  unfold blockCountOf; omega

theorem blockCountOf_long {len : Nat} (h : 56 ≤ len % 64) : blockCountOf len = len / 64 + 2 := by
  unfold blockCountOf; omega

theorem padMessage_length (s : List Byte) : (padMessage s).length = 64 * blockCountOf s.length := by
  simp only [padMessage, List.length_append, List.length_singleton, zeros_length, i2osp_length]
  rcases Nat.lt_or_ge (s.length % 64) 56 with h | h
  · rw [padZeroCount_short (by omega), blockCountOf_short (by omega)]; omega
  · rw [padZeroCount_long h, blockCountOf_long h]; omega

/-- A block inside `a` is a block of `a ++ b`. -/
theorem slice_append_left {a b : List Byte} {i j : Nat} (h : j ≤ a.length) : slice (a ++ b) i j = slice a i j := by
  unfold slice
  rcases Nat.lt_or_ge i j with hij | hij
  · rw [List.drop_append_of_le_length (by omega), List.take_append_of_le_length (by rw [List.length_drop]; omega)]
  · rw [show j - i = 0 by omega]; simp

/-- The last block when the length field fits behind the message's last bytes. -/
theorem pad_block_short {s : List Byte} (h : s.length % 64 ≤ 55) :
    slice (padMessage s) (64 * (s.length / 64)) (64 * (s.length / 64) + 64) =
      s.drop (64 * (s.length / 64)) ++ [0x80] ++ zeros (55 - s.length % 64) ++ i2osp (8 * s.length) 8 := by
  have hd : (s.drop (64 * (s.length / 64))).length = s.length % 64 := by rw [List.length_drop]; omega
  unfold slice padMessage
  rw [padZeroCount_short h, List.append_assoc, List.append_assoc, List.drop_append_of_le_length (by omega),
    List.take_of_length_le]
  · simp
  · simp only [List.length_append, hd, List.length_singleton, zeros_length, i2osp_length]; omega

/-- The block with the byte 0x80 when the length field does not fit any more. -/
theorem pad_block_mark {s : List Byte} (h : 56 ≤ s.length % 64) :
    slice (padMessage s) (64 * (s.length / 64)) (64 * (s.length / 64) + 64) =
      s.drop (64 * (s.length / 64)) ++ [0x80] ++ zeros (63 - s.length % 64) := by
  have hd : (s.drop (64 * (s.length / 64))).length = s.length % 64 := by rw [List.length_drop]; omega
  have hz : zeros (119 - s.length % 64) = zeros (63 - s.length % 64) ++ zeros 56 := by
    unfold zeros; rw [List.replicate_append_replicate]; congr 1; omega
  unfold slice padMessage
  rw [padZeroCount_long h, hz]
  have : s ++ [(0x80 : Byte)] ++ (zeros (63 - s.length % 64) ++ zeros 56) ++ i2osp (8 * s.length) 8 =
      s ++ (([(0x80 : Byte)] ++ zeros (63 - s.length % 64)) ++ (zeros 56 ++ i2osp (8 * s.length) 8)) := by
    simp [List.append_assoc]
  rw [this, List.drop_append_of_le_length (by omega), ← List.append_assoc, List.take_append_of_le_length, List.take_of_length_le]
  · simp
  · simp only [List.length_append, hd, List.length_singleton, zeros_length]; omega
  · simp only [List.length_append, hd, List.length_singleton, zeros_length]; omega

/-- The block with the length field alone. -/
theorem pad_block_length {s : List Byte} (h : 56 ≤ s.length % 64) :
    slice (padMessage s) (64 * (s.length / 64 + 1)) (64 * (s.length / 64 + 1) + 64) =
      zeros 56 ++ i2osp (8 * s.length) 8 := by
  have hz : zeros (119 - s.length % 64) = zeros (63 - s.length % 64) ++ zeros 56 := by
    unfold zeros; rw [List.replicate_append_replicate]; congr 1; omega
  unfold slice padMessage
  rw [padZeroCount_long h, hz]
  have : s ++ [(0x80 : Byte)] ++ (zeros (63 - s.length % 64) ++ zeros 56) ++ i2osp (8 * s.length) 8 =
      (s ++ [(0x80 : Byte)] ++ zeros (63 - s.length % 64)) ++ (zeros 56 ++ i2osp (8 * s.length) 8) := by
    simp [List.append_assoc]
  rw [this, List.drop_append_of_le_length, List.drop_of_length_le, List.nil_append, List.take_of_length_le]
  · simp
  · simp only [List.length_append, List.length_singleton, zeros_length]; omega
  · simp only [List.length_append, List.length_singleton, zeros_length]; omega

/-! ### From the last byte to the digest -/

/-- A finished hash of `s`, in the cycle of `dig_valid`. -/
structure Hashed (s : List Byte) (r : ShaRegs) : Prop where
  hash : digestBytes r.hash = sha256 s
  blockCount : r.blockCount = blockCountOf s.length
  phase : r.phase = .digest

/-- The unit when all of `s` has been taken and padding is next. -/
structure Taken (s : List Byte) (r : ShaRegs) : Prop where
  hash : r.hash = compressBlocks initialHash (padMessage s) (s.length / 64)
  block : r.block = s.drop (64 * (s.length / 64))
  byteCount : r.byteCount = BitVec.ofNat 16 s.length
  blockCount : r.blockCount = s.length / 64
  lastTaken : r.lastTaken = true
  markPlaced : r.markPlaced = false
  lengthPlaced : r.lengthPlaced = false
  phase : r.phase = .pad

/-- A padded block with the length field, loaded: 66 cycles later the digest stands. -/
theorem drive_final {s : List Byte} {r : ShaRegs} {q : Nat} (hl : r.phase = .load) (hg : r.lengthPlaced = true)
    (hh : r.hash = compressBlocks initialHash (padMessage s) q)
    (hb : r.block = slice (padMessage s) (64 * q) (64 * q + 64)) (hq : q + 1 = blockCountOf s.length)
    (hc : r.blockCount = q) :
    ∃ r', Hashed s r' ∧ ∀ n beats, shaDrive (n + 66) beats r = shaDrive n beats r' := by
  obtain ⟨r1, h1, hd⟩ := drive_block r hl
  refine ⟨r1, ⟨?_, ?_, by rw [h1.phase, hg]; rfl⟩, hd⟩
  · rw [h1.hash, hh, hb, sha256, ← hq]; rfl
  · rw [h1.blockCount, hc, hq]

/-- From the last byte taken to the digest. -/
theorem drive_padding {s : List Byte} {r : ShaRegs} (hs : s.length < 65536) (h : Taken s r) :
    ∃ r', Hashed s r' ∧ ∃ k, k ≤ 67 * (blockCountOf s.length - s.length / 64) + 1 ∧
      ∀ n beats, shaDrive (n + k) beats r = shaDrive n beats r' := by
  have hd : (s.drop (64 * (s.length / 64))).length = s.length % 64 := by rw [List.length_drop]; omega
  have hbc : r.byteCount.toNat = s.length := by rw [h.byteCount, BitVec.toNat_ofNat]; omega
  have hm : shaMarked r = s.drop (64 * (s.length / 64)) ++ [0x80] := by
    simp [shaMarked, h.markPlaced, h.block]
  have hml : (shaMarked r).length = s.length % 64 + 1 := by rw [hm, List.length_append, hd]; rfl
  have hstep : ∀ n beats, shaDrive (n + 1) beats r = shaDrive n beats (shaPad r) := by
    intro n beats
    rw [shaDrive_busy (by rw [h.phase]; decide)]
    simp [shaClock, shaQuiet, h.phase]
  rcases Nat.lt_or_ge (s.length % 64) 56 with hlt | hge
  · have hN := blockCountOf_short (len := s.length) (by omega)
    have hpad : shaPad r = { r with
        block := slice (padMessage s) (64 * (s.length / 64)) (64 * (s.length / 64) + 64)
        markPlaced := true, lengthPlaced := true, phase := .load } := by
      rw [shaPad, if_pos (by omega), pad_block_short (by omega), hml, hm, hbc,
        show 56 - (s.length % 64 + 1) = 55 - s.length % 64 by omega]
    obtain ⟨r', hr', hdr⟩ := drive_final (s := s) (r := shaPad r) (q := s.length / 64)
      (by rw [hpad]) (by rw [hpad]) (by rw [hpad]; exact h.hash) (by rw [hpad]) (by omega)
      (by rw [hpad]; exact h.blockCount)
    exact ⟨r', hr', 67, by omega, fun n beats => by rw [show n + 67 = (n + 66) + 1 by omega, hstep, hdr]⟩
  · have hN := blockCountOf_long (len := s.length) hge
    have hpad : shaPad r = { r with
        block := slice (padMessage s) (64 * (s.length / 64)) (64 * (s.length / 64) + 64)
        markPlaced := true, phase := .load } := by
      rw [shaPad, if_neg (by omega), pad_block_mark hge, hml, hm,
        show 64 - (s.length % 64 + 1) = 63 - s.length % 64 by omega]
    obtain ⟨r1, h1, hd1⟩ := drive_block (shaPad r) (by rw [hpad])
    have hp1 : r1.phase = .pad := by
      rw [h1.phase, hpad]; simp [h.lengthPlaced, h.lastTaken]
    have hbc1 : r1.byteCount.toNat = s.length := by rw [h1.byteCount, hpad]; exact hbc
    have hm1 : shaMarked r1 = [] := by
      have : r1.markPlaced = true := by rw [h1.markPlaced, hpad]
      simp [shaMarked, this, h1.block]
    have hpad1 : shaPad r1 = { r1 with
        block := slice (padMessage s) (64 * (s.length / 64 + 1)) (64 * (s.length / 64 + 1) + 64)
        markPlaced := true, lengthPlaced := true, phase := .load } := by
      rw [shaPad, hm1, if_pos (by simp), pad_block_length hge, hbc1]; simp
    have hh1 : r1.hash = compressBlocks initialHash (padMessage s) (s.length / 64 + 1) := by
      rw [h1.hash, hpad]; simp only [h.hash]; rfl
    obtain ⟨r', hr', hdr⟩ := drive_final (s := s) (r := shaPad r1) (q := s.length / 64 + 1)
      (by rw [hpad1]) (by rw [hpad1]) (by rw [hpad1]; exact hh1) (by rw [hpad1]) (by omega)
      (by rw [hpad1]; show r1.blockCount = _; rw [h1.blockCount, hpad]; simp [h.blockCount])
    refine ⟨r', hr', 134, by omega, fun n beats => ?_⟩
    rw [show n + 134 = ((n + 66) + 1 + 66) + 1 by omega, hstep, hd1, shaDrive_busy (by rw [hp1]; decide),
      show shaClock shaQuiet r1 = shaPad r1 by simp [shaClock, shaQuiet, hp1], hdr]

/-! ### Taking the bytes -/

/-- The unit while it takes the bytes of `s`, with `p` taken. -/
structure Absorbing (s p : List Byte) (r : ShaRegs) : Prop where
  hash : r.hash = compressBlocks initialHash (padMessage s) (p.length / 64)
  block : r.block = p.drop (64 * (p.length / 64))
  byteCount : r.byteCount = BitVec.ofNat 16 p.length
  blockCount : r.blockCount = p.length / 64
  markPlaced : r.markPlaced = false
  lengthPlaced : r.lengthPlaced = false
  phase : r.phase = .absorb

/-- A byte string as a stream: `out_last` goes with the last byte (R171, R173). -/
def toBeats : List Byte → List StreamBeat
  | [] => []
  | [b] => [⟨b, true⟩]
  | b :: c :: s => ⟨b, false⟩ :: toBeats (c :: s)

theorem toBeats_cons (b : Byte) (s : List Byte) : toBeats (b :: s) = ⟨b, s.isEmpty⟩ :: toBeats s := by
  cases s <;> rfl

@[simp] theorem toBeats_length (s : List Byte) : (toBeats s).length = s.length := by
  induction s with
  | nil => rfl
  | cons b s ih => rw [toBeats_cons, List.length_cons, ih, List.length_cons]

/-- Taking one more byte: still absorbing, or all taken. -/
theorem drive_take {p rest : List Byte} {b : Byte} {r : ShaRegs} (h : Absorbing (p ++ b :: rest) p r) :
    ∃ r', (if rest = [] then Taken (p ++ [b]) r' else Absorbing (p ++ b :: rest) (p ++ [b]) r') ∧
      ∃ k, k ≤ 1 + 66 * ((p ++ [b]).length / 64 - p.length / 64) ∧
        ∀ n, shaDrive (n + k) (toBeats (b :: rest)) r = shaDrive n (toBeats rest) r' := by
  have hlen : (p ++ [b]).length = p.length + 1 := by simp
  have hdl : (p.drop (64 * (p.length / 64))).length = p.length % 64 := by rw [List.length_drop]; omega
  have hbl : r.block.length = p.length % 64 := by rw [h.block, hdl]
  have hcnt : r.byteCount + 1 = BitVec.ofNat 16 (p.length + 1) := by
    rw [h.byteCount]; apply BitVec.eq_of_toNat_eq; simp
  have hone : ∀ n, shaDrive (n + 1) (toBeats (b :: rest)) r =
      shaDrive n (toBeats rest) (shaTake b rest.isEmpty r) := by
    intro n; rw [toBeats_cons, shaDrive_absorb h.phase]
  by_cases hfull : p.length % 64 = 63
  · have hq : (p.length + 1) / 64 = p.length / 64 + 1 := by omega
    have hr1 : (shaTake b rest.isEmpty r).phase = .load := by simp [shaTake, hbl, hfull]
    obtain ⟨r', h1, hd⟩ := drive_block _ hr1
    have hblk : (shaTake b rest.isEmpty r).block =
        slice (padMessage (p ++ b :: rest)) (64 * (p.length / 64)) (64 * (p.length / 64) + 64) := by
      have e : padMessage (p ++ b :: rest) = (p ++ [b]) ++ (rest ++ [0x80] ++
          zeros (padZeroCount (p ++ b :: rest).length) ++ i2osp (8 * (p ++ b :: rest).length) 8) := by
        simp [padMessage]
      rw [e, slice_append_left (by rw [hlen]; omega), slice,
        List.drop_append_of_le_length (by omega), List.take_of_length_le (by
          rw [List.length_append, hdl]; simp; omega)]
      simp [shaTake, h.block]
    have hhash : r'.hash = compressBlocks initialHash (padMessage (p ++ b :: rest)) ((p.length + 1) / 64) := by
      rw [h1.hash, hblk, hq]; simp only [shaTake, h.hash]; rfl
    have hblock : r'.block = (p ++ [b]).drop (64 * ((p.length + 1) / 64)) := by
      rw [h1.block, List.drop_of_length_le (by rw [hlen]; omega)]
    have hbc : r'.byteCount = BitVec.ofNat 16 (p.length + 1) := by rw [h1.byteCount]; exact hcnt
    have hkc : r'.blockCount = (p.length + 1) / 64 := by
      rw [h1.blockCount, hq]; simp only [shaTake, h.blockCount]
    have hmk : r'.markPlaced = false := by rw [h1.markPlaced]; exact h.markPlaced
    have hlp : r'.lengthPlaced = false := by rw [h1.lengthPlaced]; exact h.lengthPlaced
    have hph : r'.phase = if rest.isEmpty then .pad else .absorb := by
      rw [h1.phase]; simp [shaTake, h.lengthPlaced]
    refine ⟨r', ?_, 67, by rw [hlen]; omega, fun n => ?_⟩
    · split
      · rename_i he; subst he
        exact ⟨by rw [hlen]; simpa using hhash, by rw [hlen]; exact hblock, by rw [hlen]; exact hbc,
          by rw [hlen]; exact hkc, by rw [h1.lastTaken]; rfl, hmk, hlp, by rw [hph]; rfl⟩
      · rename_i he
        exact ⟨by rw [hlen]; exact hhash, by rw [hlen]; exact hblock, by rw [hlen]; exact hbc,
          by rw [hlen]; exact hkc, hmk, hlp, by rw [hph]; simp [he]⟩
    · rw [show n + 67 = (n + 66) + 1 by omega, hone, hd]
  · have hq : (p.length + 1) / 64 = p.length / 64 := by omega
    have hdrop : (p ++ [b]).drop (64 * (p.length / 64)) = p.drop (64 * (p.length / 64)) ++ [b] :=
      List.drop_append_of_le_length (by omega)
    have hph : (shaTake b rest.isEmpty r).phase = if rest.isEmpty then .pad else .absorb := by
      simp only [shaTake, hbl]; rw [if_neg (by omega)]
    refine ⟨shaTake b rest.isEmpty r, ?_, 1, by omega, hone⟩
    split
    · rename_i he; subst he
      exact ⟨by rw [hlen, hq]; simpa [shaTake] using h.hash, by rw [hlen, hq, hdrop]; simp [shaTake, h.block],
        by rw [hlen]; exact hcnt, by rw [hlen, hq]; exact h.blockCount, rfl, h.markPlaced, h.lengthPlaced,
        by rw [hph]; rfl⟩
    · rename_i he
      exact ⟨by rw [hlen, hq]; exact h.hash, by rw [hlen, hq, hdrop]; simp [shaTake, h.block],
        by rw [hlen]; exact hcnt, by rw [hlen, hq]; exact h.blockCount, h.markPlaced, h.lengthPlaced,
        by rw [hph]; simp [he]⟩

/-- From the middle of a stream to the digest. -/
theorem drive_rest {p rest : List Byte} {r : ShaRegs} (hs : (p ++ rest).length < 65536) (hne : rest ≠ [])
    (h : Absorbing (p ++ rest) p r) :
    ∃ r', Hashed (p ++ rest) r' ∧ ∃ k, k ≤ rest.length + 67 * (blockCountOf (p ++ rest).length - p.length / 64) + 1 ∧
      ∀ n, shaDrive (n + k) (toBeats rest) r = shaDrive n [] r' := by
  induction rest generalizing p r with
  | nil => exact absurd rfl hne
  | cons b rest ih =>
    obtain ⟨r1, h1, k1, hk1, hd1⟩ := drive_take h
    have hN : (p ++ b :: rest).length / 64 ≤ blockCountOf (p ++ b :: rest).length := by
      unfold blockCountOf; omega
    have hmono : (p ++ [b]).length / 64 ≤ (p ++ b :: rest).length / 64 :=
      Nat.div_le_div_right (by simp)
    have hlow : p.length / 64 ≤ (p ++ [b]).length / 64 := Nat.div_le_div_right (by simp)
    by_cases he : rest = []
    · subst he
      rw [if_pos rfl] at h1
      obtain ⟨r', hr', k, hk, hd⟩ := drive_padding hs h1
      refine ⟨r', hr', k + k1, ?_, fun n => ?_⟩
      · simp only [List.length_singleton]; omega
      · rw [← Nat.add_assoc, hd1]; exact hd n []
    · rw [if_neg he, show p ++ b :: rest = (p ++ [b]) ++ rest by simp] at h1
      obtain ⟨r', hr', k, hk, hd⟩ := ih (p := p ++ [b]) (by simpa using hs) he h1
      rw [show (p ++ [b]) ++ rest = p ++ b :: rest by simp] at hr' hk
      refine ⟨r', hr', k + k1, ?_, fun n => ?_⟩
      · simp only [List.length_cons]; omega
      · rw [← Nat.add_assoc, hd1]; exact hd n

/-- The unit computes SHA256 (R131): from any registers, after `start` the stream of `s` comes to `dig_valid` with its
digest and its block count. The length bound is the byte counter's width (R135). -/
theorem shaDrive_hashed (s : List Byte) (hs : s.length < 65536) (r : ShaRegs) :
    Hashed s (shaDrive (shaCycles s.length) (toBeats s) (shaStart s.isEmpty r)) := by
  have hN : s.length / 64 + 1 ≤ blockCountOf s.length := by unfold blockCountOf; omega
  cases s with
  | nil =>
    have ht : Taken [] (shaStart true r) := ⟨rfl, rfl, rfl, rfl, rfl, rfl, rfl, rfl⟩
    obtain ⟨r', hr', k, hk, hd⟩ := drive_padding (by simp) ht
    have e : shaCycles 0 = (shaCycles 0 - k) + k := by
      unfold shaCycles
      have : blockCountOf ([] : List Byte).length = 1 := rfl
      have : blockCountOf 0 = 1 := rfl
      simp only [List.length_nil] at hk hN ⊢
      omega
    show Hashed [] (shaDrive (shaCycles 0) [] (shaStart true r))
    rw [e, hd, shaDrive_digest hr'.phase]
    exact hr'
  | cons b s =>
    have ha : Absorbing ([] ++ b :: s) [] (shaStart false r) := ⟨rfl, rfl, rfl, rfl, rfl, rfl, rfl⟩
    obtain ⟨r', hr', k, hk, hd⟩ := drive_rest (by simpa using hs) (by simp) ha
    have e : shaCycles (b :: s).length = (shaCycles (b :: s).length - k) + k := by
      unfold shaCycles
      simp only [List.nil_append, List.length_nil] at hk
      omega
    show Hashed (b :: s) (shaDrive (shaCycles (b :: s).length) (toBeats (b :: s)) (shaStart false r))
    rw [e, hd, shaDrive_digest hr'.phase]
    exact hr'

end Sys2Proof.Machine
end

