-- ==== Sys2Proof/Laws/Mixer.lean ====
section
/-! SUPPORT. What the clocked mixer emits (41_xor_message_domain_mixer.md R167 to R173), and what the mixer and the hash
unit do together: the digest of the mixer's bytes. -/

namespace Sys2Proof.Machine

/-- The byte that a source stands for. -/
def sourceByte (s : State) : MixerSource → Byte
  | .datapath b => b
  | .buffer off => s.byteAt off.toNat

/-- The byte string that the mixer emits for its control inputs. -/
def mixerBytes (c : MixerControl) (s : State) : List Byte := (mixerSources c).map (sourceByte s)

@[simp] theorem fromDatapath_bytes (s : State) (bs : List Byte) : (fromDatapath bs).map (sourceByte s) = bs := by
  rw [fromDatapath, List.map_map]
  exact List.map_id bs

/-- The read port reads the buffer bytes in order, where the offsets fit its 16 address bits (R82). -/
theorem fromBuffer_bytes (s : State) {base n : Nat} (h : base + n ≤ 65536) :
    (fromBuffer base n).map (sourceByte s) = s.memRead base n := by
  rw [fromBuffer, State.memRead, List.map_map]
  refine List.map_congr_left fun k hk => ?_
  have := List.mem_range.mp hk
  simp only [Function.comp_apply, sourceByte, BitVec.toNat_ofNat]
  rw [Nat.mod_eq_of_lt (by omega)]

@[simp] theorem fromDatapath_length (bs : List Byte) : (fromDatapath bs).length = bs.length := by simp [fromDatapath]

@[simp] theorem fromBuffer_length (base n : Nat) : (fromBuffer base n).length = n := by simp [fromBuffer]

theorem dstPrimeSources_bytes (c : MixerControl) (s : State) :
    (dstPrimeSources c).map (sourceByte s) = dstPrime (s.memRead dstBufBase c.dstLen.toNat) := by
  have := c.dstLen.isLt
  rw [dstPrimeSources, List.map_append, fromDatapath_bytes, fromBuffer_bytes s (by unfold dstBufBase; omega), dstPrime,
    memRead_length]

/-- Mode 0 emits msg_prime (R167). -/
theorem mixerBytes_mode0 {c : MixerControl} (hm : c.mode = 0) (hl : c.msgLen.toNat ≤ 0xC000) (s : State) :
    mixerBytes c s =
      mixMsgPrime (s.memRead dstBufBase c.dstLen.toNat) (s.memRead msgBufBase c.msgLen.toNat) c.outLen.toNat := by
  rw [mixerBytes, mixerSources, if_pos hm]
  simp only [List.map_append, fromDatapath_bytes, dstPrimeSources_bytes,
    fromBuffer_bytes s (base := msgBufBase) (n := c.msgLen.toNat) (by unfold msgBufBase; omega), mixMsgPrime, List.append_assoc]

/-- Mode 1 emits in1 (R168). -/
theorem mixerBytes_mode1 {c : MixerControl} (hm : c.mode = 1) (s : State) :
    mixerBytes c s = mixFirst (wideBytes c.b0) (s.memRead dstBufBase c.dstLen.toNat) := by
  rw [mixerBytes, mixerSources, if_neg (by rw [hm]; decide), if_pos hm]
  simp only [List.map_append, fromDatapath_bytes, dstPrimeSources_bytes, mixFirst, List.append_assoc]

/-- Mode 2 emits in_j (R169). -/
theorem mixerBytes_mode2 {c : MixerControl} (hm : c.mode = 2) (s : State) :
    mixerBytes c s =
      mixChain (wideBytes c.b0) (wideBytes c.bprev) (s.memRead dstBufBase c.dstLen.toNat) c.j.toNat := by
  rw [mixerBytes, mixerSources, if_neg (by rw [hm]; decide), if_neg (by rw [hm]; decide), if_pos hm]
  simp only [List.map_append, fromDatapath_bytes, dstPrimeSources_bytes, mixChain, List.append_assoc]

/-- How many bytes each mode emits (R171). -/
theorem mixerSources_length (c : MixerControl) :
    (mixerSources c).length =
      if c.mode = 0 then c.msgLen.toNat + c.dstLen.toNat + 68
      else if c.mode = 1 ∨ c.mode = 2 then c.dstLen.toNat + 34 else 0 := by
  unfold mixerSources dstPrimeSources xor32
  by_cases h0 : c.mode = 0
  · simp [h0, zpadLen]; omega
  · by_cases h1 : c.mode = 1
    · simp [h1]; omega
    · by_cases h2 : c.mode = 2
      · simp [h2]; omega
      · rw [if_neg h0, if_neg h1, if_neg h2, if_neg h0, if_neg (not_or.mpr ⟨h1, h2⟩)]; rfl

/-! ### The mixer's outputs -/

/-- With nothing left the mixer offers nothing. -/
theorem mixerOut_nil (p : MixerIn) : mixerOut p ⟨[]⟩ = ⟨none, false, 0, false, false⟩ := rfl

/-- The mixer offers its next byte, `out_last` with the last one (R173). -/
theorem mixerOut_cons (c : MixerControl) (ready : Bool) (s : State) (x : MixerSource) (l : List MixerSource) :
    mixerOut (mixerInputs c ready s ⟨x :: l⟩) ⟨x :: l⟩ =
      ⟨mixerReadAddr ⟨x :: l⟩, true, sourceByte s x, l.isEmpty, false⟩ := by
  cases x <;> rfl

/-- `out_empty` is never asserted (R173). -/
theorem mixerOut_outEmpty (p : MixerIn) (g : MixerRegs) : (mixerOut p g).outEmpty = false := by
  unfold mixerOut
  split <;> rfl

theorem mixerBeats_eq (c : MixerControl) (hg : c.go = false) (s : State) (l : List MixerSource) :
    mixerBeats c s l.length ⟨l⟩ = toBeats (l.map (sourceByte s)) := by
  induction l with
  | nil => rfl
  | cons x l ih =>
    have hc : mixerClock (mixerInputs c true s ⟨x :: l⟩) ⟨x :: l⟩ = ⟨l⟩ := by simp [mixerClock, mixerInputs, hg]
    rw [List.length_cons, mixerBeats]
    simp only [mixerOut_cons, hc, ih, if_true, List.map_cons, toBeats_cons]
    cases l <;> rfl

/-- The stream that the mixer emits is its bytes in order, `out_last` with the last (R171, R173). -/
theorem mixerStream_eq (c : MixerControl) (s : State) : mixerStream c s = toBeats (mixerBytes c s) :=
  mixerBeats_eq _ rfl s _

/-! ### The mixer and the hash unit together -/

/-- While neither is started, the joined units do what the hash unit does with the mixer's bytes as its stream. -/
theorem pathRun_sha {o : PipelineOut} (hs : o.hashStart = false) (hg : o.mixer.go = false) (s : State) (n : Nat)
    (l : List MixerSource) (r : ShaRegs) :
    (pathRun o s n ⟨⟨l⟩, r⟩).sha = shaDrive n (toBeats (l.map (sourceByte s))) r := by
  induction n generalizing l r with
  | zero => cases hb : toBeats (l.map (sourceByte s)) <;> rfl
  | succ n ih =>
    rw [pathRun]
    cases l with
    | nil =>
      have hc : pathClock o s ⟨⟨[]⟩, r⟩ = ⟨⟨[]⟩, shaClock shaQuiet r⟩ := by
        simp only [pathClock, mixerOut_nil, mixerClock, mixerInputs, hs, hg, shaQuiet, Bool.false_eq_true, if_false]
        cases (shaOut r).inReady <;> rfl
      rw [hc]
      simp only [List.map_nil, toBeats, shaDrive]
      split
      · rfl
      · rw [ih]; rfl
    | cons x l =>
      have hc : pathClock o s ⟨⟨x :: l⟩, r⟩ = ⟨if (shaOut r).inReady then ⟨l⟩ else ⟨x :: l⟩,
          shaClock (shaOffer ⟨sourceByte s x, l.isEmpty⟩) r⟩ := by
        simp only [pathClock, mixerOut_cons, hs, shaOffer]
        simp only [mixerClock, mixerInputs, hg, List.tail_cons, Bool.false_eq_true, if_false]
        rfl
      have hb : toBeats ((x :: l).map (sourceByte s)) =
          ⟨sourceByte s x, l.isEmpty⟩ :: toBeats (l.map (sourceByte s)) := by
        rw [List.map_cons, toBeats_cons]; cases l <;> rfl
      rw [hc, hb, shaDrive]
      split
      · rfl
      · split
        · exact ih l _
        · rw [← hb]; exact ih (x :: l) _

/-- One whole hash of the pipeline: where its launch cycle starts the mixer and the hash unit on a stream that is not
empty and fits the byte counter (R135), it takes the digest of the mixer's bytes. -/
theorem pipelineHash_eq {p : PipelineIn} {q : Seq} {s : State} {c : MixerControl}
    (hl : pipelineOut p q true s = ⟨{ c with go := true }, true, (pipelineOut p q true s).expbufWrite,
      (pipelineOut p q true s).done⟩)
    (hw : (pipelineOut p q false s).hashStart = false ∧ (pipelineOut p q false s).mixer.go = false)
    (hne : mixerBytes c s ≠ []) (hlt : (mixerBytes c s).length < 65536) :
    ∃ r : ShaRegs, pipelineHash p q s = some ({ p with dig := bytesWide (sha256 (mixerBytes c s)), digValid := true }, r) ∧
      r.blockCount = blockCountOf (mixerBytes c s).length := by
  obtain ⟨hs, hg⟩ := hw
  have hm : (pipelineOut p q true s).mixer = { c with go := true } := by rw [hl]
  have hstart : (pipelineOut p q true s).hashStart = true := by rw [hl]
  have hsrc : mixerSources { c with go := true } = mixerSources c := rfl
  have h0 : pathClock (pipelineOut p q true s) s ⟨⟨[]⟩, s.sha⟩ = ⟨⟨mixerSources c⟩, shaStart false s.sha⟩ := by
    simp [pathClock, mixerOut_nil, mixerClock, mixerInputs, hm, hstart, shaClock, hsrc]
  have hlen : (mixerSources c).length = (mixerBytes c s).length := by rw [mixerBytes, List.length_map]
  have hemp : (mixerBytes c s).isEmpty = false := by
    cases h : mixerBytes c s with
    | nil => exact absurd h hne
    | cons => rfl
  have hd := shaDrive_hashed (mixerBytes c s) hlt s.sha
  rw [hemp] at hd
  have hr := pathRun_sha hs hg s (shaCycles (mixerBytes c s).length) (mixerSources c) (shaStart false s.sha)
  unfold pipelineHash
  simp only [hm, hsrc, h0, hlen]
  change _ = shaDrive _ (toBeats (mixerBytes c s)) _ at hr
  generalize pathRun (pipelineOut p q false s) s (shaCycles (mixerBytes c s).length)
    ⟨⟨mixerSources c⟩, shaStart false s.sha⟩ = h at hr ⊢
  rw [← hr] at hd
  have hv : (shaOut h.sha).digValid = true := by simp [shaOut, hd.phase]
  have hdig : (shaOut h.sha).dig = bytesWide (sha256 (mixerBytes c s)) := by rw [← hd.hash]; rfl
  rw [if_pos hv, hdig]
  refine ⟨_, rfl, ?_⟩
  simp only [pathClock, shaClock, hs, Bool.false_eq_true, if_false, hd.phase]
  exact hd.blockCount

end Sys2Proof.Machine
end

