-- ==== Sys2Proof/Laws/Engine.lean ====
section
/-! SUPPORT. What each engine turn can do, in terms of the byte strings of 41_xor_message_domain_mixer.md and the
functions of 40, 42, 43 and 44. The bounds are those that acceptance guarantees (60_exceptions.md R254); they make the
ports wide enough (R173, R199, R205). -/

namespace Sys2Proof.Machine

/-- The bounds on a held command that acceptance guarantees, with expansion length `lx` (R182, R232). -/
structure PortBounds (lx : Nat) (s : State) : Prop where
  dstLen : s.snap.dstLen.toNat ≤ 32
  msgLen : s.snap.msgLen.toNat ≤ 0xC000
  outLen : lx ≤ 8160

/-- The tag as the snapshot delimits it (R82). -/
def heldTag (s : State) : List Byte := s.memRead dstBufBase s.snap.dstLen.toNat

/-- The message as the snapshot delimits it (R82). -/
def heldMessage (s : State) : List Byte := s.memRead msgBufBase s.snap.msgLen.toNat

@[simp] theorem heldTag_length (s : State) : (heldTag s).length = s.snap.dstLen.toNat := memRead_length _ _ _

@[simp] theorem heldMessage_length (s : State) : (heldMessage s).length = s.snap.msgLen.toNat := memRead_length _ _ _

theorem pipelineIn_outLen {lx : Nat} {s : State} (h : PortBounds lx s) (b : Bool) :
    (pipelineIn lx b s).outLen.toNat = lx := by
  have := h.outLen
  simp only [pipelineIn, BitVec.toNat_ofNat]; omega

theorem pipelineIn_dstLen {lx : Nat} {s : State} (h : PortBounds lx s) (b : Bool) :
    (pipelineIn lx b s).dstLen.toNat = s.snap.dstLen.toNat := by
  have := h.dstLen
  simp only [pipelineIn, BitVec.toNat_setWidth]; omega

theorem pipelineIn_msgLen {lx : Nat} {s : State} (h : PortBounds lx s) (b : Bool) :
    (pipelineIn lx b s).msgLen.toNat = s.snap.msgLen.toNat := by
  have := h.msgLen
  simp only [pipelineIn, BitVec.toNat_setWidth]; omega

theorem mixMsgPrime_length (dst msg : List Byte) (n : Nat) :
    (mixMsgPrime dst msg n).length = msg.length + dst.length + 68 := by
  simp [mixMsgPrime, dstPrime, zpadLen]; omega

theorem mixFirst_length {b0 : List Byte} (dst : List Byte) (h : b0.length = 32) :
    (mixFirst b0 dst).length = dst.length + 34 := by
  simp [mixFirst, dstPrime, h]; omega

theorem mixChain_length {b0 bprev : List Byte} (dst : List Byte) (j : Nat) (h0 : b0.length = 32)
    (h1 : bprev.length = 32) : (mixChain b0 bprev dst j).length = dst.length + 34 := by
  simp [mixChain, xor32, dstPrime, h0, h1]; omega

/-- The pipeline's inputs in the cycle in which the hash unit hands over `d` (R199). -/
def withDigest (p : PipelineIn) (d : List Byte) : PipelineIn := { p with dig := bytesWide d, digValid := true }

/-- The hash of EXP_B0 is b0 = SHA256(msg_prime) (R186). -/
theorem pipelineHash_B0 {lx : Nat} {s : State} (h : PortBounds lx s) : ∃ r : ShaRegs,
    pipelineHash (pipelineIn lx false s) .expB0 s =
      some (withDigest (pipelineIn lx false s) (digestZero (heldTag s) (heldMessage s) lx), r) ∧
    r.blockCount = blockCountOf (s.snap.msgLen.toNat + s.snap.dstLen.toNat + 68) := by
  have hb : mixerBytes (driveMixer (pipelineIn lx false s) 0 true 0 s) s = mixMsgPrime (heldTag s) (heldMessage s) lx := by
    have ho : ((pipelineIn lx false s).outLen.setWidth 16).toNat = lx := by
      rw [BitVec.toNat_setWidth, pipelineIn_outLen h]; have := h.outLen; omega
    rw [mixerBytes_mode0 rfl ((pipelineIn_msgLen h false).trans_le h.msgLen)]
    simp only [driveMixer, pipelineIn_dstLen h, pipelineIn_msgLen h, ho, heldTag, heldMessage]
  have hl := congrArg List.length hb
  rw [mixMsgPrime_length, heldTag_length, heldMessage_length] at hl
  have hd := h.dstLen
  have hm := h.msgLen
  obtain ⟨r, hr, hc⟩ := pipelineHash_eq (p := pipelineIn lx false s) (q := .expB0) (s := s)
    (c := driveMixer (pipelineIn lx false s) 0 true 0 s) rfl ⟨rfl, rfl⟩
    (List.ne_nil_of_length_pos (by omega)) (by omega)
  rw [hl] at hc
  rw [hb] at hr
  exact ⟨r, hr, hc⟩

/-- The hash of EXP_B1 is b1 (R187). -/
theorem pipelineHash_B1 {lx : Nat} {s : State} (h : PortBounds lx s) : ∃ r : ShaRegs,
    pipelineHash (pipelineIn lx false s) .expB1 s =
      some (withDigest (pipelineIn lx false s) (sha256 (mixFirst (wideBytes s.b0reg) (heldTag s))), r) ∧
    r.blockCount = blockCountOf (s.snap.dstLen.toNat + 34) := by
  have hb : mixerBytes (driveMixer (pipelineIn lx false s) 1 true 1 s) s = mixFirst (wideBytes s.b0reg) (heldTag s) := by
    rw [mixerBytes_mode1 rfl]
    simp only [driveMixer, pipelineIn_dstLen h, heldTag]
  have hl := congrArg List.length hb
  rw [mixFirst_length _ (wideBytes_length _), heldTag_length] at hl
  have hd := h.dstLen
  obtain ⟨r, hr, hc⟩ := pipelineHash_eq (p := pipelineIn lx false s) (q := .expB1) (s := s)
    (c := driveMixer (pipelineIn lx false s) 1 true 1 s) rfl ⟨rfl, rfl⟩
    (List.ne_nil_of_length_pos (by omega)) (by omega)
  rw [hl] at hc
  rw [hb] at hr
  exact ⟨r, hr, hc⟩

/-- The hash of EXP_BI(j) is b_j (R188). -/
theorem pipelineHash_BI {lx : Nat} {s : State} (h : PortBounds lx s) {j : Nat} (hj : j ≤ 255) : ∃ r : ShaRegs,
    pipelineHash (pipelineIn lx false s) (.expBI j) s =
      some (withDigest (pipelineIn lx false s)
        (sha256 (mixChain (wideBytes s.b0reg) (wideBytes s.bireg) (heldTag s) j)), r) ∧
    r.blockCount = blockCountOf (s.snap.dstLen.toNat + 34) := by
  have hb : mixerBytes (driveMixer (pipelineIn lx false s) 2 true (BitVec.ofNat 8 j) s) s =
      mixChain (wideBytes s.b0reg) (wideBytes s.bireg) (heldTag s) j := by
    have e : (BitVec.ofNat 8 j).toNat = j := by rw [BitVec.toNat_ofNat]; omega
    rw [mixerBytes_mode2 rfl]
    simp only [driveMixer, pipelineIn_dstLen h, heldTag, e]
  have hl := congrArg List.length hb
  rw [mixChain_length _ _ (wideBytes_length _) (wideBytes_length _), heldTag_length] at hl
  have hd := h.dstLen
  obtain ⟨r, hr, hc⟩ := pipelineHash_eq (p := pipelineIn lx false s) (q := .expBI j) (s := s)
    (c := driveMixer (pipelineIn lx false s) 2 true (BitVec.ofNat 8 j) s) rfl ⟨rfl, rfl⟩
    (List.ne_nil_of_length_pos (by omega)) (by omega)
  rw [hl] at hc
  rw [hb] at hr
  exact ⟨r, hr, hc⟩

/-- EXP_B0 puts b0 into B0REG and goes to EXP_B1 (R186, R190). -/
theorem turnB0_spec {lx : Nat} {s : State} (h : PortBounds lx s) : ∃ r : ShaRegs,
    turnB0 (pipelineIn lx false s) s =
      { s with sha := r, b0reg := bytesWide (digestZero (heldTag s) (heldMessage s) lx), seq := .expB1 } ∧
    r.blockCount = blockCountOf (s.snap.msgLen.toNat + s.snap.dstLen.toNat + 68) := by
  obtain ⟨r, hr, hc⟩ := pipelineHash_B0 h
  exact ⟨r, by simp only [turnB0, hr, withDigest], hc⟩

/-- EXP_B1 puts b1 into BIREG and EXPBUF[0..31] and goes on, to AFTER_EXPAND when ell ≤ 1 (R187, R190). -/
theorem turnB1_spec {lx : Nat} {s : State} (h : PortBounds lx s) (q : Seq) : ∃ (r : ShaRegs) (m : Memory),
    turnB1 (pipelineIn lx false s) q s = { s with
      sha := r, bireg := bytesWide (sha256 (mixFirst (wideBytes s.b0reg) (heldTag s))), jreg := 1, expbuf := m
      seq := if lx ≤ 32 then q else .expBI 2 } ∧
    r.blockCount = blockCountOf (s.snap.dstLen.toNat + 34) ∧
    m = Memory.storeBytes s.expbuf 0 (sha256 (mixFirst (wideBytes s.b0reg) (heldTag s))) := by
  obtain ⟨r, hr, hc⟩ := pipelineHash_B1 h
  have hl : ell lx ≤ 1 ↔ lx ≤ 32 := by unfold ell ceilDiv hashLen; omega
  refine ⟨r, _, ?_, hc, rfl⟩
  simp only [turnB1, hr, withDigest, pipelineOut, digestWrite, if_true, applyExpbufWrite, Bool.true_and,
    decide_eq_true_eq, pipelineIn_outLen h, hl, wideBytes_bytesWide (sha256_length _)]
  rfl

/-- EXP_BI(j) puts b_j into BIREG and EXPBUF[32(j-1) .. 32j-1] and goes on, to AFTER_EXPAND when j = ell (R188, R190). -/
theorem turnBI_spec {lx : Nat} {s : State} (h : PortBounds lx s) (q : Seq) {j : Nat} (hj : j ≤ 255) :
    ∃ (r : ShaRegs) (m : Memory),
    turnBI (pipelineIn lx false s) q j s = { s with
      sha := r
      bireg := bytesWide (sha256 (mixChain (wideBytes s.b0reg) (wideBytes s.bireg) (heldTag s) j))
      jreg := BitVec.ofNat 8 j, expbuf := m
      seq := if j = ell lx then q else .expBI (j + 1) } ∧
    r.blockCount = blockCountOf (s.snap.dstLen.toNat + 34) ∧
    m = Memory.storeBytes s.expbuf (32 * (j - 1))
      (sha256 (mixChain (wideBytes s.b0reg) (wideBytes s.bireg) (heldTag s) j)) := by
  obtain ⟨r, hr, hc⟩ := pipelineHash_BI h hj
  have e : (BitVec.ofNat 13 (32 * (j - 1))).toNat = 32 * (j - 1) := by rw [BitVec.toNat_ofNat]; omega
  refine ⟨r, _, ?_, hc, rfl⟩
  simp only [turnBI, hr, withDigest, pipelineOut, digestWrite, if_true, applyExpbufWrite, Bool.true_and,
    decide_eq_true_eq, pipelineIn_outLen h, e, wideBytes_bytesWide (sha256_length _)]

theorem fieldOrder_lt : fieldOrder < 2 ^ 254 := by decide

/-- REDUCE stays below p (R213). -/
theorem reduceNat_lt (x : Nat) : reduceNat x < fieldOrder := Nat.mod_lt _ (by decide)

/-- MAP(i) writes `I2OSP(X_i mod p, 32)` to RESBUF[32i .. 32i+31], X_i from EXPBUF (R201, R212, R237). -/
theorem turnMap_resbuf {i : Nat} (hi : i ≤ 169) (s : State) :
    (turnMap i s).resbuf = Memory.storeBytes s.resbuf (feBytes * i)
      (i2osp (reduceNat (os2ip (s.expbufRead (elemSize * i) elemSize))) 32) := by
  have e : (BitVec.ofNat 8 i).toNat = i := by rw [BitVec.toNat_ofNat]; omega
  have hlt := os2ip_lt (s.expbufRead (elemSize * i) elemSize)
  rw [expbufRead_length] at hlt
  have hx : (BitVec.ofNat 384 (os2ip (s.expbufRead (elemSize * i) elemSize))).toNat =
      os2ip (s.expbufRead (elemSize * i) elemSize) := by
    rw [BitVec.toNat_ofNat, Nat.mod_eq_of_lt]
    rwa [show 256 = 2 ^ 8 from rfl, ← pow_mul] at hlt
  have he : (BitVec.ofNat 256 (reduceNat (os2ip (s.expbufRead (elemSize * i) elemSize)))).toNat =
      reduceNat (os2ip (s.expbufRead (elemSize * i) elemSize)) := by
    rw [BitVec.toNat_ofNat, Nat.mod_eq_of_lt]
    exact (reduceNat_lt _).trans (fieldOrder_lt.trans (Nat.pow_lt_pow_right (by decide) (by decide)))
  rw [turnMap_store]
  simp only [storeElement, mapWord, wideBytes, e, sliceBytes_eq s hi, hx, he]

/-- The bound of R253 on the length operand of a command. -/
def lengthInRange (i : Instr) (s : State) : Prop :=
  match i with
  | .expand => s.outLen.toNat ≤ 8160
  | .hashToField => s.count.toNat ≤ 170

/-- What passing the checks of R254 means for the operand registers. -/
theorem checkOperands_eq_none {i : Instr} {s : State} :
    checkOperands i s = none ↔ s.dstLen.toNat ≤ 32 ∧ s.msgLen.toNat ≤ s.msgbufSize.toNat ∧ lengthInRange i s := by
  unfold checkOperands lengthInRange dstMax outLenMax countMax
  by_cases h1 : 32 < s.dstLen.toNat
  · simp only [h1, if_true, reduceCtorEq, false_iff]; omega
  · by_cases h2 : s.msgbufSize.toNat < s.msgLen.toNat
    · simp only [h1, h2, if_true, if_false, reduceCtorEq, false_iff]; omega
    · cases i <;> simp only [h1, h2, if_false, ite_eq_right_iff, reduceCtorEq, imp_false] <;> omega

/-- A held command of a sound state is within the ports' widths. -/
theorem HeldInv.portBounds {s : State} (h : HeldInv s) (hs : legalMsgBufSize s.msgbufSize.toNat) :
    PortBounds (heldLength s) s := by
  obtain ⟨h1, h2, h3⟩ := checkOperands_eq_none.mp h.accepted
  have ed : s.snap.dstLen = s.dstLen := congrArg Snapshot.dstLen h.snapshot
  have em : s.snap.msgLen = s.msgLen := congrArg Snapshot.msgLen h.snapshot
  have eo : s.snap.outLen = s.outLen := congrArg Snapshot.outLen h.snapshot
  have ec : s.snap.count = s.count := congrArg Snapshot.count h.snapshot
  refine ⟨ed ▸ h1, ?_, ?_⟩
  · rw [em]; have := hs.2.2; omega
  · unfold heldLength
    unfold lengthInRange at h3
    split <;> rename_i hop <;> rw [hop] at h3 <;> simp only at h3
    · rw [eo]; exact h3
    · rw [ec]; simp only [elemSize]; omega

/-- While a command is held, the tag the engine reads is the tag in the registers (R53, R82). -/
theorem HeldInv.tag {s : State} (h : HeldInv s) : heldTag s = s.tag := by
  have ed : s.snap.dstLen = s.dstLen := congrArg Snapshot.dstLen h.snapshot
  unfold heldTag State.tag
  rw [ed]

/-- While a command is held, the message the engine reads is the message in the registers (R53, R82). -/
theorem HeldInv.message {s : State} (h : HeldInv s) : heldMessage s = s.message := by
  have em : s.snap.msgLen = s.msgLen := congrArg Snapshot.msgLen h.snapshot
  unfold heldMessage State.message
  rw [em]

end Sys2Proof.Machine
end

