-- ==== Sys2Proof/Laws/PerInstr.lean ====
section
/-! SUPPORT. Statements about every command as syntax, one lemma per constructor of Instr. -/

namespace Sys2Proof.Laws

/-- The encoding of a command: RSV is zero and OP is its opcode (30_encoding.md R100, R101). -/
def EncodesItsFields.Statement (i : Instr) : Prop :=
  rsvField (encode i) = 0 ∧ opField (encode i) = opcode i

theorem EncodesItsFields.expand : EncodesItsFields.Statement .expand := ⟨rfl, rfl⟩

theorem EncodesItsFields.hashToField : EncodesItsFields.Statement .hashToField := ⟨rfl, rfl⟩

end Sys2Proof.Laws
end

