-- ==== Sys2Proof/Laws/Step.lean ====
section
/-! SUPPORT. What one step can do: an equation for each kind of event, and one inversion lemma over all of them. -/

namespace Sys2Proof.Machine

/-- The next move is the engine's, and `s'` is the state without the event that says so (20_memory.md R86). -/
def engineNext (s s' : State) : Prop :=
  (s.input = [] ∧ s' = s) ∨ ∃ rest, s.input = .engine :: rest ∧ s' = { s with input := rest }

/-- The next move is the delivery of transaction `t`, and `s'` is the state in which the port performs it (R84). -/
def busNext (s : State) (t : Transaction) (s' : State) : Prop :=
  ∃ rest, s.input = .bus t :: rest ∧ s' = { s with input := rest, turn := .host }

/-- The engine's step for the command it holds (R190, R237). -/
def engineStep (s : State) : State :=
  match s.snap.op with
  | .expand => engineExpand s
  | .hashToField => engineHashToField s

theorem exec_engine {s : State} (h : s.turn = .engine) : exec s.snap.op s = .next (engineStep s) := by
  unfold exec engineStep
  cases hop : s.snap.op <;> simp only [execExpand, execHashToField, h]

theorem exec_host {s : State} (h : s.turn = .host) (i : Instr) : exec i s = .next (acceptCommand i s) := by
  cases i <;> simp only [exec, execExpand, execHashToField, h]

theorem nextMove_engine {s s' : State} (h : engineNext s s') : nextMove s = engineMove s' := by
  rcases h with ⟨h, rfl⟩ | ⟨rest, h, rfl⟩ <;> simp [nextMove, h]

/-- An engine turn while IDLE (R45). -/
theorem step_engine_idle {s s' : State} (h : engineNext s s') (hi : s'.seq = .idle) : step s = .next s' := by
  simp [step, nextMove_engine h, engineMove, hi]

/-- An engine turn with a command held (R190, R237). -/
theorem step_engine_run {s s' : State} (h : engineNext s s') (hi : s'.seq ≠ .idle) :
    step s = .next (engineStep { s' with turn := .engine }) := by
  simp only [step, nextMove_engine h, engineMove, if_neg hi]
  exact exec_engine (s := { s' with turn := .engine }) rfl

/-- `rst_n` falls (R280). -/
theorem step_assertReset {s : State} {rest : List Event} (h : s.input = .assertReset :: rest) :
    step s = .next (enterReset { s with input := rest }) := by
  simp [step, nextMove, h]

/-- `rst_n` rises (R280). -/
theorem step_releaseReset {s : State} {rest : List Event} (h : s.input = .releaseReset :: rest) :
    step s = .next (leaveReset { s with input := rest }) := by
  simp [step, nextMove, h]

/-- A bus access while `rst_n` = 0 (R280, U19). -/
theorem step_bus_inReset {s s' : State} {t : Transaction} (h : busNext s t s') (hr : s.rstN = false) :
    step s = .refused .busAccessDuringReset := by
  obtain ⟨rest, h, rfl⟩ := h
  simp [step, nextMove, h, hr]

theorem nextMove_bus {s s' : State} {t : Transaction} (h : busNext s t s') (hr : s.rstN = true) :
    nextMove s = busMove t s' := by
  obtain ⟨rest, h, rfl⟩ := h
  simp [nextMove, h, hr]

/-- A bus error (R72, R73, R79). -/
theorem step_bus_error {s s' : State} {t : Transaction} (h : busNext s t s') (hr : s.rstN = true)
    (ha : busAccess t s' = none) : step s = .next (answerError s') := by
  simp [step, nextMove_bus h hr, busMove, ha]

/-- A legal READ (R81). -/
theorem step_bus_read {s s' : State} {t : Transaction} (h : busNext s t s') (hr : s.rstN = true) {p : Place}
    (ha : busAccess t s' = some p) (hk : t.kind = .read) :
    step s = .next (answerRead (readPlace p t s') s') := by
  simp [step, nextMove_bus h hr, busMove, ha, hk]

/-- A legal WRITE to a place other than CMD (R51). -/
theorem step_bus_write {s s' : State} {t : Transaction} (h : busNext s t s') (hr : s.rstN = true) {p : Place}
    (ha : busAccess t s' = some p) (hk : t.kind = .write) (hp : p ≠ .cmd) :
    step s = .next (writePlace p t (answerWrite s')) := by
  simp [step, nextMove_bus h hr, busMove, ha, hk, hp]

/-- A legal WRITE of a command word to CMD (R104). -/
theorem step_bus_command {s s' : State} {t : Transaction} (h : busNext s t s') (hr : s.rstN = true)
    (ha : busAccess t s' = some .cmd) (hk : t.kind = .write) {i : Instr} (hd : decodeWord t.wdata = .ok i) :
    step s = .next (acceptCommand i (answerWrite s')) := by
  have ht : (answerWrite s').turn = .host := by obtain ⟨rest, _, rfl⟩ := h; rfl
  simp only [step, nextMove_bus h hr, busMove, ha, hk, if_true, commandMove, hd]
  exact exec_host ht i

/-- A legal WRITE of any other word to CMD (R103). -/
theorem step_bus_illegal {s s' : State} {t : Transaction} (h : busNext s t s') (hr : s.rstN = true)
    (ha : busAccess t s' = some .cmd) (hk : t.kind = .write) {e : DecodeError} (hd : decodeWord t.wdata = .error e) :
    step s = .next (refuseWord (answerWrite s')) := by
  simp [step, nextMove_bus h hr, busMove, ha, hk, commandMove, hd]

/-- The write of a word to CMD is a legal access (R72, R75, R104). -/
theorem busAccess_cmdWrite (v : Word) (s : State) : busAccess (cmdWrite v) s = some .cmd := by
  simp [busAccess, cmdWrite, sizeBytes, controlEnd, controlPlace]

/-- One way in which a step answers a next state. -/
inductive StepCase (s t : State) : Prop where
  | engineIdle (s' : State) (h : engineNext s s') (hi : s'.seq = .idle) (e : t = s')
  | engineRun (s' : State) (h : engineNext s s') (hi : s'.seq ≠ .idle) (e : t = engineStep { s' with turn := .engine })
  | assertReset (rest : List Event) (h : s.input = .assertReset :: rest) (e : t = enterReset { s with input := rest })
  | releaseReset (rest : List Event) (h : s.input = .releaseReset :: rest) (e : t = leaveReset { s with input := rest })
  | busError (x : Transaction) (s' : State) (h : busNext s x s') (hr : s.rstN = true)
      (ha : busAccess x s' = none) (e : t = answerError s')
  | busRead (x : Transaction) (s' : State) (p : Place) (h : busNext s x s') (hr : s.rstN = true)
      (ha : busAccess x s' = some p) (hk : x.kind = .read) (e : t = answerRead (readPlace p x s') s')
  | busWrite (x : Transaction) (s' : State) (p : Place) (h : busNext s x s') (hr : s.rstN = true)
      (ha : busAccess x s' = some p) (hk : x.kind = .write) (hp : p ≠ .cmd) (e : t = writePlace p x (answerWrite s'))
  | command (x : Transaction) (s' : State) (i : Instr) (h : busNext s x s') (hr : s.rstN = true)
      (ha : busAccess x s' = some .cmd) (hk : x.kind = .write) (hd : decodeWord x.wdata = .ok i)
      (e : t = acceptCommand i (answerWrite s'))
  | illegalWord (x : Transaction) (s' : State) (err : DecodeError) (h : busNext s x s') (hr : s.rstN = true)
      (ha : busAccess x s' = some .cmd) (hk : x.kind = .write) (hd : decodeWord x.wdata = .error err)
      (e : t = refuseWord (answerWrite s'))

theorem next_inj {a b : State} {x : Host.Outcome State Fault Refusal} (h1 : x = .next a) (h2 : x = .next b) : b = a := by
  rw [h1] at h2; cases h2; rfl

/-- Everything a step that answers a next state can be. -/
theorem step_cases {s t : State} (h : step s = .next t) : StepCase s t := by
  have engine : ∀ s', engineNext s s' → StepCase s t := by
    intro s' hn
    by_cases hi : s'.seq = .idle
    · exact .engineIdle s' hn hi (next_inj (step_engine_idle hn hi) h)
    · exact .engineRun s' hn hi (next_inj (step_engine_run hn hi) h)
  cases hin : s.input with
  | nil => exact engine s (.inl ⟨hin, rfl⟩)
  | cons ev rest =>
    cases ev with
    | engine => exact engine _ (.inr ⟨rest, hin, rfl⟩)
    | assertReset => exact .assertReset rest hin (next_inj (step_assertReset hin) h)
    | releaseReset => exact .releaseReset rest hin (next_inj (step_releaseReset hin) h)
    | bus x =>
      have hb : busNext s x { s with input := rest, turn := .host } := ⟨rest, hin, rfl⟩
      cases hr : s.rstN with
      | false => rw [step_bus_inReset hb hr] at h; cases h
      | true =>
        cases ha : busAccess x { s with input := rest, turn := .host } with
        | none => exact .busError x _ hb hr ha (next_inj (step_bus_error hb hr ha) h)
        | some p =>
          cases hk : x.kind with
          | read => exact .busRead x _ p hb hr ha hk (next_inj (step_bus_read hb hr ha hk) h)
          | write =>
            by_cases hp : p = .cmd
            · subst hp
              cases hd : decodeWord x.wdata with
              | ok i => exact .command x _ i hb hr ha hk hd (next_inj (step_bus_command hb hr ha hk hd) h)
              | error e => exact .illegalWord x _ e hb hr ha hk hd (next_inj (step_bus_illegal hb hr ha hk hd) h)
            · exact .busWrite x _ p hb hr ha hk hp (next_inj (step_bus_write hb hr ha hk hp) h)

/-- A step stops only at a bus access while `rst_n` = 0 (R280, U19); nothing faults. -/
theorem step_stops {s : State} {r : Refusal} (h : step s = .refused r) : r = .busAccessDuringReset ∧ s.rstN = false := by
  cases hin : s.input with
  | nil =>
    by_cases hi : s.seq = .idle
    · rw [step_engine_idle (.inl ⟨hin, rfl⟩) hi] at h; cases h
    · rw [step_engine_run (.inl ⟨hin, rfl⟩) hi] at h; cases h
  | cons ev rest =>
    cases ev with
    | engine =>
      by_cases hi : s.seq = .idle
      · rw [step_engine_idle (.inr ⟨rest, hin, rfl⟩) hi] at h; cases h
      · rw [step_engine_run (.inr ⟨rest, hin, rfl⟩) hi] at h; cases h
    | assertReset => rw [step_assertReset hin] at h; cases h
    | releaseReset => rw [step_releaseReset hin] at h; cases h
    | bus x =>
      have hb : busNext s x { s with input := rest, turn := .host } := ⟨rest, hin, rfl⟩
      cases hr : s.rstN with
      | false => rw [step_bus_inReset hb hr] at h; cases h; exact ⟨rfl, rfl⟩
      | true =>
        cases ha : busAccess x { s with input := rest, turn := .host } with
        | none => rw [step_bus_error hb hr ha] at h; cases h
        | some p =>
          cases hk : x.kind with
          | read => rw [step_bus_read hb hr ha hk] at h; cases h
          | write =>
            by_cases hp : p = .cmd
            · subst hp
              cases hd : decodeWord x.wdata with
              | ok i => rw [step_bus_command hb hr ha hk hd] at h; cases h
              | error e => rw [step_bus_illegal hb hr ha hk hd] at h; cases h
            · rw [step_bus_write hb hr ha hk hp] at h; cases h

end Sys2Proof.Machine
end

