-- ==== Sys2Proof/Laws/Turns.lean ====
section
/-! SUPPORT. What an engine turn leaves, whatever the command held (42_expand_message_xmd.md R190, 45_hash_to_field.md
R237). The turns of the expand phase stand in Laws/Engine.lean. -/

namespace Sys2Proof.Machine

/-- AFTER_EXPAND of the command held (R190). -/
def afterExpand (s : State) : Seq :=
  if s.snap.op = .expand ∨ s.snap.count = 0 then .commit else .map 0

/-- The pipeline's inputs for the command held (R199). -/
def heldPipeline (s : State) : PipelineIn := pipelineIn (heldLength s) false s

/-- The commit of the command held (R191, R238). -/
def commitHeld (s : State) : State :=
  match s.snap.op with
  | .expand => commitExpand s
  | .hashToField => commitHashToField s

/-- The engine's step is one sequencer turn with the held command's pipeline inputs, AFTER_EXPAND and commit. -/
theorem engineStep_eq (s : State) :
    engineStep s = sequencerTurn (heldPipeline s) (afterExpand s) commitHeld s := by
  unfold engineStep engineExpand engineHashToField heldPipeline afterExpand afterExpandHashToField heldLength
  cases hop : s.snap.op <;> cases hq : s.seq <;> simp [sequencerTurn, hq, hop, commitHeld]

/-- An engine turn changes no operand, parameter, pin input, snapshot, event or epoch. -/
theorem engineStep_frame (s : State) :
    (engineStep s).irqEn = s.irqEn ∧ (engineStep s).dstLen = s.dstLen ∧ (engineStep s).msgLen = s.msgLen ∧
      (engineStep s).outLen = s.outLen ∧ (engineStep s).count = s.count ∧
      (engineStep s).msgbufSize = s.msgbufSize ∧ (engineStep s).rstN = s.rstN ∧ (engineStep s).snap = s.snap ∧
      (engineStep s).epoch = s.epoch ∧ (engineStep s).input = s.input ∧ (engineStep s).response = s.response := by
  rw [engineStep_eq]
  unfold sequencerTurn commitHeld
  split <;> (try split) <;> simp [commitExpand, commitHashToField]

/-- MAP(i) changes RESBUF and the sequencer. -/
theorem turnMap_eq (i : Nat) (s : State) :
    turnMap i s = { s with
      resbuf := (turnMap i s).resbuf
      seq := if i + 1 = s.snap.count.toNat then .commit else .map (i + 1) } := by
  apply State.ext <;> simp

/-- MAP(i) in terms of the reference functions (R201, R212, R237). -/
theorem turnMap_spec {i : Nat} (hi : i ≤ 169) (s : State) : ∃ m : Memory,
    turnMap i s = { s with
      resbuf := m, seq := if i + 1 = s.snap.count.toNat then .commit else .map (i + 1) } ∧
    m = Memory.storeBytes s.resbuf (feBytes * i)
      (i2osp (reduceNat (os2ip (s.expbufRead (elemSize * i) elemSize))) 32) :=
  ⟨_, turnMap_eq i s, turnMap_resbuf hi s⟩

/-- `MemRead` of a string just written gives it back. -/
theorem memRead_memWrite (s : State) (off : Nat) (bs : List Byte) :
    (s.memWrite off bs).memRead off bs.length = bs := map_readCell_storeBytes _ _ _ _ _

end Sys2Proof.Machine
end

