-- ==== Sys2Proof/Tests/Slice0.lean ====
section
/-! SUPPORT. Tests from the spec's encodings and vectors (30_encoding.md R101, 95_test_vectors.md), the WellFormed smoke
tests, and for every statement of Certificates/Slice0/Obligations.lean that has hypotheses a witness that meets them. -/

namespace Sys2Proof.Tests

open Sys2Proof.Machine

/-- Right after reset, with the default MSG_BUF_SIZE of 16384 and events to come. -/
def ready (es : List Event) : State := State.resetValue 16384 0 true es

/-- A command held with every operand 0, at a sequencer state. -/
def held (q : Seq) (i : Instr) (es : List Event) : State :=
  { ready es with status := ⟨true, false, false, false, 0⟩, seq := q, snap := ⟨i, 0, 0, 0, 0⟩ }

/-- STATUS after one step. -/
def statusAfter (s : State) : Option Word :=
  match step s with
  | .next t => some t.status.word
  | .fault _ => none
  | .refused _ => none

/-- The port's answer after one step. -/
def answerAfter (s : State) : Option BusResponse :=
  match step s with
  | .next t => t.response
  | .fault _ => none
  | .refused _ => none

/-! ### Decoding, from the word layout of R100 and the opcode map of R101 -/

theorem test_decode_expand : decodeWord 0b000000000000000000000000_00000001#32 = .ok .expand := by decide

theorem test_decode_hashToField : decodeWord 0b000000000000000000000000_00000010#32 = .ok .hashToField := by decide

theorem test_decode_zero_refused : decodeWord 0b000000000000000000000000_00000000#32 = .error .illegalOpcode := by decide

theorem test_decode_three_refused : decodeWord 0b000000000000000000000000_00000011#32 = .error .illegalOpcode := by decide

theorem test_decode_reserved_refused :
    decodeWord 0b000000000000000000000001_00000001#32 = .error .reservedBits ∧
    decodeWord 0b100000000000000000000000_00000010#32 = .error .reservedBits := by decide

theorem test_decode_bytes : decode [0x02, 0x00, 0x00, 0x00, 0x07] = .ok (.hashToField, [0x07]) ∧
    decode [0x00, 0x00, 0x00, 0x02] = .error .reservedBits ∧ decode [0x01, 0x00, 0x00] = .error .truncated := by
  refine ⟨rfl, rfl, rfl⟩

theorem test_table_words : decodeTableWord 32 1 = some .expand ∧ decodeTableWord 32 2 = some .hashToField := by decide

theorem test_fetch_expand : statusAfter (State.reset.withFetchWord 32 1) = some 0x00000001 := by decide

theorem test_fetch_hashToField : statusAfter (State.reset.withFetchWord 32 2) = some 0x00000001 := by decide

/-! ### WellFormed: one ill-formed term for each check, and the port refuses it too -/

/-- A word access at 0x0102 (V-BUS-6). -/
theorem test_wellFormed_misaligned :
    (⟨.read, 0x0102, .four, 0⟩ : Transaction).aligned = false ∧
    answerAfter (ready [rd32 0x0102]) = some ⟨.slverr, some 0⟩ := by decide

/-- A byte read of ID (V-BUS-4). -/
theorem test_wellFormed_narrow :
    (⟨.read, 0x0000, .one, 0⟩ : Transaction).widthLegal = false ∧
    answerAfter (ready [rd8 0x0000]) = some ⟨.slverr, some 0⟩ := by decide

theorem test_wellFormed_event : (wr16 0x0010 0x0005).wellFormed = false ∧ (wr8 0x4005 0xAB).wellFormed = true := by decide

/-! ### The commands (V-ERR) -/

/-- V-ERR-9: code 1 beats code 2. -/
theorem test_expand_refused :
    statusAfter { ready [wr32 0x0004 0x00000001] with dstLen := 40, outLen := 9000 } = some 0x00000104 := by decide

/-- V-ERR-14: every bound at its maximum passes. -/
theorem test_expand_accepted :
    statusAfter { ready [wr32 0x0004 0x00000001] with dstLen := 32, outLen := 8160, msgLen := 16384 } =
      some 0x00000001 := by decide

/-- V-ERR-11: code 3 before code 2. -/
theorem test_hashToField_refused :
    statusAfter { ready [wr32 0x0004 0x00000002] with msgLen := 16385, count := 171 } = some 0x00000304 := by decide

/-- V-ERR-12: OUT_LEN is ignored. -/
theorem test_hashToField_accepted :
    statusAfter { ready [wr32 0x0004 0x00000002] with outLen := 9000 } = some 0x00000001 := by decide

/-- V-ERR-10: code 4 first. -/
theorem test_illegal_word :
    statusAfter { ready [wr32 0x0004 0x00000005] with dstLen := 40 } = some 0x00000404 := by decide

/-! ### The bus (V-BUS) -/

/-- V-BUS-1, V-BUS-2, V-BUS-7, V-BUS-9. -/
theorem test_bus_reads :
    answerAfter (ready [rd32 0x0000]) = some ⟨.okay, some 0x48544631⟩ ∧
    answerAfter (ready [rd32 0x0024]) = some ⟨.okay, some 0x00004000⟩ ∧
    answerAfter (ready [rd32 0x0028]) = some ⟨.slverr, some 0⟩ ∧
    answerAfter (ready [rd32 0x8000]) = some ⟨.slverr, some 0⟩ := by decide

/-- V-BUS-12: bytes 20 3a 83 90 read as 0x90833a20. -/
theorem test_bus_lanes :
    answerAfter { ready [rd32 0x0100] with mem := [(0x100, 0x20), (0x101, 0x3a), (0x102, 0x83), (0x103, 0x90)] } =
      some ⟨.okay, some 0x90833a20⟩ := by decide

/-- V-BUS-11: "TEST" lies byte 0 first. -/
theorem test_bus_store :
    step (ready [wr32 0x0100 0x54534554]) = .next { ready [] with
      mem := [(0x100, 0x54), (0x101, 0x45), (0x102, 0x53), (0x103, 0x54)], response := some ⟨.okay, none⟩ } := rfl

/-- V-BUS-14, V-BUS-15, V-BUS-16. -/
theorem test_status_w1c :
    statusAfter { ready [wr32 0x0008 0x00000008] with status := ⟨false, true, false, true, 0⟩ } = some 0x00000002 ∧
    statusAfter { ready [wr32 0x0008 0x00000004] with status := ⟨false, false, true, false, 1⟩ } = some 0x00000000 ∧
    statusAfter { ready [wr32 0x0008 0xFFFFFFF1] with status := ⟨false, true, false, false, 0⟩ } = some 0x00000002 := by
  decide

/-- V-BUS-17, V-BUS-19: dropped while BUSY. -/
theorem test_busy_drops :
    statusAfter (held .expB1 .expand [wr32 0x0010 7]) = some 0x00000009 ∧
    statusAfter (held .expB1 .expand [wr32 0x0004 1]) = some 0x00000009 := by decide

/-- V-BUS-20, V-BUS-21. -/
theorem test_irq_level :
    State.irq { ready [] with status := ⟨false, true, false, false, 0⟩, irqEn := ⟨true, false⟩ } = true ∧
    State.irq { ready [] with status := ⟨false, true, false, false, 0⟩, irqEn := ⟨false, true⟩ } = false := by decide

/-! ### The functions (V-SHA, V-MIX, V-RED) -/

/-- V-SHA-2: one block. -/
theorem test_sha256_abc :
    os2ip (sha256 [0x61, 0x62, 0x63]) = 0xba7816bf8f01cfea414140de5dae2223b00361a396177a9cb410ff61f20015ad := by
  decide +kernel

/-- V-SHA-7. -/
theorem test_blockCounts : [0, 55, 56, 63, 64, 119, 120].map blockCountOf = [1, 1, 2, 2, 2, 2, 3] := by decide

/-- V-MIX-1: the end of msg_prime for "TEST", "hello" and L = 96. -/
theorem test_msgPrime :
    mixMsgPrime [0x54, 0x45, 0x53, 0x54] [0x68, 0x65, 0x6c, 0x6c, 0x6f] 96 =
      zeros 64 ++ [0x68, 0x65, 0x6c, 0x6c, 0x6f, 0x00, 0x60, 0x00, 0x54, 0x45, 0x53, 0x54, 0x04] := by decide

/-- V-MIX-3: the clocked mixer streams in2 of "TEST", its tag read through the buffer port; `out_last` with the last. -/
theorem test_mixer_stream :
    let s : State := { ready [] with mem := [(0x100, 0x54), (0x101, 0x45), (0x102, 0x53), (0x103, 0x54)] }
    let beats := mixerStream ⟨2, false, 2, 96, 4, 5,
      0x2bf9da852ffe946a0b75174fc8ad9e283cd02d2a35cd83af7e86f3dac8b8b560,
      0x7219f0e3204788faa280c58f6042c06208cb2d379486f8040c1a465c8c55cdbe⟩ s
    os2ip (beats.map StreamBeat.byte) =
      0x59e02a660fb91c90a9f5d2c0a8ef5e4a341b001da14b7bab729cb58644ed78de025445535404 ∧
    beats.map StreamBeat.last = List.replicate 37 false ++ [true] := by decide +kernel

/-- V-EXP-2: the turn in EXP_B0 of EXPAND with every operand 0, through the clocked mixer and hash unit. -/
theorem test_turn_B0 :
    (turnB0 (pipelineIn 0 false (held .expB0 .expand [])) (held .expB0 .expand [])).b0reg =
      0x1751ac12e70e15b4f76c16775cd329ae55973b612521dab2de828a5cdb6c8ab3 := by decide +kernel

/-- R107: a message that no 16-bit offset reaches has no expansion (log 24); a short one has. -/
theorem test_loadMsg :
    loadMsg [0x61, 0x62, 0x63] = some [wr32 0x4000 0x00636261, wr32 0x0014 3] ∧
    loadMsg (List.replicate 0xC001 0) = none := by
  refine ⟨by decide, ?_⟩
  rw [loadMsg, if_neg (by rw [List.length_replicate]; decide)]

/-- R201, R202: 0x01 and 47 zero bytes give 2^376, read through the EXPBUF port; chunk 1 starts at byte 48. -/
theorem test_slice_unit :
    let s : State := { ready [] with expbuf := Memory.storeBytes [] 0 (1 :: zeros 47 ++ zeros 46 ++ [2, 3]) }
    sliceUnit 0 s = some (BitVec.ofNat 384 (2 ^ 376)) ∧ sliceUnit 1 s = some 0x0203 := by decide +kernel

/-- R205: after `go` the unit asks for byte 48·169 = 8112 first, and gives no `x` yet. -/
theorem test_slice_address :
    sliceOut (sliceClock ⟨169, true, 0⟩ ⟨0, 0, 0, true⟩) = ⟨some 8112, none⟩ := by decide

/-- V-RED-7, V-RED-8. -/
theorem test_reduce :
    reduceNat (2 ^ 256 - 1) = 0x0e0a77c19a07df2f666ea36f7879462c0a78eb28f5c70b3dd35d438dc58f0d9c ∧
    reduceNat (2 ^ 384 - 1) = 0x2c1e8d981110f1afed7948a39bab3e80e0e407c3583ff80270bb17072fcc56e9 := by decide +kernel

/-! ### Witnesses: decoding and the step -/

theorem witness_DecodeInvertsEncode :
    Instr.wellFormed .expand = true ∧ Instr.wellFormed .hashToField = true ∧
    decode [0x01, 0x00, 0x00, 0x00, 0x07] = .ok (.expand, [0x07]) := ⟨rfl, rfl, rfl⟩

theorem witness_StepRunsTheWrittenCommand :
    (ready [.bus (cmdWrite 2)]).rstN = true ∧ (ready [.bus (cmdWrite 2)]).input = [.bus (cmdWrite 2)] ∧
    decodeWord 2 = .ok .hashToField := ⟨rfl, rfl, rfl⟩

theorem witness_StepRunsTheHeldCommand :
    (held .expB1 .expand [.engine]).input = [.engine] ∧ (held .expB1 .expand [.engine]).seq ≠ .idle ∧
    (held .expB1 .expand []).input = [] ∧ (ready []).input = [] ∧ (ready []).seq = .idle := by decide

/-- What `StepRefusesOnlyAccessesInReset` says of a refusal happens. -/
theorem witness_StepRefusesOnlyAccessesInReset :
    step { ready [rd32 0x0000] with rstN := false } = .refused .busAccessDuringReset := rfl

/-! ### Witnesses: acceptance -/

theorem witness_CommandWriteFollowsAcceptance :
    let s0 := held .expB1 .expand [.bus (cmdWrite 1)]
    let s1 := ready [.bus (cmdWrite 0x101)]
    let s2 : State := { ready [.bus (cmdWrite 1)] with dstLen := 33 }
    let s3 : State := { ready [.bus (cmdWrite 1)] with dstLen := 32 }
    (s0.rstN = true ∧ s0.input = [.bus (cmdWrite 1)] ∧ s0.status.busy = true) ∧
    (s1.rstN = true ∧ s1.input = [.bus (cmdWrite 0x101)] ∧ s1.status.busy = false ∧
      checkCommand 0x101 s1 = some .illegalCommand) ∧
    (s2.rstN = true ∧ s2.input = [.bus (cmdWrite 1)] ∧ s2.status.busy = false ∧
      checkCommand 1 s2 = some .invalidDomainSize) ∧
    (s3.rstN = true ∧ s3.input = [.bus (cmdWrite 1)] ∧ s3.status.busy = false ∧ checkCommand 1 s3 = none) := by decide

theorem witness_ExpandIsAccepted :
    let s : State := { ready [] with dstLen := 32, msgLen := 16384, outLen := 8160, count := 500 }
    s.turn = .host ∧ s.status.busy = false ∧ s.dstLen.toNat ≤ 32 ∧ s.msgLen.toNat ≤ s.msgbufSize.toNat ∧
      s.outLen.toNat ≤ 8160 := by decide

theorem witness_HashToFieldIsAccepted :
    let s : State := { ready [] with dstLen := 32, msgLen := 16384, outLen := 9000, count := 170 }
    s.turn = .host ∧ s.status.busy = false ∧ s.dstLen.toNat ≤ 32 ∧ s.msgLen.toNat ≤ s.msgbufSize.toNat ∧
      s.count.toNat ≤ 170 := by decide

theorem witness_RefusalWritesOnlyStatus :
    let meets (s : State) (i : Instr) (code : ErrCode) := s.turn = .host ∧ s.status.busy = false ∧
      checkOperands i s = some code
    meets { ready [] with dstLen := 33 } .expand .invalidDomainSize ∧
    meets { ready [] with msgLen := 16385 } .hashToField .msgLenRange ∧
    meets { ready [] with outLen := 8161 } .expand .outLenRange ∧
    meets { ready [] with count := 171 } .hashToField .outLenRange := by decide

theorem witness_DomainSizeBoundaryIsThirtyTwo :
    let s33 : State := { ready [.bus (cmdWrite (encode .expand))] with dstLen := 33 }
    let s32 : State := { ready [.bus (cmdWrite (encode .hashToField))] with dstLen := 32 }
    (s33.rstN = true ∧ s33.status.busy = false ∧ s33.input = [.bus (cmdWrite (encode .expand))] ∧
      32 < s33.dstLen.toNat) ∧
    (s32.rstN = true ∧ s32.status.busy = false ∧ s32.input = [.bus (cmdWrite (encode .hashToField))] ∧
      s32.dstLen.toNat ≤ 32) := by decide

theorem witness_MessageLengthBoundaryIsTheBuffer :
    let tooLong : State := { ready [.bus (cmdWrite (encode .expand))] with dstLen := 32, msgLen := 16385 }
    let full : State := { ready [.bus (cmdWrite (encode .hashToField))] with dstLen := 32, msgLen := 16384 }
    (tooLong.rstN = true ∧ tooLong.status.busy = false ∧ tooLong.input = [.bus (cmdWrite (encode .expand))] ∧
      tooLong.dstLen.toNat ≤ 32 ∧ tooLong.msgbufSize.toNat < tooLong.msgLen.toNat) ∧
    (full.rstN = true ∧ full.status.busy = false ∧ full.input = [.bus (cmdWrite (encode .hashToField))] ∧
      full.dstLen.toNat ≤ 32 ∧ full.msgLen.toNat ≤ full.msgbufSize.toNat) := by decide

theorem witness_OutputLengthBoundaryIsPerCommand :
    let e (n : Word) : State := { ready [.bus (cmdWrite (encode .expand))] with outLen := n, count := 500 }
    let h (n : Word) : State := { ready [.bus (cmdWrite (encode .hashToField))] with outLen := 9000, count := n }
    ((e 8161).rstN = true ∧ (e 8161).status.busy = false ∧ (e 8161).input = [.bus (cmdWrite (encode .expand))] ∧
      (e 8161).dstLen.toNat ≤ 32 ∧ (e 8161).msgLen.toNat ≤ (e 8161).msgbufSize.toNat ∧ 8160 < (e 8161).outLen.toNat ∧
      (e 8160).outLen.toNat ≤ 8160) ∧
    ((h 171).rstN = true ∧ (h 171).status.busy = false ∧ (h 171).input = [.bus (cmdWrite (encode .hashToField))] ∧
      (h 171).dstLen.toNat ≤ 32 ∧ (h 171).msgLen.toNat ≤ (h 171).msgbufSize.toNat ∧ 170 < (h 171).count.toNat ∧
      (h 170).count.toNat ≤ 170) := by decide

theorem witness_SameCommandIsRefusedAgain :
    let s := ready [.bus (cmdWrite 3), .bus (cmdWrite 3)]
    s.rstN = true ∧ s.status.busy = false ∧ s.input = [.bus (cmdWrite 3), .bus (cmdWrite 3)] ∧
      checkCommand 3 s = some .illegalCommand := by decide

/-! ### Witnesses: the bus -/

/-- A transaction for each clause, at the first or last offset of its place. -/
theorem witness_BusyRuleDropsSetupWrites :
    let s (x : Transaction) := held .expB1 .expand [.bus x]
    let meets (x : Transaction) (p : Place) := (s x).rstN = true ∧ (s x).status.busy = true ∧ (s x).input = [.bus x] ∧
      busAccess x (s x) = some p
    meets ⟨.write, 0x0004, .four, 1⟩ .cmd ∧ meets ⟨.write, 0x001C, .four, 7⟩ .count ∧
    meets ⟨.write, 0x011F, .one, 7⟩ .dstBuf ∧ meets ⟨.write, 0x7FFE, .two, 7⟩ .msgBuf ∧
    meets ⟨.write, 0x0008, .four, 14⟩ .status ∧ meets ⟨.write, 0x000C, .four, 3⟩ .irqEn ∧
    meets ⟨.write, 0x2000, .four, 9⟩ .outBuf ∧ meets ⟨.read, 0x0000, .four, 0⟩ .id := by decide

/-- Offsets on both sides of every edge of the address map. -/
theorem witness_BusErrorsAreExactlyTheIllegalAccesses :
    (ready [rd32 0x0028]).rstN = true ∧ (ready [rd32 0x0028]).input = [.bus ⟨.read, 0x0028, .four, 0⟩] ∧
    legalMsgBufSize (ready []).msgbufSize.toNat ∧
    ¬(0x27 + 1 < 0x28 ∨ bufferOffset 16384 (0x27 + 1)) ∧ ¬(0x011F + 1 < 0x28 ∨ bufferOffset 16384 (0x011F + 1)) ∧
    ¬(0x1FFF < 0x28 ∨ bufferOffset 16384 0x1FFF) ∧ ¬(0x7FFF + 1 < 0x28 ∨ bufferOffset 16384 (0x7FFF + 1)) ∧
    bufferOffset 16384 0x011F ∧ bufferOffset 16384 0x2000 ∧ bufferOffset 16384 0x3FFF ∧ bufferOffset 16384 0x7FFF := by
  unfold legalMsgBufSize bufferOffset
  decide

theorem witness_BusErrorsChangeNothing :
    step (ready [rd32 0x0028]) = .next { ready [] with response := some ⟨.slverr, some 0⟩ } := rfl

theorem witness_ReadsChangeNothing :
    (ready [rd32 0x0008]).rstN = true ∧ (ready [rd32 0x0008]).input = [.bus ⟨.read, 0x0008, .four, 0⟩] := ⟨rfl, rfl⟩

theorem witness_RegisterReadsReturnTheRegisters :
    (ready [rd32 0x0024]).rstN = true ∧ (ready [rd32 0x0024]).input = rd32 0x0024 :: [] ∧
    (ready [rd32 0x0000]).input = rd32 0x0000 :: [] := ⟨rfl, rfl, rfl⟩

theorem witness_BufferReadsUseLittleEndianLanes :
    let meets (x : Transaction) (p : Place) := (ready [.bus x]).rstN = true ∧ (ready [.bus x]).input = [.bus x] ∧
      x.kind = .read ∧ busAccess x (ready [.bus x]) = some p
    meets ⟨.read, 0x011F, .one, 0⟩ .dstBuf ∧ meets ⟨.read, 0x3FFE, .two, 0⟩ .outBuf ∧
    meets ⟨.read, 0x7FFC, .four, 0⟩ .msgBuf := by decide

theorem witness_BufferWritesStoreTheirLanes :
    let meets (x : Transaction) (p : Place) := (ready [.bus x]).rstN = true ∧ (ready [.bus x]).status.busy = false ∧
      (ready [.bus x]).input = [.bus x] ∧ x.kind = .write ∧ busAccess x (ready [.bus x]) = some p
    meets ⟨.write, 0x011F, .one, 7⟩ .dstBuf ∧ meets ⟨.write, 0x4002, .two, 7⟩ .msgBuf ∧
    meets ⟨.write, 0x7FFC, .four, 7⟩ .msgBuf := by decide

theorem witness_OperandWritesStoreEveryBit :
    (ready [wr32 0x0010 0xFFFFFFFF]).rstN = true ∧ (ready [wr32 0x0010 0xFFFFFFFF]).status.busy = false ∧
    (ready [wr32 0x0010 0xFFFFFFFF]).input = wr32 0x0010 0xFFFFFFFF :: [] ∧
    (ready [wr32 0x001C 0]).input = wr32 0x001C 0 :: [] := ⟨rfl, rfl, rfl, rfl⟩

theorem witness_StatusWritesClearByOnes :
    (held .expB1 .expand [wr32 0x0008 0x0000000E]).rstN = true ∧
    (held .expB1 .expand [wr32 0x0008 0x0000000E]).input = wr32 0x0008 0x0000000E :: [] := ⟨rfl, rfl⟩

theorem witness_IrqEnableKeepsTwoBits :
    (ready [wr32 0x000C 0xFFFFFFFF, rd32 0x000C]).rstN = true ∧
    (ready [wr32 0x000C 0xFFFFFFFF, rd32 0x000C]).input = wr32 0x000C 0xFFFFFFFF :: rd32 0x000C :: [] := ⟨rfl, rfl⟩

theorem witness_ReadOnlyPlacesIgnoreWrites :
    let meets (x : Transaction) (p : Place) := (ready [.bus x]).rstN = true ∧ (ready [.bus x]).input = [.bus x] ∧
      x.kind = .write ∧ busAccess x (ready [.bus x]) = some p
    meets ⟨.write, 0x0000, .four, 1⟩ .id ∧ meets ⟨.write, 0x0020, .four, 1⟩ .resultLen ∧
    meets ⟨.write, 0x0024, .four, 1⟩ .msgbufSize ∧ meets ⟨.write, 0x3FFF, .one, 1⟩ .outBuf := by decide

/-! ### Witnesses: properties of every step -/

/-- The commit of EXPAND with OUT_LEN 0. -/
def committed (s : State) : State :=
  { s with input := [], turn := .engine, resultLen := 0, seq := .idle, status := { s.status with busy := false, done := true } }

theorem step_commit_empty (e : IrqEn) (n : Word) :
    step { held .commit .expand [.engine] with irqEn := e, resultLen := n } =
      .next (committed { held .commit .expand [.engine] with irqEn := e, resultLen := n }) := rfl

/-- BUSY rises, falls by a commit, falls by reset. -/
theorem witness_BusyFollowsAcceptanceAndCommit :
    statusAfter (ready [wr32 0x0004 1]) = some 1 ∧ statusAfter (held .commit .expand [.engine]) = some 2 ∧
    statusAfter (held .expB1 .expand [.assertReset]) = some 0 := ⟨rfl, rfl, rfl⟩

/-- BUSYWR rises by a dropped write and not by one to a read-only place, falls by W1C, falls by reset. -/
theorem witness_BusyWriteFlagIsSticky :
    statusAfter (held .expB1 .expand [wr32 0x0014 7]) = some 9 ∧
    statusAfter (held .expB1 .expand [wr32 0x0024 7]) = some 1 ∧
    statusAfter { ready [wr32 0x0008 8] with status := ⟨false, false, false, true, 0⟩ } = some 0 ∧
    statusAfter { ready [.assertReset] with status := ⟨false, false, false, true, 0⟩ } = some 0 := ⟨rfl, rfl, rfl, rfl⟩

/-- `irq` after one step. -/
def irqAfter (s : State) : Option Bool :=
  match step s with
  | .next t => some t.irq
  | .fault _ => none
  | .refused _ => none

/-- `irq` rises by a commit, by a refused command, by a write to IRQ_EN. -/
theorem witness_IrqRisesOnlyAtItsCauses :
    irqAfter { held .commit .expand [.engine] with irqEn := ⟨true, false⟩ } = some true ∧
    irqAfter { ready [wr32 0x0004 3] with irqEn := ⟨false, true⟩ } = some true ∧
    irqAfter { ready [wr32 0x000C 1] with status := ⟨false, true, false, false, 0⟩ } = some true ∧
    State.irq { ready [wr32 0x000C 1] with status := ⟨false, true, false, false, 0⟩ } = false := ⟨rfl, rfl, rfl, rfl⟩

/-- A state for each clause: a commit, a refused command, a write to IRQ_EN, the clearing of DONE, an accepted command. -/
theorem witness_IrqIsTheLevelOfEnabledPendingBits :
    let pending : State := { ready [] with status := ⟨false, true, false, false, 0⟩, irqEn := ⟨true, true⟩ }
    let c : State := { held .commit .expand [] with irqEn := ⟨true, false⟩ }
    let r : State := { pending with input := [.bus (cmdWrite 3)] }
    let e : State := { pending with input := [wr32 0x000C 2] }
    let w : State := { pending with input := [wr32 0x0008 2] }
    let a : State := { pending with input := [.bus (cmdWrite 1)] }
    (c.seq = .commit ∧ c.irqEn.enDone = true ∧ c.input = []) ∧
    (r.rstN = true ∧ r.input = .bus (cmdWrite 3) :: [] ∧ r.status.busy = false ∧
      checkCommand 3 r = some .illegalCommand ∧ r.irqEn.enErr = true) ∧
    (e.rstN = true ∧ e.input = wr32 0x000C 2 :: [] ∧ irqAfter e = some false) ∧
    (w.rstN = true ∧ w.input = wr32 0x0008 2 :: [] ∧ w.irq = true ∧ irqAfter w = some false) ∧
    (a.rstN = true ∧ a.input = .bus (cmdWrite 1) :: [] ∧ a.status.busy = false ∧ checkCommand 1 a = none) := by
  decide

theorem witness_MessageBufferSizeNeverChanges :
    step (ready [.assertReset]) = .next (State.resetValue 16384 1 false []) := rfl

theorem witness_OutputsChangeOnlyAtCommit :
    legalMsgBufSize (held .commit .expand [.engine]).msgbufSize.toNat ∧
    (committed { held .commit .expand [.engine] with resultLen := 7 }).resultLen ≠
      ({ held .commit .expand [.engine] with resultLen := 7 } : State).resultLen := by
  unfold legalMsgBufSize
  decide

/-! ### Witnesses: reset -/

theorem witness_ResetReplacesTheState :
    (held .expB1 .expand [.assertReset, rd32 0x0000]).input = .assertReset :: [rd32 0x0000] ∧
    (held .expB1 .expand [.assertReset, .releaseReset]).input = .assertReset :: [.releaseReset] := ⟨rfl, rfl⟩

theorem witness_ResetIsSound :
    legalMsgBufSize (4 : Word).toNat ∧ legalMsgBufSize (0xC000 : Word).toNat ∧ legalMsgBufSize (16384 : Word).toNat := by
  unfold legalMsgBufSize
  decide

theorem witness_ExpandRightAfterResetIsEmpty :
    legalMsgBufSize (4 : Word).toNat ∧ legalMsgBufSize (0xC000 : Word).toNat := by
  unfold legalMsgBufSize
  decide

/-! ### Witnesses: the engine's turns -/

/-- A command held at its largest operands. -/
def heldLargest (q : Seq) (i : Instr) : State :=
  { held q i [] with snap := ⟨i, 32, 0xC000, 8160, 170⟩, turn := .engine }

theorem witness_TurnB0HashesMsgPrime :
    let s := heldLargest .expB0 .expand
    let t := heldLargest .expB0 .hashToField
    s.turn = .engine ∧ s.seq = .expB0 ∧ s.snap.op = .expand ∧ s.snap.dstLen.toNat ≤ 32 ∧ s.snap.msgLen.toNat ≤ 0xC000 ∧
      heldLength s ≤ 8160 ∧ t.snap.op = .hashToField ∧ heldLength t ≤ 8160 := by decide

theorem witness_TurnB1HashesMixFirst :
    let s := heldLargest .expB1 .hashToField
    s.turn = .engine ∧ s.seq = .expB1 ∧ s.snap.op = .hashToField ∧ s.snap.dstLen.toNat ≤ 32 ∧
      s.snap.msgLen.toNat ≤ 0xC000 ∧ heldLength s ≤ 8160 := by decide

theorem witness_TurnBIHashesMixChain :
    let s := heldLargest (.expBI 255) .hashToField
    s.turn = .engine ∧ s.seq = .expBI 255 ∧ s.snap.op = .hashToField ∧ s.snap.dstLen.toNat ≤ 32 ∧
      s.snap.msgLen.toNat ≤ 0xC000 ∧ heldLength s ≤ 8160 ∧ 2 ≤ 255 ∧ 255 ≤ 255 := by decide

theorem witness_TurnMapReducesOneSlice :
    let s := heldLargest (.map 169) .hashToField
    s.turn = .engine ∧ s.seq = .map 169 ∧ s.snap.op = .hashToField ∧ 169 < 170 := by decide

theorem witness_ExpandCommitPublishesExpbuf :
    let s := heldLargest .commit .expand
    s.turn = .engine ∧ s.seq = .commit ∧ s.snap.op = .expand := by decide

theorem witness_HashToFieldCommitPublishesResbuf :
    let s := heldLargest .commit .hashToField
    s.turn = .engine ∧ s.seq = .commit ∧ s.snap.op = .hashToField := by decide

theorem witness_TurnsBeforeCommitAreInvisible :
    let s := heldLargest (.map 0) .hashToField
    s.turn = .engine ∧ s.seq ≠ .commit := by decide

/-! ### Witnesses: whole commands -/

theorem witness_ExpandComputesExpandXMD :
    let s : State := { ready [wr32 0x0004 0x00000001] with dstLen := 32, msgLen := 16384, outLen := 8160 }
    s.rstN = true ∧ s.status.busy = false ∧ s.input = [wr32 0x0004 0x00000001] ∧ legalMsgBufSize s.msgbufSize.toNat ∧
      s.dstLen.toNat ≤ 32 ∧ s.msgLen.toNat ≤ s.msgbufSize.toNat ∧ s.outLen.toNat ≤ 8160 := by
  unfold legalMsgBufSize
  decide

theorem witness_HashToFieldComputesTheElements :
    let s : State := { ready [wr32 0x0004 0x00000002] with dstLen := 32, msgLen := 16384, count := 170 }
    s.rstN = true ∧ s.status.busy = false ∧ s.input = [wr32 0x0004 0x00000002] ∧ legalMsgBufSize s.msgbufSize.toNat ∧
      s.dstLen.toNat ≤ 32 ∧ s.msgLen.toNat ≤ s.msgbufSize.toNat ∧ s.count.toNat ≤ 170 := by
  unfold legalMsgBufSize
  decide

/-- A command held with empty operands, past its first digest or at its commit, is sound. -/
theorem held_inv (q : Seq) (i : Instr) (es : List Event) (b : Wide) (hq : q = .expB1 ∨ q = .commit) :
    Inv { held q i es with b0reg := b } := by
  refine ⟨⟨fun h => (by cases h.2), fun _ => rfl, fun h => (by cases h), fun _ => ⟨rfl, rfl⟩⟩, ⟨?_, fun _ => ⟨rfl, ?_, ?_, rfl⟩, ?_, ?_, ?_⟩,
    ⟨rfl, ?_, rfl, ?_, rfl, ?_⟩⟩
  · rcases hq with rfl | rfl <;> simp [held]
  · cases i <;> rfl
  · rcases hq with rfl | rfl <;> exact trivial
  · show legalMsgBufSize 16384
    unfold legalMsgBufSize
    decide
  · show 0 ≤ _
    exact Nat.zero_le _
  · intro h; cases h
  all_goals intro c h; cases h

/-- EXPAND of empty operands after EXP_B0, with the digest b0 in B0REG. -/
def afterB0 : State := { held .expB1 .expand [] with b0reg := bytesWide (digestZero [] [] 0) }

theorem witness_EveryStepKeepsTheInvariant :
    Inv afterB0 ∧ step afterB0 = .next (engineStep { afterB0 with turn := .engine }) :=
  ⟨held_inv _ _ _ _ (.inl rfl), step_engine_run (.inl ⟨rfl, rfl⟩) (by decide)⟩

theorem witness_EveryStepKeepsTheDatapath :
    Inv afterB0 ∧ DatapathInv afterB0 ∧ step afterB0 = .next (engineStep { afterB0 with turn := .engine }) :=
  ⟨held_inv _ _ _ _ (.inl rfl), wideBytes_bytesWide (sha256_length _),
    step_engine_run (.inl ⟨rfl, rfl⟩) (by decide)⟩

theorem witness_DoneMeansTheReferenceResult :
    let s := held .commit .expand [.engine]
    Inv s ∧ DatapathInv s ∧ step s = .next (committed s) ∧ s.status.done = false ∧ (committed s).status.done = true :=
  ⟨held_inv .commit .expand [.engine] 0 (.inr rfl), by simp [DatapathInv, held, State.expbufRead, expandXMD, slice], rfl,
    rfl, rfl⟩

theorem witness_HeldCommandsCommit : Inv afterB0 ∧ afterB0.seq ≠ .idle ∧ afterB0.input = [] :=
  ⟨held_inv _ _ _ _ (.inl rfl), by decide, rfl⟩

/-- Two states that differ in COUNT, in an unread message byte and in OUT_BUF. -/
theorem witness_ResultDependsOnlyOnItsInputs :
    let s1 : State := { ready [.bus (cmdWrite (encode .expand))] with dstLen := 1, outLen := 40, mem := [(0x100, 65)] }
    let s2 : State := { ready [.bus (cmdWrite (encode .expand))] with
      dstLen := 1, outLen := 40, count := 9, mem := [(0x100, 65), (0x2000, 1), (0x4000, 7)] }
    s1.rstN = true ∧ s1.status.busy = false ∧ s1.input = [.bus (cmdWrite (encode .expand))] ∧
    checkOperands .expand s1 = none ∧ s2.rstN = true ∧ s2.status.busy = false ∧
    s2.input = [.bus (cmdWrite (encode .expand))] ∧ checkOperands .expand s2 = none ∧ s1.dstLen = s2.dstLen ∧
    s1.msgLen = s2.msgLen ∧ s1.outLen = s2.outLen ∧ s1.byteAt 0x100 = s2.byteAt 0x100 ∧ s1.msgLen.toNat = 0 ∧
    legalMsgBufSize s1.msgbufSize.toNat := by
  refine ⟨rfl, rfl, rfl, rfl, rfl, rfl, rfl, rfl, rfl, rfl, rfl, rfl, rfl, ?_⟩
  unfold legalMsgBufSize
  decide

theorem witness_ClearAndCommitTakeEitherOrder :
    Inv (held .commit .hashToField []) ∧ (held .commit .hashToField []).seq = .commit ∧
    (0x00000002 : Word).getLsbD 1 = true :=
  ⟨held_inv .commit .hashToField [] 0 (.inr rfl), rfl, rfl⟩

/-! ### Witnesses: the functions -/

theorem witness_BarrettFormIsExact : 2 ^ 384 - 1 < 2 ^ 384 ∧ 0 < 2 ^ 384 := by decide +kernel

theorem witness_QuotientFits131Bits : 2 ^ 384 - 1 < 2 ^ 384 := by decide +kernel

theorem witness_MixFirstIsTheChainFormWithZero : (sha256 []).length = 32 := sha256_length []

theorem witness_MixerEmitsExactLengths :
    let c (m : BitVec 2) : MixerControl := ⟨m, false, 255, 96, 32, 0xC000, 0, 0⟩
    (c 0).mode = 0 ∧ (c 0).msgLen.toNat ≤ 0xC000 ∧ (c 1).mode = 1 ∧ (c 2).mode = 2 ∧ (c 2).mode ≠ 3 := by decide

theorem witness_ExpandedBytesComeFromTheChain : 0 < 8160 ∧ 8159 < 8160 := by decide

theorem witness_ChunksSpanTwoDigests : 0 < 1 ∧ 169 < 170 := by decide

theorem witness_ElementsAreInRangeAndInOrder : 0 < 1 ∧ 169 < 170 := by decide

end Sys2Proof.Tests
end

/-! ### Engine turns before the commit, and the commit (10_state.md R47; 20_memory.md R85; 42_expand_message_xmd.md
R191) -/

namespace Sys2Proof.Machine

/-- `s` with the hidden registers of `t`: the sequencer state, the datapath of R46 and the hash unit. -/
def withHidden (s t : State) : State :=
  { s with
    seq := t.seq, sha := t.sha, b0reg := t.b0reg, bireg := t.bireg, jreg := t.jreg
    expbuf := t.expbuf, resbuf := t.resbuf }

/-- Before the commit a turn of the sequencer touches the hidden registers alone, whatever command it is a turn of. -/
theorem sequencerTurn_hidden (p : PipelineIn) (after : Seq) (commit : State → State) {s : State}
    (hq : s.seq ≠ .commit) :
    sequencerTurn p after commit s = withHidden s (sequencerTurn p after commit s) := by
  unfold sequencerTurn
  cases hs : s.seq with
  | idle => rfl
  | expB0 => apply State.ext <;> simp [withHidden]
  | expB1 => apply State.ext <;> simp [withHidden]
  | expBI j => apply State.ext <;> simp [withHidden]
  | map i => apply State.ext <;> simp [withHidden]
  | commit => exact absurd hs hq

theorem engineStep_hidden {s : State} (hq : s.seq ≠ .commit) : engineStep s = withHidden s (engineStep s) := by
  rw [engineStep_eq]
  exact sequencerTurn_hidden _ _ _ hq

theorem engineStep_commit {s : State} (hq : s.seq = .commit) : engineStep s = commitHeld s := by
  rw [engineStep_eq, sequencerTurn, hq]

theorem commitHeld_status (s : State) : (commitHeld s).status = { s.status with busy := false, done := true } := by
  unfold commitHeld
  split <;> rfl

theorem commitHeld_seq (s : State) : (commitHeld s).seq = .idle := by
  unfold commitHeld
  split <;> rfl

theorem commitHeld_irqEn (s : State) : (commitHeld s).irqEn = s.irqEn := by
  unfold commitHeld
  split <;> rfl

/-- An engine turn is the turn of the command that `exec` is given (log 20 where that is not the one held). -/
theorem exec_engine_turn {s : State} (h : s.turn = .engine) (i : Instr) :
    ∃ p after commit, exec i s = .next (sequencerTurn p after commit s) := by
  cases i with
  | expand => exact ⟨_, _, _, by simp only [exec, execExpand, h]; rfl⟩
  | hashToField => exact ⟨_, _, _, by simp only [exec, execHashToField, h]; rfl⟩

/-- The state in which the engine moves is `s` with a list of events. -/
theorem engineNext_eq {s s' : State} (h : engineNext s s') :
    (∃ es, s' = { s with input := es }) ∧ (s.input = [] ∨ ∃ rest, s.input = .engine :: rest) := by
  rcases h with ⟨hin, rfl⟩ | ⟨rest, hin, rfl⟩
  · exact ⟨⟨s'.input, rfl⟩, .inl hin⟩
  · exact ⟨⟨rest, rfl⟩, .inr ⟨rest, hin⟩⟩

end Sys2Proof.Machine

/-! ### What one turn of a held command does (10_state.md R45, R47; 42_expand_message_xmd.md R190, R191;
45_hash_to_field.md R237, R238) -/

namespace Sys2Proof.Machine

/-- One turn of a command that passed acceptance, by the sequencer state it leaves. -/
inductive HeldTurn (s t : State) : Prop where
  | b0 (hq : s.seq = .expB0) (r : ShaRegs)
      (e : t = { s with
        sha := r, b0reg := bytesWide (digestZero (heldTag s) (heldMessage s) (heldLength s)), seq := .expB1 })
  | b1 (hq : s.seq = .expB1) (r : ShaRegs) (d : List Byte) (hd : d = sha256 (mixFirst (wideBytes s.b0reg) (heldTag s)))
      (e : t = { s with
        sha := r, bireg := bytesWide d, jreg := 1, expbuf := Memory.storeBytes s.expbuf 0 d
        seq := if heldLength s ≤ 32 then afterExpand s else .expBI 2 })
  | bi (j : Nat) (hq : s.seq = .expBI j) (hj : 2 ≤ j ∧ j ≤ ell (heldLength s)) (r : ShaRegs) (d : List Byte)
      (hd : d = sha256 (mixChain (wideBytes s.b0reg) (wideBytes s.bireg) (heldTag s) j))
      (e : t = { s with
        sha := r, bireg := bytesWide d, jreg := BitVec.ofNat 8 j
        expbuf := Memory.storeBytes s.expbuf (32 * (j - 1)) d
        seq := if j = ell (heldLength s) then afterExpand s else .expBI (j + 1) })
  | map (i : Nat) (hq : s.seq = .map i) (hop : s.snap.op = .hashToField) (hi : i < s.snap.count.toNat) (d : List Byte)
      (hd : d = i2osp (reduceNat (os2ip (s.expbufRead (elemSize * i) elemSize))) 32)
      (e : t = { s with
        resbuf := Memory.storeBytes s.resbuf (feBytes * i) d
        seq := if i + 1 = s.snap.count.toNat then .commit else .map (i + 1) })
  | commit (hq : s.seq = .commit) (e : t = commitHeld s)

/-- A held command's expansion needs at most 255 digests (R182, R183). -/
theorem PortBounds.ell_le {lx : Nat} {s : State} (h : PortBounds lx s) : ell lx ≤ 255 := by
  have := h.outLen
  simp only [ell, ceilDiv, hashLen]
  omega

/-- An accepted HASH_TO_FIELD asks for at most 170 elements (R232, R253). -/
theorem HeldInv.count_le {s : State} (h : HeldInv s) (hop : s.snap.op = .hashToField) : s.snap.count.toNat ≤ 170 := by
  have ec : s.snap.count = s.count := congrArg Snapshot.count h.snapshot
  obtain ⟨-, -, hlen⟩ := checkOperands_eq_none.mp h.accepted
  rw [hop] at hlen
  exact ec ▸ hlen

/-- What the engine's turn of a held command does (R190, R191, R237, R238). -/
theorem engineStep_held {s : State} (h : HeldInv s) (hs : legalMsgBufSize s.msgbufSize.toNat) (hi : s.seq ≠ .idle) :
    HeldTurn s (engineStep s) := by
  have hb := h.portBounds hs
  have hr := h.inRange
  rw [seqInRange] at hr
  rw [engineStep_eq, heldPipeline]
  cases hq : s.seq with
  | idle => exact absurd hq hi
  | expB0 =>
    obtain ⟨r, e, -⟩ := turnB0_spec hb
    simp only [sequencerTurn, hq, e]
    exact .b0 hq r rfl
  | expB1 =>
    obtain ⟨r, m, e, -, hm⟩ := turnB1_spec hb (afterExpand s)
    simp only [sequencerTurn, hq, e, hm]
    exact .b1 hq r _ rfl rfl
  | expBI j =>
    rw [hq] at hr
    obtain ⟨r, m, e, -, hm⟩ := turnBI_spec hb (afterExpand s) (hr.2.trans hb.ell_le)
    simp only [sequencerTurn, hq, e, hm]
    exact .bi j hq hr r _ rfl rfl
  | map i =>
    rw [hq] at hr
    obtain ⟨hop, hlt⟩ := hr
    have hc := h.count_le hop
    obtain ⟨m, e, hm⟩ := turnMap_spec (i := i) (by omega) s
    simp only [sequencerTurn, hq, e, hm]
    exact .map i hq hop hlt _ rfl rfl
  | commit =>
    simp only [sequencerTurn, hq]
    exact .commit hq rfl

/-- AFTER_EXPAND is COMMIT, or MAP(0) of a HASH_TO_FIELD with an element to make (R190). -/
theorem afterExpand_cases (s : State) :
    (afterExpand s = .commit ∧ (s.snap.op = .expand ∨ s.snap.count.toNat = 0)) ∨
      (afterExpand s = .map 0 ∧ s.snap.op = .hashToField ∧ 0 < s.snap.count.toNat) := by
  unfold afterExpand
  by_cases hc : s.snap.count = 0
  · exact .inl ⟨if_pos (.inr hc), .inr (by rw [hc]; rfl)⟩
  · have hpos : 0 < s.snap.count.toNat := Nat.pos_of_ne_zero fun h0 => hc (BitVec.eq_of_toNat_eq h0)
    cases hop : s.snap.op with
    | expand => exact .inl ⟨if_pos (.inl rfl), .inl rfl⟩
    | hashToField => exact .inr ⟨if_neg (by simpa using hc), rfl, hpos⟩

/-- AFTER_EXPAND is a sequencer state in range, and not IDLE (R190). -/
theorem afterExpand_inRange (s : State) : afterExpand s ≠ .idle ∧ seqInRange { s with seq := afterExpand s } := by
  rcases afterExpand_cases s with ⟨e, -⟩ | ⟨e, hop, hc⟩ <;> rw [e]
  · exact ⟨Seq.noConfusion, trivial⟩
  · exact ⟨Seq.noConfusion, hop, hc⟩

/-- Before its commit a held command goes on to a sequencer state in range, and not to IDLE (R45, R190, R237). -/
theorem HeldTurn.inRange {s t : State} (h : HeldTurn s t) (hq : s.seq ≠ .commit) : t.seq ≠ .idle ∧ seqInRange t := by
  obtain ⟨ha, har⟩ := afterExpand_inRange s
  cases h with
  | b0 _ r e => exact e ▸ ⟨Seq.noConfusion, trivial⟩
  | b1 _ r d _ e =>
    rw [e]
    split
    · exact ⟨ha, har⟩
    · refine ⟨Seq.noConfusion, le_rfl, ?_⟩
      show 2 ≤ ell (heldLength s)
      unfold ell ceilDiv hashLen
      omega
  | bi j _ hj r d _ e =>
    rw [e]
    split
    · exact ⟨ha, har⟩
    · refine ⟨Seq.noConfusion, ?_, ?_⟩
      · omega
      · show j + 1 ≤ ell (heldLength s)
        omega
  | map i _ hop hi d _ e =>
    rw [e]
    split
    · exact ⟨Seq.noConfusion, trivial⟩
    · refine ⟨Seq.noConfusion, hop, ?_⟩
      show i + 1 < s.snap.count.toNat
      omega
  | commit hc _ => exact absurd hc hq

/-- A held command stays held until its commit (R45, R53). -/
theorem HeldInv.engineStep {s : State} (h : HeldInv s) (hs : legalMsgBufSize s.msgbufSize.toNat) (hi : s.seq ≠ .idle)
    (hq : s.seq ≠ .commit) : HeldInv (engineStep s) := by
  obtain ⟨-, hrange⟩ := (engineStep_held h hs hi).inRange hq
  rw [engineStep_hidden hq] at hrange ⊢
  exact ⟨h.snapshot, h.accepted, hrange, h.running⟩

end Sys2Proof.Machine

/-! ### Sound states (10_state.md R34 to R36, R45, R46, R53) -/

namespace Sys2Proof.Machine

/-! #### STATUS -/

theorem StatusInv.zero : StatusInv Status.zero :=
  ⟨fun h => Bool.noConfusion h.1, fun _ => rfl, fun h => Bool.noConfusion h, fun _ => ⟨rfl, rfl⟩⟩

/-- A dropped write leaves the promises about STATUS alone (R53). -/
theorem StatusInv.drop {st : Status} (h : StatusInv st) : StatusInv { st with busywr := true } :=
  ⟨h.notBoth, h.codeZero, h.codeRange, h.busyClear⟩

/-- Error entry with BUSY = 0 and DONE cleared (R255). -/
theorem StatusInv.raise {st : Status} (hb : st.busy = false) (code : ErrCode) :
    StatusInv { st with done := false, err := true, errcode := code.number } := by
  refine ⟨fun h => Bool.noConfusion h.1, fun h => Bool.noConfusion h, fun _ => ?_, fun h => ?_⟩
  · show 1 ≤ code.number.toNat ∧ code.number.toNat ≤ 4
    cases code <;> decide
  · exact absurd (hb ▸ h) Bool.false_ne_true

/-- Acceptance clears DONE, ERR and ERRCODE and sets BUSY (R104). -/
theorem StatusInv.start (st : Status) : StatusInv { st with busy := true, done := false, err := false, errcode := 0 } :=
  ⟨fun h => Bool.noConfusion h.1, fun _ => rfl, fun h => Bool.noConfusion h, fun _ => ⟨rfl, rfl⟩⟩

/-- The commit of a held command sets DONE; ERR was 0 while BUSY = 1 (R35, R191). -/
theorem StatusInv.finish {st : Status} (h : StatusInv st) (hb : st.busy = true) :
    StatusInv { st with busy := false, done := true } := by
  have he : st.err = false := (h.busyClear hb).2
  exact ⟨fun hd => absurd (he ▸ hd.2) Bool.false_ne_true, h.codeZero, h.codeRange, fun hf => Bool.noConfusion hf⟩

/-- A write of ones to STATUS (R33): ERRCODE goes with ERR. -/
theorem StatusInv.clear {st : Status} (h : StatusInv st) (v : Word) : StatusInv (st.writeOneToClear v) := by
  obtain ⟨hboth, hzero, hrange, hbusy⟩ := h
  have hset : (st.writeOneToClear v).done = true → st.done = true := fun hd => (Bool.and_eq_true_iff.mp hd).1
  have hdone : st.busy = true → (st.writeOneToClear v).done = false := fun hb => by
    simp [Status.writeOneToClear, (hbusy hb).1]
  cases hv : v.getLsbD 2 with
  | true =>
    have he : (st.writeOneToClear v).err = false := by
      simp only [Status.writeOneToClear, hv, Bool.not_true, Bool.and_false]
    have hc : (st.writeOneToClear v).errcode = 0 := by
      simp only [Status.writeOneToClear, hv, if_true]
    exact ⟨fun hd => absurd (he.symm.trans hd.2) Bool.noConfusion, fun _ => hc,
      fun h1 => absurd (he.symm.trans h1) Bool.noConfusion, fun hb => ⟨hdone hb, he⟩⟩
  | false =>
    have he : (st.writeOneToClear v).err = st.err := by
      simp only [Status.writeOneToClear, hv, Bool.not_false, Bool.and_true]
    have hc : (st.writeOneToClear v).errcode = st.errcode := by
      simp only [Status.writeOneToClear, hv, Bool.false_eq_true, if_false]
    exact ⟨fun hd => hboth ⟨hset hd.1, he ▸ hd.2⟩, fun h0 => hc.trans (hzero (he ▸ h0)),
      fun h1 => hc ▸ hrange (he ▸ h1), fun hb => ⟨hdone hb, he.trans (hbusy hb).2⟩⟩

/-! #### What keeps a state sound -/

section
variable {s : State}

/-- What is promised of a held command reads the snapshot, the operands and the sequencer (R45, R53). -/
theorem HeldInv.of_eq {t : State} (h : HeldInv s) (hsnap : t.snap = s.snap)
    (hops : takeSnapshot s.snap.op t = takeSnapshot s.snap.op s)
    (hcheck : checkOperands s.snap.op t = checkOperands s.snap.op s) (hseq : t.seq = s.seq) (hr : t.rstN = true) :
    HeldInv t := by
  refine ⟨?_, ?_, ?_, hr⟩
  · rw [hsnap, hops, ← h.snapshot]
  · rw [hsnap, hcheck, h.accepted]
  · have hrange := h.inRange
    simp only [seqInRange, heldLength] at hrange ⊢
    rwa [hsnap, hseq]

/-- What is promised of the buffers reads the buffers and MSGBUF_SIZE (R40 to R42). -/
theorem MemoryInv.of_eq {t : State} (h : MemoryInv s) (hm : t.mem = s.mem) (hs : t.msgbufSize = s.msgbufSize)
    (hx : t.expbuf = s.expbuf) (hy : t.resbuf = s.resbuf) : MemoryInv t := by
  obtain ⟨hwf, hplaces, hxwf, hxp, hywf, hyp⟩ := h
  exact ⟨hm ▸ hwf, hm ▸ hs ▸ hplaces, hx ▸ hxwf, hx ▸ hxp, hy ▸ hywf, hy ▸ hyp⟩

/-- The port's answer, the list of events and the turn play no part in soundness. -/
theorem Inv.port (h : Inv s) (es : List Event) (a : Agent) (r : Option BusResponse) :
    Inv { s with input := es, turn := a, response := r } := by
  obtain ⟨hst, ⟨hbusy, hheld, hsize, hlen, hreset⟩, hmem⟩ := h
  exact ⟨hst, ⟨hbusy, fun hq => (hheld hq).of_eq rfl rfl rfl rfl (hheld hq).running,
    hsize, hlen, hreset⟩, hmem.of_eq rfl rfl rfl rfl⟩

/-- Out of reset, IRQ_EN and STATUS but for BUSY may change as the promises about STATUS allow. -/
theorem Inv.flags (h : Inv s) (hr : s.rstN = true) {st : Status} (e : IrqEn) (hst : StatusInv st)
    (hb : st.busy = s.status.busy) : Inv { s with status := st, irqEn := e } := by
  obtain ⟨-, ⟨hbusy, hheld, hsize, hlen, -⟩, hmem⟩ := h
  refine ⟨hst, ⟨?_, fun hq => (hheld hq).of_eq rfl rfl rfl rfl (hheld hq).running,
    hsize, hlen, fun h0 => ?_⟩, hmem.of_eq rfl rfl rfl rfl⟩
  · exact hb ▸ hbusy
  · exact absurd (hr.symm.trans h0) Bool.noConfusion

/-- While IDLE and out of reset the operand registers may take any value (R39). -/
theorem Inv.operands (h : Inv s) (hr : s.rstN = true) (hq : s.seq = .idle) (d m o c : Word) :
    Inv { s with dstLen := d, msgLen := m, outLen := o, count := c } := by
  obtain ⟨hst, ⟨hbusy, -, hsize, hlen, -⟩, hmem⟩ := h
  exact ⟨hst, ⟨hbusy, fun hn => absurd hq hn, hsize, hlen, fun h0 => absurd (hr.symm.trans h0) Bool.noConfusion⟩,
    hmem.of_eq rfl rfl rfl rfl⟩

/-- A string written inside the buffers keeps a state sound (R40 to R42). -/
theorem Inv.memWrite (h : Inv s) {off : Nat} {bs : List Byte}
    (hp : ∀ a, off ≤ a → a < off + bs.length → bufferOffset s.msgbufSize.toNat a) : Inv (s.memWrite off bs) := by
  obtain ⟨hst, ⟨hbusy, hheld, hsize, hlen, hreset⟩, hmem⟩ := h
  refine ⟨hst, ⟨hbusy, fun hq => (hheld hq).of_eq rfl rfl rfl rfl (hheld hq).running,
    hsize, hlen, hreset⟩, ⟨Memory.wf_storeBytes hmem.memWf _ _, fun c hc => ?_, hmem.expbufWf, hmem.expbufPlaces,
    hmem.resbufWf, hmem.resbufPlaces⟩⟩
  rcases Memory.mem_storeBytes hc with hnew | hold
  · exact hp c.1 hnew.1 hnew.2
  · exact hmem.memPlaces c hold

/-- The command just accepted is held (R104). -/
theorem startCommand_held {i : Instr} (hr : s.rstN = true) (hc : checkOperands i s = none) :
    HeldInv (startCommand i s) := ⟨rfl, hc, trivial, hr⟩

/-- Acceptance of a command whose operands pass the checks (R104). -/
theorem Inv.start (h : Inv s) (hr : s.rstN = true) {i : Instr} (hc : checkOperands i s = none) :
    Inv (startCommand i (clearOutcome s)) := by
  obtain ⟨-, ⟨-, -, hsize, hlen, -⟩, hmem⟩ := h
  exact ⟨StatusInv.start s.status, ⟨⟨fun _ => Seq.noConfusion, fun _ => rfl⟩,
    fun _ => startCommand_held (s := clearOutcome s) hr hc, hsize, hlen,
    fun h0 => absurd (hr.symm.trans h0) Bool.noConfusion⟩,
    hmem.of_eq rfl rfl rfl rfl⟩

/-- A held command's turn keeps a state sound if it leaves the sequencer in range and EXPBUF and RESBUF canonical,
whatever it leaves in the other hidden registers (R45, R46). -/
theorem Inv.withHidden (h : Inv s) (hq : s.seq ≠ .idle) {t : State} (hn : t.seq ≠ .idle)
    (hr : seqInRange (withHidden s t)) (hx : Memory.wf t.expbuf = true ∧ ∀ c ∈ t.expbuf, c.1 < outLenMax)
    (hy : Memory.wf t.resbuf = true ∧ ∀ c ∈ t.resbuf, c.1 < outBufSize) : Inv (withHidden s t) := by
  obtain ⟨hst, ⟨hbusy, hheld, hsize, hlen, -⟩, hmem⟩ := h
  obtain ⟨hsnap, hacc, -, hrun⟩ := hheld hq
  exact ⟨hst, ⟨⟨fun _ => hn, fun _ => hbusy.mpr hq⟩, fun _ => ⟨hsnap, hacc, hr, hrun⟩, hsize, hlen,
    fun h0 => absurd (hrun.symm.trans h0) Bool.noConfusion⟩, ⟨hmem.memWf, hmem.memPlaces, hx.1, hx.2, hy.1, hy.2⟩⟩

/-- The end of a held command (R191, R238). -/
theorem Inv.finish (h : Inv s) (hq : s.seq ≠ .idle) {n : Word} (hn : n.toNat ≤ outLenMax) :
    Inv (finishCommand n s) := by
  obtain ⟨hst, ⟨hbusy, hheld, hsize, -, -⟩, hmem⟩ := h
  have hrun := (hheld hq).running
  exact ⟨hst.finish (hbusy.mpr hq), ⟨⟨fun hb => Bool.noConfusion hb, fun hi => absurd rfl hi⟩, fun hi => absurd rfl hi,
    hsize, hn, fun h0 => absurd (hrun.symm.trans h0) Bool.noConfusion⟩,
    hmem.of_eq rfl rfl rfl rfl⟩

/-- The rise of `rst_n` (R282). -/
theorem Inv.leaveReset (h : Inv s) : Inv (leaveReset s) := by
  obtain ⟨hst, ⟨hbusy, hheld, hsize, hlen, -⟩, hmem⟩ := h
  exact ⟨hst, ⟨hbusy, fun hq => (hheld hq).of_eq rfl rfl rfl rfl rfl, hsize, hlen,
    fun h0 => Bool.noConfusion h0⟩,
    hmem.of_eq rfl rfl rfl rfl⟩

end

/-- What reset leaves is sound (R50, R280). -/
theorem resetValue_inv {size : Word} (h : legalMsgBufSize size.toNat) (epoch : Nat) (level : Bool) (es : List Event) :
    Inv (State.resetValue size epoch level es) :=
  ⟨StatusInv.zero, ⟨⟨fun hb => Bool.noConfusion hb, fun hi => absurd rfl hi⟩, fun hi => absurd rfl hi, h, Nat.zero_le _,
    fun _ => ⟨rfl, rfl, rfl, rfl, rfl, rfl, rfl, rfl⟩⟩,
    ⟨rfl, fun _ hc => absurd hc List.not_mem_nil, rfl, fun _ hc => absurd hc List.not_mem_nil, rfl,
      fun _ hc => absurd hc List.not_mem_nil⟩⟩

/-! #### The host's writes -/

/-- A dropped write (R53). -/
theorem Inv.dropWrite {s : State} (h : Inv s) (hr : s.rstN = true) : Inv (dropWrite s) :=
  h.flags hr s.irqEn h.status.drop rfl

/-- A refused CMD write (R255). -/
theorem Inv.refuse {s : State} (h : Inv s) (hr : s.rstN = true) (hb : s.status.busy = false) (code : ErrCode) :
    Inv (raiseError code (clearOutcome s)) :=
  h.flags hr s.irqEn (.raise hb code) rfl

/-- With BUSY = 0 no command is held (R34, R45). -/
theorem Inv.idle_of_not_busy {s : State} (h : Inv s) (hb : s.status.busy = false) : s.seq = .idle :=
  Classical.byContradiction fun hq => absurd ((h.control.busyIff.mpr hq).symm.trans hb) Bool.noConfusion

/-- A write that the busy rule covers keeps a state sound if its effect does while IDLE (R53). -/
theorem Inv.unlessBusy {s : State} (h : Inv s) (hr : s.rstN = true) {act : State → State}
    (ha : s.seq = .idle → Inv (act s)) : Inv (unlessBusy act s) := by
  cases hb : s.status.busy with
  | true => exact unlessBusy_busy hb act ▸ h.dropWrite hr
  | false => exact unlessBusy_idle hb act ▸ ha (h.idle_of_not_busy hb)

/-- A transaction that reaches DST_BUF or MSG_BUF lies whole within it (R73, R75). -/
theorem busAccess_writable {t : Transaction} {s : State} {p : Place} (h : busAccess t s = some p)
    (hp : p = .dstBuf ∨ p = .msgBuf) :
    (0x0100 ≤ t.off.toNat ∧ t.off.toNat + t.size.bytes ≤ 0x0120) ∨
      (0x4000 ≤ t.off.toNat ∧ t.off.toNat + t.size.bytes ≤ 0x4000 + s.msgbufSize.toNat) := by
  rcases busAccess_place h with hc | hb
  · obtain ⟨-, -, -, hd, -, hm⟩ := controlPlace_off hc
    exact absurd hp (by simp [hd, hm])
  · rcases bufferPlace_bounds hb with ⟨-, hb⟩ | ⟨rfl, -⟩ | ⟨-, hb⟩
    · exact .inl hb
    · exact absurd hp (by decide)
    · exact .inr hb

/-- What such a transaction covers are offsets of a buffer (R75). -/
theorem bufferOffset_of_busAccess {t : Transaction} {s : State} {p : Place} (h : busAccess t s = some p)
    (hp : p = .dstBuf ∨ p = .msgBuf) {a : Nat} (h1 : t.off.toNat ≤ a) (h2 : a < t.off.toNat + t.size.bytes) :
    bufferOffset s.msgbufSize.toNat a := by
  have hbounds := busAccess_writable h hp
  unfold bufferOffset dstBufBase dstBufSize outBufBase outBufSize msgBufBase
  omega

/-- A legal write to a place other than CMD (R51). -/
theorem Inv.writePlace {s : State} (h : Inv s) (hr : s.rstN = true) {t : Transaction} {p : Place}
    (ha : busAccess t s = some p) : Inv (writePlace p t s) := by
  have buffer (hp : p = .dstBuf ∨ p = .msgBuf) : Inv (s.memWrite t.off.toNat (writeLanes t.wdata t.size)) :=
    h.memWrite fun a h1 h2 => bufferOffset_of_busAccess ha hp h1 (by simpa using h2)
  cases p with
  | id | cmd | resultLen | msgbufSize | outBuf => exact h
  | status => exact h.flags hr s.irqEn (h.status.clear t.wdata) rfl
  | irqEn => exact h.flags hr _ h.status rfl
  | dstLen | msgLen | outLen | count =>
    unfold Machine.writePlace
    exact h.unlessBusy hr fun hq => h.operands hr hq _ _ _ _
  | dstBuf =>
    unfold Machine.writePlace
    exact h.unlessBusy hr fun _ => buffer (.inl rfl)
  | msgBuf =>
    unfold Machine.writePlace
    exact h.unlessBusy hr fun _ => buffer (.inr rfl)

/-- A CMD write of a command (R104). -/
theorem Inv.acceptCommand {s : State} (h : Inv s) (hr : s.rstN = true) (i : Instr) : Inv (acceptCommand i s) := by
  rcases acceptCommand_cases i s with ⟨-, e⟩ | ⟨code, hb, -, e⟩ | ⟨-, hc, e⟩ <;> rw [e]
  · exact h.dropWrite hr
  · exact h.refuse hr hb code
  · exact h.start hr hc

/-- A CMD write of a word that is no command (R103). -/
theorem Inv.refuseWord {s : State} (h : Inv s) (hr : s.rstN = true) : Inv (refuseWord s) := by
  cases hb : s.status.busy with
  | true => exact refuseWord_busy hb ▸ h.dropWrite hr
  | false => exact refuseWord_idle hb ▸ h.refuse hr hb .illegalCommand

/-! #### The engine's turns -/

/-- The commit of a held command keeps a state sound (R191, R238). -/
theorem Inv.commitHeld {s : State} (h : Inv s) (hq : s.seq ≠ .idle) : Inv (commitHeld s) := by
  have hb := ((h.control.held hq).portBounds h.control.sizeLegal).outLen
  have commit (n : Word) (bs : List Byte) (hn : n.toNat ≤ outLenMax) (hl : bs.length ≤ outLenMax) :
      Inv (finishCommand n (s.memWrite outBufBase bs)) := by
    refine (h.memWrite fun a h1 h2 => .inr (.inl ⟨h1, ?_⟩)).finish hq hn
    unfold outLenMax at hl
    unfold outBufSize
    omega
  unfold heldLength elemSize at hb
  unfold Machine.commitHeld
  split <;> rename_i hop <;> rw [hop] at hb
  · exact commit _ _ hb ((expbufRead_length s 0 _).trans_le hb)
  · have hc : feBytes * s.snap.count.toNat ≤ outLenMax := by unfold feBytes outLenMax; simp only at hb; omega
    refine commit _ _ ?_ ((resbufRead_length s 0 _).trans_le hc)
    rw [BitVec.toNat_ofNat]
    exact (Nat.mod_le _ _).trans hc

/-- A string written within a store's places keeps the store canonical (log 22). -/
theorem Memory.canonical_storeBytes {m : Memory} {n x : Nat} {bs : List Byte}
    (h : Memory.wf m = true ∧ ∀ c ∈ m, c.1 < n) (hb : x + bs.length ≤ n) :
    Memory.wf (Memory.storeBytes m x bs) = true ∧ ∀ c ∈ Memory.storeBytes m x bs, c.1 < n := by
  refine ⟨Memory.wf_storeBytes h.1 _ _, fun c hc => ?_⟩
  rcases Memory.mem_storeBytes hc with hnew | hold
  · omega
  · exact h.2 c hold

/-- A held command's turns write EXPBUF and RESBUF within their places (R46, R190, R237). -/
theorem Inv.turn_stores {s : State} (h : Inv s) (hq : s.seq ≠ .idle) (hc : s.seq ≠ .commit) :
    (Memory.wf (engineStep s).expbuf = true ∧ ∀ c ∈ (engineStep s).expbuf, c.1 < outLenMax) ∧
      (Memory.wf (engineStep s).resbuf = true ∧ ∀ c ∈ (engineStep s).resbuf, c.1 < outBufSize) := by
  have hh := h.control.held hq
  obtain ⟨-, -, hx, hxp, hy, hyp⟩ := h.memory
  have digest {x : Nat} {d : List Byte} (hd : d.length = 32) (hm : x + 32 ≤ outLenMax) :=
    Memory.canonical_storeBytes ⟨hx, hxp⟩ (hd ▸ hm : x + d.length ≤ outLenMax)
  cases engineStep_held hh h.control.sizeLegal hq with
  | b0 _ r e => exact e ▸ ⟨⟨hx, hxp⟩, hy, hyp⟩
  | b1 _ r d hd e => exact e ▸ ⟨digest (hd ▸ sha256_length _) (by decide), hy, hyp⟩
  | bi j _ hj r d hd e =>
    have hl := (hh.portBounds h.control.sizeLegal).ell_le
    exact e ▸ ⟨digest (hd ▸ sha256_length _) (by unfold outLenMax; omega), hy, hyp⟩
  | map i _ hop hi d hd e =>
    have hcount := hh.count_le hop
    have hl : d.length = 32 := hd ▸ i2osp_length _ _
    exact e ▸ ⟨⟨hx, hxp⟩, Memory.canonical_storeBytes ⟨hy, hyp⟩ (by unfold feBytes outBufSize; omega)⟩
  | commit hcom _ => exact absurd hcom hc

/-- An engine turn with a command held (R190, R237). -/
theorem Inv.engineStep {s : State} (h : Inv s) (hq : s.seq ≠ .idle) : Inv (engineStep s) := by
  by_cases hc : s.seq = .commit
  · exact engineStep_commit hc ▸ h.commitHeld hq
  · have hh := h.control.held hq
    obtain ⟨hn, -⟩ := (engineStep_held hh h.control.sizeLegal hq).inRange hc
    have hr := (hh.engineStep h.control.sizeLegal hq hc).inRange
    obtain ⟨hx, hy⟩ := h.turn_stores hq hc
    rw [engineStep_hidden hc] at hr ⊢
    exact h.withHidden hq hn hr hx hy

/-! #### Every step -/

theorem Inv.engineNext {s s' : State} (h : Inv s) (hn : engineNext s s') : Inv s' := by
  rcases hn with ⟨-, rfl⟩ | ⟨rest, -, rfl⟩
  · exact h
  · exact h.port rest s.turn s.response

theorem Inv.busNext {s s' : State} {t : Transaction} (h : Inv s) (hn : busNext s t s') : Inv s' := by
  obtain ⟨rest, -, rfl⟩ := hn
  exact h.port rest .host s.response

/-- The port performs a transaction out of reset (R280). -/
theorem busNext_rstN {s s' : State} {t : Transaction} (hn : busNext s t s') (hr : s.rstN = true) :
    (answerWrite s').rstN = true := by
  obtain ⟨rest, -, rfl⟩ := hn
  exact hr

theorem Inv.response {s : State} (h : Inv s) (r : Option BusResponse) : Inv { s with response := r } :=
  h.port s.input s.turn r

theorem Inv.answerWrite {s : State} (h : Inv s) : Inv (answerWrite s) := h.response _

/-- Every step keeps a sound state sound. -/
theorem Inv.step {s t : State} (h : Inv s) (hst : step s = .next t) : Inv t := by
  cases step_cases hst with
  | engineIdle s' hn _ e => exact e ▸ h.engineNext hn
  | engineRun s' hn hi e => exact e ▸ ((h.engineNext hn).port s'.input .engine s'.response).engineStep hi
  | assertReset rest _ e => exact e ▸ resetValue_inv h.control.sizeLegal _ _ _
  | releaseReset rest _ e => exact e ▸ (h.port rest s.turn s.response).leaveReset
  | busError x s' hn _ _ e => exact e ▸ (h.busNext hn).response _
  | busRead x s' p hn _ _ _ e => exact e ▸ (h.busNext hn).response _
  | busWrite x s' p hn hr ha _ _ e =>
    exact e ▸ (h.busNext hn).answerWrite.writePlace (busNext_rstN hn hr) ha
  | command x s' i hn hr _ _ _ e => exact e ▸ (h.busNext hn).answerWrite.acceptCommand (busNext_rstN hn hr) i
  | illegalWord x s' err hn hr _ _ _ e => exact e ▸ (h.busNext hn).answerWrite.refuseWord (busNext_rstN hn hr)

end Sys2Proof.Machine

namespace Sys2Proof.Proofs

/-- Settles O45, by the kinds of step of `step_cases`. -/
theorem everyStepKeepsTheInvariant : Obligations.EveryStepKeepsTheInvariant :=
  fun _ _ h hst => h.step hst

end Sys2Proof.Proofs

/-! ### What the port's writes do (20_memory.md R71, R74; 10_state.md R33, R38, R39, R53) -/

namespace Sys2Proof.Machine

/-- The places that only a write with BUSY = 0 changes (R53). -/
def setupPlaces : List Place := [.cmd, .dstLen, .msgLen, .outLen, .count, .dstBuf, .msgBuf]

/-- The places that ignore a write (R74). -/
def readOnlyPlaces : List Place := [.id, .resultLen, .msgbufSize, .outBuf]

theorem writePlace_status (x : Transaction) (s : State) : writePlace .status x s = writeStatus x.wdata s := rfl

theorem writePlace_readOnly {p : Place} (hp : p ∈ readOnlyPlaces) (x : Transaction) (s : State) :
    writePlace p x s = s := by
  simp only [readOnlyPlaces, List.mem_cons, List.not_mem_nil, or_false] at hp
  rcases hp with rfl | rfl | rfl | rfl <;> rfl

/-- A write of the busy rule to a place other than CMD, while BUSY (R53). -/
theorem writePlace_dropped {p : Place} (hp : p ∈ setupPlaces) (hc : p ≠ .cmd) {s : State} (hb : s.status.busy = true)
    (x : Transaction) : writePlace p x s = dropWrite s := by
  simp only [setupPlaces, List.mem_cons, List.not_mem_nil, or_false] at hp
  rcases hp with rfl | rfl | rfl | rfl | rfl | rfl | rfl
  · exact absurd rfl hc
  all_goals rw [writePlace, unlessBusy_busy hb]

/-- A write to DST_BUF or MSG_BUF with BUSY = 0 (R40, R41, R71). -/
theorem writePlace_buffer {p : Place} (hp : p = .dstBuf ∨ p = .msgBuf) {s : State} (hb : s.status.busy = false)
    (x : Transaction) : writePlace p x s = s.memWrite x.off.toNat (writeLanes x.wdata x.size) := by
  rcases hp with rfl | rfl <;> rw [writePlace, unlessBusy_idle hb]

/-- What a write to a place other than CMD does to STATUS: dropped, taken by STATUS itself, or nothing (R33, R53). -/
theorem writePlace_status_cases (p : Place) (x : Transaction) (s : State) :
    (writePlace p x s).status = s.status ∨ (p ∈ setupPlaces ∧ s.status.busy = true ∧ writePlace p x s = dropWrite s) ∨
      (p = .status ∧ (writePlace p x s).status = s.status.writeOneToClear x.wdata) := by
  cases hb : s.status.busy with
  | true =>
    cases p with
    | id | cmd | irqEn | resultLen | msgbufSize | outBuf => exact .inl rfl
    | status => exact .inr (.inr ⟨rfl, rfl⟩)
    | dstLen | msgLen | outLen | count | dstBuf | msgBuf =>
      exact .inr (.inl ⟨by decide, rfl, writePlace_dropped (by decide) (by decide) hb x⟩)
  | false =>
    cases p with
    | id | cmd | irqEn | resultLen | msgbufSize | outBuf => exact .inl rfl
    | status => exact .inr (.inr ⟨rfl, rfl⟩)
    | dstLen | msgLen | outLen | count | dstBuf | msgBuf =>
      exact .inl (by simp [writePlace, unlessBusy_idle hb])

/-- A write of the busy rule changes no byte that its effect leaves alone. -/
theorem unlessBusy_byteAt {act : State → State} {s : State} {a : Nat} (h : (act s).byteAt a = s.byteAt a) :
    (unlessBusy act s).byteAt a = s.byteAt a := by
  cases hb : s.status.busy with
  | true => rw [unlessBusy_busy hb]; rfl
  | false => rw [unlessBusy_idle hb, h]

/-- No write of the host changes OUT_BUF (R42, R74). -/
theorem writePlace_outBuf {p : Place} {x : Transaction} {s : State} (ha : busAccess x s = some p) {a : Nat}
    (hout : 0x2000 ≤ a ∧ a < 0x4000) : (writePlace p x s).byteAt a = s.byteAt a := by
  have buffer (hp : p = .dstBuf ∨ p = .msgBuf) :
      (s.memWrite x.off.toNat (writeLanes x.wdata x.size)).byteAt a = s.byteAt a := by
    have hbounds := busAccess_writable ha hp
    have hmiss : ¬(x.off.toNat ≤ a ∧ a < x.off.toNat + x.size.bytes) := by omega
    rw [byteAt_memWrite, writeLanes_length, if_neg hmiss]
  cases p with
  | id | cmd | status | irqEn | resultLen | msgbufSize | outBuf => rfl
  | dstLen | msgLen | outLen | count => rw [writePlace]; exact unlessBusy_byteAt rfl
  | dstBuf => rw [writePlace]; exact unlessBusy_byteAt (buffer (.inl rfl))
  | msgBuf => rw [writePlace]; exact unlessBusy_byteAt (buffer (.inr rfl))

/-- Whatever becomes of a CMD write of a command, the buffers, the outputs, IRQ_EN and the parameter stay (R104). -/
theorem acceptCommand_frame (i : Instr) (s : State) :
    (acceptCommand i s).mem = s.mem ∧ (acceptCommand i s).epoch = s.epoch ∧
      (acceptCommand i s).resultLen = s.resultLen ∧ (acceptCommand i s).msgbufSize = s.msgbufSize ∧
      (acceptCommand i s).irqEn = s.irqEn := by
  rcases acceptCommand_cases i s with ⟨-, e⟩ | ⟨code, -, -, e⟩ | ⟨-, -, e⟩
  all_goals rw [e]; exact ⟨rfl, rfl, rfl, rfl, rfl⟩

/-- Whatever becomes of a CMD write of another word, the buffers, the outputs, IRQ_EN and the parameter stay (R103). -/
theorem refuseWord_frame (s : State) :
    (refuseWord s).mem = s.mem ∧ (refuseWord s).epoch = s.epoch ∧ (refuseWord s).resultLen = s.resultLen ∧
      (refuseWord s).msgbufSize = s.msgbufSize ∧ (refuseWord s).irqEn = s.irqEn := by
  unfold refuseWord
  split <;> exact ⟨rfl, rfl, rfl, rfl, rfl⟩

/-- A transaction that reaches a control register names its offset (R75). -/
theorem off_of_busAccess {x : Transaction} {s : State} {p : Place} (ha : busAccess x s = some p) :
    (p = .cmd → x.off = 0x0004) ∧ (p = .status → x.off = 0x0008) ∧ (p = .irqEn → x.off = 0x000C) := by
  rcases busAccess_place ha with hc | hb
  · obtain ⟨hcmd, hstatus, hirq, -⟩ := controlPlace_off hc
    exact ⟨fun hp => BitVec.eq_of_toNat_eq (hcmd hp), fun hp => BitVec.eq_of_toNat_eq (hstatus hp),
      fun hp => BitVec.eq_of_toNat_eq (hirq hp)⟩
  · rcases bufferPlace_bounds hb with ⟨rfl, -⟩ | ⟨rfl, -⟩ | ⟨rfl, -⟩ <;>
      exact ⟨Place.noConfusion, Place.noConfusion, Place.noConfusion⟩

end Sys2Proof.Machine

/-! ### What a step can do to STATUS (10_state.md R33 to R37) -/

namespace Sys2Proof.Machine

/-- One way in which a step treats STATUS, with what brings it about. -/
inductive StatusCase (s t : State) : Prop where
  | kept (e : t.status = s.status)
  | commit (hq : s.seq = .commit) (hin : s.input = [] ∨ ∃ rest, s.input = .engine :: rest) (ht : t.seq = .idle)
      (e : t.status = { s.status with busy := false, done := true })
  | reset (rest : List Event) (hin : s.input = .assertReset :: rest) (e : t.status = Status.zero)
  | dropped (x : Transaction) (rest : List Event) (p : Place) (hin : s.input = .bus x :: rest) (hk : x.kind = .write)
      (ha : busAccess x s = some p) (hp : p ∈ setupPlaces) (hb : s.status.busy = true)
      (e : t.status = { s.status with busywr := true })
  | cleared (x : Transaction) (rest : List Event) (hin : s.input = .bus x :: rest) (hk : x.kind = .write)
      (ho : x.off = 0x0008) (e : t.status = s.status.writeOneToClear x.wdata)
  | refused (x : Transaction) (rest : List Event) (code : ErrCode) (hin : s.input = .bus x :: rest)
      (hk : x.kind = .write) (ho : x.off = 0x0004) (hb : s.status.busy = false)
      (hc : checkCommand x.wdata s = some code) (e : t.status = ⟨false, false, true, s.status.busywr, code.number⟩)
  | accepted (x : Transaction) (rest : List Event) (hin : s.input = .bus x :: rest) (hk : x.kind = .write)
      (ho : x.off = 0x0004) (hb : s.status.busy = false) (hc : checkCommand x.wdata s = none) (ht : t.seq = .expB0)
      (e : t.status = ⟨true, false, false, s.status.busywr, 0⟩)

/-- STATUS after a refusal (R255). -/
theorem refuse_status {s : State} (hb : s.status.busy = false) (code : ErrCode) :
    (raiseError code (clearOutcome s)).status = ⟨false, false, true, s.status.busywr, code.number⟩ := by
  simp [hb]

/-- STATUS over one step. -/
theorem step_status {s t : State} (h : step s = .next t) : StatusCase s t := by
  cases step_cases h with
  | engineIdle s' hn _ e =>
    obtain ⟨⟨es, rfl⟩, -⟩ := engineNext_eq hn
    exact .kept (e ▸ rfl)
  | engineRun s' hn _ e =>
    obtain ⟨⟨es, rfl⟩, hin⟩ := engineNext_eq hn
    by_cases hq : s.seq = .commit
    · rw [engineStep_commit (s := { s with input := es, turn := .engine }) hq] at e
      exact .commit hq hin (e ▸ commitHeld_seq _) (e ▸ commitHeld_status _)
    · rw [engineStep_hidden (s := { s with input := es, turn := .engine }) hq] at e
      exact .kept (e ▸ rfl)
  | assertReset rest hin e => exact .reset rest hin (e ▸ rfl)
  | releaseReset rest hin e => exact .kept (e ▸ rfl)
  | busError x s' hn _ _ e =>
    obtain ⟨rest, -, rfl⟩ := hn
    exact .kept (e ▸ rfl)
  | busRead x s' p hn _ _ _ e =>
    obtain ⟨rest, -, rfl⟩ := hn
    exact .kept (e ▸ rfl)
  | busWrite x s' p hn _ ha hk _ e =>
    obtain ⟨rest, hin, rfl⟩ := hn
    rw [e]
    rcases writePlace_status_cases p x (answerWrite { s with input := rest, turn := .host }) with
      hs | ⟨hp, hb, hs⟩ | ⟨hp, hs⟩
    · exact .kept hs
    · exact .dropped x rest p hin hk ha hp hb (hs ▸ rfl)
    · exact .cleared x rest hin hk ((off_of_busAccess ha).2.1 hp) hs
  | command x s' i hn _ ha hk hd e =>
    obtain ⟨rest, hin, rfl⟩ := hn
    have ho := (off_of_busAccess ha).1 rfl
    have hcheck : checkCommand x.wdata s = checkOperands i s := by rw [checkCommand, hd]
    rcases acceptCommand_cases i (answerWrite { s with input := rest, turn := .host }) with
      ⟨hb, hs⟩ | ⟨code, hb, hc, hs⟩ | ⟨hb, hc, hs⟩ <;> rw [hs] at e
    · exact .dropped x rest .cmd hin hk ha (by decide) hb (e ▸ rfl)
    · exact .refused x rest code hin hk ho hb (hcheck.trans hc) (e ▸ refuse_status hb code)
    · exact .accepted x rest hin hk ho hb (hcheck.trans hc) (e ▸ rfl) (e ▸ rfl)
  | illegalWord x s' err hn _ ha hk hd e =>
    obtain ⟨rest, hin, rfl⟩ := hn
    cases hb : s.status.busy with
    | true =>
      rw [refuseWord_busy (s := answerWrite { s with input := rest, turn := .host }) hb] at e
      exact .dropped x rest .cmd hin hk ha (by decide) hb (e ▸ rfl)
    | false =>
      rw [refuseWord_idle (s := answerWrite { s with input := rest, turn := .host }) hb] at e
      exact .refused x rest .illegalCommand hin hk ((off_of_busAccess ha).1 rfl) hb (by rw [checkCommand, hd])
        (e ▸ refuse_status (s := answerWrite _) hb .illegalCommand)

end Sys2Proof.Machine

namespace Sys2Proof.Proofs

open Sys2Proof.Machine

/-- Settles O27: of the ways in which a step treats STATUS only acceptance sets BUSY, only commit and reset clear it. -/
theorem busyFollowsAcceptanceAndCommit : Obligations.BusyFollowsAcceptanceAndCommit := by
  intro s t hst
  refine ⟨fun h0 h1 => ?_, fun h1 h0 => ?_⟩
  · cases step_status hst with
    | accepted x rest hin hk ho _ hc ht _ => exact ⟨x.wdata, x, rest, hin, hk, ho, rfl, hc, ht⟩
    | kept e | commit _ _ _ e | reset _ _ e | dropped _ _ _ _ _ _ _ _ e | cleared _ _ _ _ _ e
    | refused _ _ _ _ _ _ _ _ e => simp [e, Status.zero, Status.writeOneToClear, h0] at h1
  · cases step_status hst with
    | commit hq _ ht e => exact .inl ⟨hq, by rw [e], ht⟩
    | reset rest hin _ => exact .inr ⟨rest, hin⟩
    | kept e | dropped _ _ _ _ _ _ _ _ e | cleared _ _ _ _ _ e => simp [e, Status.writeOneToClear, h1] at h0
    | refused _ _ _ _ _ _ hb | accepted _ _ _ _ _ hb => exact absurd (h1.symm.trans hb) Bool.noConfusion

/-- Settles O28: only a dropped write sets BUSYWR, and only a write of ones to STATUS and reset clear it. -/
theorem busyWriteFlagIsSticky : Obligations.BusyWriteFlagIsSticky := by
  intro s t hst
  refine ⟨fun h0 h1 => ?_, fun h1 h0 => ?_⟩
  · cases step_status hst with
    | dropped x rest p hin hk ha hp hb _ => exact ⟨hb, x, rest, p, hin, hk, ha, hp⟩
    | kept e | commit _ _ _ e | reset _ _ e | cleared _ _ _ _ _ e | refused _ _ _ _ _ _ _ _ e
    | accepted _ _ _ _ _ _ _ _ e => simp [e, Status.zero, Status.writeOneToClear, h0] at h1
  · cases step_status hst with
    | cleared x rest hin hk ho e => exact .inl ⟨x, rest, hin, hk, ho, by simpa [e, Status.writeOneToClear, h1] using h0⟩
    | reset rest hin _ => exact .inr ⟨rest, hin⟩
    | kept e | commit _ _ _ e | dropped _ _ _ _ _ _ _ _ e | refused _ _ _ _ _ _ _ _ e
    | accepted _ _ _ _ _ _ _ _ e => simp [e, h1] at h0

/-- Settles O42: a turn before the commit touches the hidden registers alone. -/
theorem turnsBeforeCommitAreInvisible : Obligations.TurnsBeforeCommitAreInvisible := by
  intro s i ht hq
  obtain ⟨p, after, commit, e⟩ := exec_engine_turn ht i
  exact ⟨_, e, sequencerTurn_hidden p after commit hq⟩

/-- Settles O31, by the kinds of step of `step_cases`. -/
theorem messageBufferSizeNeverChanges : Obligations.MessageBufferSizeNeverChanges := by
  intro s t hst
  cases step_cases hst with
  | engineIdle s' hn _ e =>
    obtain ⟨⟨es, rfl⟩, -⟩ := engineNext_eq hn
    exact e ▸ rfl
  | engineRun s' hn _ e =>
    obtain ⟨⟨es, rfl⟩, -⟩ := engineNext_eq hn
    obtain ⟨-, -, -, -, -, hsize, -⟩ := engineStep_frame { s with input := es, turn := .engine }
    exact e ▸ hsize
  | assertReset _ _ e | releaseReset _ _ e => exact e ▸ rfl
  | busError x s' hn _ _ e | busRead x s' p hn _ _ _ e =>
    obtain ⟨rest, -, rfl⟩ := hn
    exact e ▸ rfl
  | busWrite x s' p hn _ _ _ _ e =>
    obtain ⟨rest, -, rfl⟩ := hn
    obtain ⟨-, -, -, hsize, -⟩ := writePlace_frame p x (answerWrite { s with input := rest, turn := .host })
    exact e ▸ hsize
  | command x s' i hn _ _ _ _ e =>
    obtain ⟨rest, -, rfl⟩ := hn
    obtain ⟨-, -, -, hsize, -⟩ := acceptCommand_frame i (answerWrite { s with input := rest, turn := .host })
    exact e ▸ hsize
  | illegalWord x s' err hn _ _ _ _ e =>
    obtain ⟨rest, -, rfl⟩ := hn
    obtain ⟨-, -, -, hsize, -⟩ := refuseWord_frame (answerWrite { s with input := rest, turn := .host })
    exact e ▸ hsize

end Sys2Proof.Proofs

/-! ### The outputs over one step (10_state.md R42, R43; 20_memory.md R85) -/

namespace Sys2Proof.Machine

/-- `t` holds the outputs that `s` holds: RESULT_LEN and every byte of OUT_BUF. -/
def SameOutputs (s t : State) : Prop :=
  t.resultLen = s.resultLen ∧ ∀ a, 0x2000 ≤ a → a < 0x4000 → t.byteAt a = s.byteAt a

/-- Memory, its reset count and RESULT_LEN settle the outputs. -/
theorem SameOutputs.of_eq {s t : State} (hm : t.mem = s.mem) (he : t.epoch = s.epoch) (hl : t.resultLen = s.resultLen) :
    SameOutputs s t :=
  ⟨hl, fun a _ _ => by rw [State.byteAt, State.byteAt, hm, he]⟩

/-- A step keeps the outputs, or is a commit, or a reset (R42, R43). -/
theorem step_outputs {s t : State} (h : step s = .next t) :
    SameOutputs s t ∨
      (s.seq = .commit ∧ t.seq = .idle ∧ t.status.done = true ∧ (s.input = [] ∨ ∃ rest, s.input = .engine :: rest)) ∨
      ∃ rest, s.input = .assertReset :: rest := by
  cases step_cases h with
  | engineIdle s' hn _ e =>
    obtain ⟨⟨es, rfl⟩, -⟩ := engineNext_eq hn
    exact .inl (e ▸ .of_eq rfl rfl rfl)
  | engineRun s' hn _ e =>
    obtain ⟨⟨es, rfl⟩, hin⟩ := engineNext_eq hn
    by_cases hq : s.seq = .commit
    · rw [engineStep_commit (s := { s with input := es, turn := .engine }) hq] at e
      exact .inr (.inl ⟨hq, e ▸ commitHeld_seq _, e ▸ (congrArg Status.done (commitHeld_status _)), hin⟩)
    · rw [engineStep_hidden (s := { s with input := es, turn := .engine }) hq] at e
      exact .inl (e ▸ .of_eq rfl rfl rfl)
  | assertReset rest hin _ => exact .inr (.inr ⟨rest, hin⟩)
  | releaseReset _ _ e => exact .inl (e ▸ .of_eq rfl rfl rfl)
  | busError x s' hn _ _ e | busRead x s' p hn _ _ _ e =>
    obtain ⟨rest, -, rfl⟩ := hn
    exact .inl (e ▸ .of_eq rfl rfl rfl)
  | busWrite x s' p hn _ ha _ _ e =>
    obtain ⟨rest, -, rfl⟩ := hn
    obtain ⟨-, -, hlen, -⟩ := writePlace_frame p x (answerWrite { s with input := rest, turn := .host })
    exact .inl (e ▸ ⟨hlen, fun a h1 h2 =>
      writePlace_outBuf (s := answerWrite { s with input := rest, turn := .host }) ha ⟨h1, h2⟩⟩)
  | command x s' i hn _ _ _ _ e =>
    obtain ⟨rest, -, rfl⟩ := hn
    obtain ⟨hm, he, hl, -⟩ := acceptCommand_frame i (answerWrite { s with input := rest, turn := .host })
    exact .inl (e ▸ .of_eq hm he hl)
  | illegalWord x s' err hn _ _ _ _ e =>
    obtain ⟨rest, -, rfl⟩ := hn
    obtain ⟨hm, he, hl, -⟩ := refuseWord_frame (answerWrite { s with input := rest, turn := .host })
    exact .inl (e ▸ .of_eq hm he hl)

end Sys2Proof.Machine

/-! ### One transaction (20_memory.md R70 to R75; 30_encoding.md R104) -/

namespace Sys2Proof.Machine

/-- The state in which the port performs a legal write: the event is taken and the answer is OKAY (R78, R80). -/
def writeBegun (s : State) (rest : List Event) : State := answerWrite { s with input := rest, turn := .host }

section
variable {s : State} {rest : List Event}

/-- A 4-byte access in the control region reaches the register at its offset (R72, R75). -/
theorem busAccess_control (k : BusKind) {off : BitVec 16} (v : Word) (h : off.toNat % 4 = 0) (hc : off.toNat < 0x100)
    (s : State) : busAccess ⟨k, off, .four, v⟩ s = controlPlace off.toNat := by
  simp [busAccess, sizeBytes, controlEnd, h, hc]

/-- A legal write to a place other than CMD (R51). -/
theorem step_write (hr : s.rstN = true) {x : Transaction} (hin : s.input = .bus x :: rest) (hk : x.kind = .write)
    {p : Place} (ha : busAccess x s = some p) (hp : p ≠ .cmd) :
    step s = .next (writePlace p x (writeBegun s rest)) :=
  step_bus_write ⟨rest, hin, rfl⟩ hr ha hk hp

/-- A legal read (R81). -/
theorem step_read (hr : s.rstN = true) {x : Transaction} (hin : s.input = .bus x :: rest) (hk : x.kind = .read)
    {p : Place} (ha : busAccess x s = some p) :
    step s = .next (answerRead (readPlace p x s) { s with input := rest, turn := .host }) := by
  rw [step_bus_read ⟨rest, hin, rfl⟩ hr ha hk]
  cases p <;> rfl

/-- `WR32` of a control register other than CMD (R106). -/
theorem step_wr32 (hr : s.rstN = true) {off : BitVec 16} {v : Word} (hin : s.input = wr32 off v :: rest) {p : Place}
    (ho : off.toNat % 4 = 0 ∧ off.toNat < 0x100 ∧ controlPlace off.toNat = some p) (hp : p ≠ .cmd) :
    step s = .next (writePlace p ⟨.write, off, .four, v⟩ (writeBegun s rest)) :=
  step_write hr hin rfl ((busAccess_control _ v ho.1 ho.2.1 s).trans ho.2.2) hp

/-- `RD32` of a control register (R106). -/
theorem step_rd32 (hr : s.rstN = true) {off : BitVec 16} (hin : s.input = rd32 off :: rest) {p : Place}
    (ho : off.toNat % 4 = 0 ∧ off.toNat < 0x100 ∧ controlPlace off.toNat = some p) :
    step s = .next (answerRead (readPlace p ⟨.read, off, .four, 0⟩ s) { s with input := rest, turn := .host }) :=
  step_read hr hin rfl ((busAccess_control _ 0 ho.1 ho.2.1 s).trans ho.2.2)

/-- `RD32` of a control register that holds the number `n` (R106). -/
theorem step_rd32_value (hr : s.rstN = true) {off : BitVec 16} (hin : s.input = rd32 off :: rest) {p : Place}
    (ho : off.toNat % 4 = 0 ∧ off.toNat < 0x100 ∧ controlPlace off.toNat = some p) {n : Nat}
    (hv : readPlace p ⟨.read, off, .four, 0⟩ s = BitVec.ofNat 32 n) :
    step s = .next { s with
      input := rest, turn := .host, response := some ⟨.okay, some (BitVec.ofNat 32 n)⟩ } := by
  rw [step_rd32 hr hin ho, hv]
  rfl

/-- A write of a command's word to CMD (R104). -/
theorem step_write_command (hr : s.rstN = true) {x : Transaction} (hin : s.input = .bus x :: rest)
    (ha : busAccess x s = some .cmd) (hk : x.kind = .write) {i : Instr} (hd : decodeWord x.wdata = .ok i) :
    step s = .next (acceptCommand i (writeBegun s rest)) :=
  step_bus_command ⟨rest, hin, rfl⟩ hr ha hk hd

/-- A write of any other word to CMD (R103). -/
theorem step_write_illegal (hr : s.rstN = true) {x : Transaction} (hin : s.input = .bus x :: rest)
    (ha : busAccess x s = some .cmd) (hk : x.kind = .write) {e : DecodeError} (hd : decodeWord x.wdata = .error e) :
    step s = .next (refuseWord (writeBegun s rest)) :=
  step_bus_illegal ⟨rest, hin, rfl⟩ hr ha hk hd

/-- A write to CMD while BUSY, whatever its word, is dropped (R53, R103, R104). -/
theorem step_cmd_dropped (hr : s.rstN = true) {x : Transaction} (hin : s.input = .bus x :: rest)
    (hk : x.kind = .write) (ha : busAccess x s = some .cmd) (hb : s.status.busy = true) :
    step s = .next (dropWrite (writeBegun s rest)) := by
  have hb' : (writeBegun s rest).status.busy = true := hb
  cases hd : decodeWord x.wdata with
  | ok i => rw [step_write_command hr hin ha hk hd, acceptCommand_busy hb']
  | error e => rw [step_write_illegal hr hin ha hk hd, refuseWord_busy hb']

/-- A write to CMD whose word fails CheckCommand (R104, R255). -/
theorem step_cmd_refused (hr : s.rstN = true) {v : Word} (hin : s.input = .bus (cmdWrite v) :: rest)
    (hb : s.status.busy = false) {code : ErrCode} (hc : checkCommand v s = some code) :
    step s = .next (raiseError code (clearOutcome (writeBegun s rest))) := by
  have ha := busAccess_cmdWrite v s
  have hb' : (writeBegun s rest).status.busy = false := hb
  unfold checkCommand at hc
  cases hd : decodeWord v with
  | ok i =>
    rw [hd] at hc
    have hc' : checkOperands i (writeBegun s rest) = some code := hc
    rw [step_write_command hr hin ha rfl hd, acceptCommand_refused hb' hc']
  | error e =>
    rw [hd] at hc
    obtain rfl := Option.some.inj hc
    rw [step_write_illegal hr hin ha rfl hd, refuseWord_idle hb']

/-- A write to CMD whose word passes CheckCommand (R104). -/
theorem step_cmd_accepted (hr : s.rstN = true) {v : Word} (hin : s.input = .bus (cmdWrite v) :: rest)
    (hb : s.status.busy = false) (hc : checkCommand v s = none) :
    ∃ i, decodeWord v = .ok i ∧ step s = .next (startCommand i (clearOutcome (writeBegun s rest))) := by
  have ha := busAccess_cmdWrite v s
  have hb' : (writeBegun s rest).status.busy = false := hb
  unfold checkCommand at hc
  cases hd : decodeWord v with
  | ok i =>
    rw [hd] at hc
    have hc' : checkOperands i (writeBegun s rest) = none := hc
    exact ⟨i, rfl, by rw [step_write_command hr hin ha rfl hd, acceptCommand_started hb' hc']⟩
  | error e =>
    rw [hd] at hc
    cases hc

/-- A turn of the engine at COMMIT, given or taken because no event is left (R191, R238). -/
theorem step_commit (hq : s.seq = .commit) (hin : s.input = [] ∨ ∃ rest, s.input = .engine :: rest) :
    ∃ es, step s = .next (commitHeld { s with input := es, turn := .engine }) := by
  have turn (s' : State) (hn : engineNext s s') (hq' : s'.seq = .commit) :
      step s = .next (commitHeld { s' with turn := .engine }) := by
    rw [step_engine_run hn (hq' ▸ Seq.noConfusion), engineStep_commit (s := { s' with turn := .engine }) hq']
  rcases hin with hin | ⟨rest, hin⟩
  · exact ⟨s.input, turn s (.inl ⟨hin, rfl⟩) hq⟩
  · exact ⟨rest, turn { s with input := rest } (.inr ⟨rest, hin, rfl⟩) hq⟩

end

/-- The size that `State.reset` uses is a legal one (R9; log 3). -/
theorem defaultMsgBufSize_legal : legalMsgBufSize Config.defaultMsgBufSize.toNat := by
  unfold legalMsgBufSize
  decide

/-! #### The words of STATUS and IRQ_EN as numbers (R33, R38) -/

theorem bit_toNat (b : Bool) : (bit b).toNat = b.toNat := by cases b <;> rfl

/-- A word put on top of `n` bits, as a number. -/
theorem toNat_append_eq {m n : Nat} (x : BitVec m) (y : BitVec n) : (x ++ y).toNat = x.toNat * 2 ^ n + y.toNat := by
  rw [BitVec.toNat_append, ← Nat.shiftLeft_add_eq_or_of_lt y.isLt, Nat.shiftLeft_eq]

/-- The STATUS word as the sum of its fields; reserved bits are 0 (R33). -/
theorem Status.word_eq (st : Status) :
    st.word = BitVec.ofNat 32 (st.busy.toNat + 2 * st.done.toNat + 4 * st.err.toNat + 8 * st.busywr.toNat +
      256 * st.errcode.toNat) := by
  apply BitVec.eq_of_toNat_eq
  have hb := st.busy.toNat_le
  have hd := st.done.toNat_le
  have he := st.err.toNat_le
  have hw := st.busywr.toNat_le
  have hc := st.errcode.isLt
  simp only [Status.word, toNat_append_eq, bit_toNat, BitVec.ofNat_eq_ofNat, BitVec.toNat_ofNat]
  omega

/-- The IRQ_EN word as the sum of its two bits (R38). -/
theorem IrqEn.word_eq (e : IrqEn) : e.word = BitVec.ofNat 32 (e.enDone.toNat + 2 * e.enErr.toNat) := by
  apply BitVec.eq_of_toNat_eq
  have hd := e.enDone.toNat_le
  have he := e.enErr.toNat_le
  simp only [IrqEn.word, toNat_append_eq, bit_toNat, BitVec.ofNat_eq_ofNat, BitVec.toNat_ofNat]
  omega

/-- What IRQ_EN keeps of a word are its two low bits (R38). -/
theorem IrqEn.ofWord_word (v : Word) : (IrqEn.ofWord v).word = BitVec.ofNat 32 (v.toNat % 4) := by
  have h0 : (v.getLsbD 0).toNat = v.toNat / 2 ^ 0 % 2 := Nat.toNat_testBit _ _
  have h1 : (v.getLsbD 1).toNat = v.toNat / 2 ^ 1 % 2 := Nat.toNat_testBit _ _
  rw [IrqEn.word_eq, IrqEn.ofWord, h0, h1]
  congr 1
  omega

end Sys2Proof.Machine

namespace Sys2Proof.Proofs

open Sys2Proof.Machine

/-- Settles O32: a step that keeps no output is a commit or a reset. -/
theorem outputsChangeOnlyAtCommit : Obligations.OutputsChangeOnlyAtCommit := by
  intro s t _ hst hchange
  rcases step_outputs hst with ⟨hlen, hbytes⟩ | h
  · rcases hchange with hl | ⟨a, h1, h2, ha⟩
    · exact absurd hlen hl
    · exact absurd (hbytes a h1 h2) ha
  · exact h

/-- Settles O30: `irq` is a function of STATUS and IRQ_EN, and each clause names the step that leaves them. -/
theorem irqIsTheLevelOfEnabledPendingBits : Obligations.IrqIsTheLevelOfEnabledPendingBits := by
  intro s
  refine ⟨?_, fun hq hen hin => ?_, fun v code rest hr hin hb hc hen => ?_, fun v rest hr hin => ?_,
    fun v rest hr hin => ?_, fun v rest hr hin hb hc => ?_⟩
  · simp only [State.irq, Status.word_done, Status.word_err, IrqEn.word_enDone, IrqEn.word_enErr, Bool.or_eq_true,
      Bool.and_eq_true]
  · obtain ⟨es, e⟩ := step_commit hq hin
    exact ⟨_, e, by simp [State.irq, commitHeld_status, commitHeld_irqEn, hen]⟩
  · exact ⟨_, step_cmd_refused hr hin hb hc, by simp [State.irq, writeBegun, hen]⟩
  · exact ⟨_, step_wr32 hr hin (p := .irqEn) (by decide) (by decide), rfl⟩
  · exact ⟨_, step_wr32 hr hin (p := .status) (by decide) (by decide), rfl⟩
  · obtain ⟨i, -, e⟩ := step_cmd_accepted hr hin hb hc
    exact ⟨_, e, by simp [State.irq]⟩

/-- Settles O16: a dropped write is `dropWrite`; the writes that the busy rule exempts, and reads, do as ever. -/
theorem busyRuleDropsSetupWrites : Obligations.BusyRuleDropsSetupWrites := by
  intro s x rest p hr hin ha
  refine ⟨none, fun hb hk hp => ?_, fun hk hp => ?_, fun hk hp => ?_, fun hk hp => ?_, fun hk => ?_⟩
  · by_cases hc : p = .cmd
    · subst hc
      exact step_cmd_dropped hr hin hk ha hb
    · rw [step_write hr hin hk ha hc,
        writePlace_dropped (s := writeBegun s rest) hp hc hb]
      rfl
  · subst hp
    exact step_write hr hin hk ha (by decide)
  · subst hp
    exact step_write hr hin hk ha (by decide)
  · have hc : p ≠ .cmd := fun e => absurd (e ▸ hp) (by decide)
    rw [step_write hr hin hk ha hc, writePlace_readOnly hp]
    rfl
  · exact ⟨_, step_read hr hin hk ha⟩

/-- Settles O22, by the laws of a read after a string of writes. -/
theorem bufferWritesStoreTheirLanes : Obligations.BufferWritesStoreTheirLanes := by
  intro s x rest p hr hb hin hk ha hp
  have hp' : p = .dstBuf ∨ p = .msgBuf := by simpa using hp
  have hc : p ≠ .cmd := by rcases hp' with rfl | rfl <;> decide
  refine ⟨Memory.storeBytes s.mem x.off.toNat (writeLanes x.wdata x.size), ?_, fun k hk => ⟨?_, ?_⟩,
    fun a hout => ⟨?_, ?_⟩⟩
  · rw [step_write hr hin hk ha hc,
      writePlace_buffer (s := writeBegun s rest) hp' hb]
    rfl
  · rw [State.byteAt, readCell_storeBytes, writeLanes_length, if_pos (by omega), Nat.add_sub_cancel_left,
      writeLanes_lane _ hk]
  · rw [State.written, Memory.lookup_storeBytes, writeLanes_length, if_pos (by omega), Nat.add_sub_cancel_left]
    simpa using hk
  · rw [State.byteAt, readCell_storeBytes, writeLanes_length, if_neg hout]
    rfl
  · rw [State.written, Memory.lookup_storeBytes, writeLanes_length, if_neg hout]
    rfl

/-- Settles O5, by the two cases of an engine turn. -/
theorem stepRunsTheHeldCommand : Obligations.StepRunsTheHeldCommand := by
  intro s rest hin
  have hn : engineNext s { s with input := rest } := by
    rcases hin with h | ⟨h, rfl⟩
    · exact .inr ⟨rest, h, rfl⟩
    · exact .inl ⟨h, by rw [← h]⟩
  refine ⟨fun hq => ?_, fun hq => step_engine_idle hn hq⟩
  rw [step_engine_run hn hq]
  exact (exec_engine (s := { s with input := rest, turn := .engine }) rfl).symm

/-- Settles O20: each register's word as the number that the statement names. -/
theorem registerReadsReturnTheRegisters : Obligations.RegisterReadsReturnTheRegisters := by
  intro s rest hr
  have self (w : Word) : w = BitVec.ofNat 32 w.toNat := by simp
  exact ⟨fun hin => step_rd32_value hr hin (p := .id) (by decide) rfl,
    fun hin => step_rd32_value hr hin (p := .cmd) (by decide) rfl,
    fun hin => step_rd32_value hr hin (p := .status) (by decide) s.status.word_eq,
    fun hin => step_rd32_value hr hin (p := .irqEn) (by decide) s.irqEn.word_eq,
    fun hin => step_rd32_value hr hin (p := .dstLen) (by decide) (self s.dstLen),
    fun hin => step_rd32_value hr hin (p := .msgLen) (by decide) (self s.msgLen),
    fun hin => step_rd32_value hr hin (p := .outLen) (by decide) (self s.outLen),
    fun hin => step_rd32_value hr hin (p := .count) (by decide) (self s.count),
    fun hin => step_rd32_value hr hin (p := .resultLen) (by decide) (self s.resultLen),
    fun hin => step_rd32_value hr hin (p := .msgbufSize) (by decide) (self s.msgbufSize)⟩

/-- Settles O23: with BUSY = 0 the busy rule lets the write take effect. -/
theorem operandWritesStoreEveryBit : Obligations.OperandWritesStoreEveryBit := by
  intro s v rest hr hb
  have hb' : (writeBegun s rest).status.busy = false := hb
  refine ⟨fun hin => ?_, fun hin => ?_, fun hin => ?_, fun hin => ?_⟩
  · rw [step_wr32 hr hin (p := .dstLen) (by decide) (by decide), writePlace, unlessBusy_idle hb']
    rfl
  · rw [step_wr32 hr hin (p := .msgLen) (by decide) (by decide), writePlace, unlessBusy_idle hb']
    rfl
  · rw [step_wr32 hr hin (p := .outLen) (by decide) (by decide), writePlace, unlessBusy_idle hb']
    rfl
  · rw [step_wr32 hr hin (p := .count) (by decide) (by decide), writePlace, unlessBusy_idle hb']
    rfl

/-- Settles O24: `writeOneToClear`, bit by bit. -/
theorem statusWritesClearByOnes : Obligations.StatusWritesClearByOnes := by
  intro s v rest hr hin
  have clear (f b : Bool) : (f && !b) = if b then false else f := by cases b <;> simp
  rw [step_wr32 hr hin (p := .status) (by decide) (by decide), writePlace_status]
  simp only [writeStatus, Status.writeOneToClear, clear]
  rfl

/-- Settles O25: the two bits stored, then the word they read back as. -/
theorem irqEnableKeepsTwoBits : Obligations.IrqEnableKeepsTwoBits := by
  intro s v rest hr hin
  let t : State := { writeBegun s (rd32 0x000C :: rest) with irqEn := IrqEn.ofWord v }
  refine ⟨t, step_wr32 hr hin (p := .irqEn) (by decide) (by decide), rfl, ?_⟩
  rw [← IrqEn.ofWord_word]
  exact step_rd32 (s := t) hr rfl (p := .irqEn) (by decide)

/-- Settles O34, by evaluation of the reset state. -/
theorem resetStateIsIdleAndZero : Obligations.ResetStateIsIdleAndZero :=
  ⟨rfl, rfl, rfl, rfl, rfl, rfl, rfl, rfl, rfl, fun _ => rfl, rfl, defaultMsgBufSize_legal⟩

/-- Settles O47: a reset state is sound, and its datapath is at IDLE. -/
theorem resetIsSound : Obligations.ResetIsSound :=
  ⟨fun _ epoch level es h => ⟨resetValue_inv h epoch level es, trivial⟩,
    Config.defaultMsgBufSize, 0, [], defaultMsgBufSize_legal, rfl⟩

end Sys2Proof.Proofs

/-! ### Runs of bytes and the reference functions (42_expand_message_xmd.md R181, R189; 43_byte_slice_and_interpret.md
R201; 45_hash_to_field.md R231, R236) -/

namespace Sys2Proof.Machine

/-- A run of places split in two, the second run just written. -/
theorem map_readCell_extend (sp : Space) (e : Nat) (m : Memory) (x : Nat) (bs : List Byte) :
    ((List.range (x + bs.length)).map fun k => readCell sp e (Memory.storeBytes m x bs) (0 + k)) =
      ((List.range x).map fun k => readCell sp e m (0 + k)) ++ bs := by
  rw [List.range_add, List.map_append, List.map_map]
  congr 1
  · refine List.map_congr_left fun k hk => ?_
    have hlt := List.mem_range.mp hk
    rw [readCell_storeBytes, if_neg (by omega)]
  · simpa [Function.comp_def] using map_readCell_storeBytes sp e m x bs

/-- The bytes a to b - 1 of a run read from EXPBUF. -/
theorem slice_expbufRead (s : State) {n a b : Nat} (h : b ≤ n) :
    slice (s.expbufRead 0 n) a b = s.expbufRead a (b - a) := by
  apply List.ext_getElem
  · simp [slice]; omega
  · intro k h1 h2
    simp [slice, State.expbufRead]

theorem expbufRead_take (s : State) {n m : Nat} (h : n ≤ m) : (s.expbufRead 0 m).take n = s.expbufRead 0 n := by
  simpa [slice] using slice_expbufRead s (a := 0) h

theorem chainDigest_length (b0 dst : List Byte) (n : Nat) : (chainDigest b0 dst (n + 1)).length = 32 := by
  cases n <;> exact sha256_length _

theorem uniformBytes_length (b0 dst : List Byte) (n : Nat) : (uniformBytes b0 dst n).length = 32 * n := by
  induction n with
  | zero => rfl
  | succ n ih => rw [uniformBytes, List.length_append, ih, chainDigest_length]; omega

/-- The first bytes of the chain do not depend on how far it goes on. -/
theorem uniformBytes_take (b0 dst : List Byte) {n m : Nat} (h : n ≤ m) :
    (uniformBytes b0 dst m).take (32 * n) = uniformBytes b0 dst n := by
  induction m, h using Nat.le_induction with
  | base => exact List.take_of_length_le (uniformBytes_length _ _ _).le
  | succ m hm ih =>
    rw [uniformBytes, List.take_append_of_le_length (by rw [uniformBytes_length]; omega), ih]

/-- ExpandXMD from any sufficient number of digests (R189). -/
theorem expandXMD_eq_take (dst msg : List Byte) {outLen n : Nat} (h : ell outLen ≤ n) :
    expandXMD dst msg outLen = (uniformBytes (digestZero dst msg outLen) dst n).take outLen := by
  have hl : outLen ≤ 32 * ell outLen := by unfold ell ceilDiv hashLen; omega
  rw [expandXMD, slice, List.drop_zero, ← uniformBytes_take _ _ h, List.take_take, Nat.sub_zero, Nat.min_eq_left hl]

/-- One more element of HashToField, from the chunk that R201 gives it. -/
theorem hashToField_take_succ (dst msg : List Byte) {count i : Nat} (hi : i < count) :
    (hashToField dst msg count).take (i + 1) = (hashToField dst msg count).take i ++
      [reduceNat (sliceInterpret (expandXMD dst msg (elemSize * count)) i)] := by
  have hl : i < (hashToField dst msg count).length := by simpa [hashToField] using hi
  rw [List.take_succ_eq_append_getElem hl]
  simp [hashToField]

theorem encodeElements_append (xs ys : List Nat) : encodeElements (xs ++ ys) = encodeElements xs ++ encodeElements ys :=
  List.flatMap_append

end Sys2Proof.Machine

/-! ### What the datapath of a held command holds after each turn (42_expand_message_xmd.md R190, 45_hash_to_field.md
R237) -/

namespace Sys2Proof.Machine

/-- EXPBUF holds the bytes that the held command expands its inputs to (R189). -/
def Expanded (s : State) : Prop := s.expbufRead 0 (heldLength s) = expandXMD s.tag s.message (heldLength s)

/-- The digests b_1 to b_n are in EXPBUF, b_0 and b_n in their registers, n in J (R46, R190). -/
structure DigestsThrough (n : Nat) (s : State) : Prop where
  b0 : wideBytes s.b0reg = digestZero s.tag s.message (heldLength s)
  bn : wideBytes s.bireg = chainDigest (digestZero s.tag s.message (heldLength s)) s.tag n
  j : s.jreg.toNat = n
  bytes : s.expbufRead 0 (32 * n) = uniformBytes (digestZero s.tag s.message (heldLength s)) s.tag n

/-- Once the digests suffice, EXPBUF holds the expansion (R189). -/
theorem DigestsThrough.expanded {n : Nat} {s : State} (h : DigestsThrough n s) (hn : ell (heldLength s) ≤ n) :
    Expanded s := by
  have hl : heldLength s ≤ 32 * n := by unfold ell ceilDiv hashLen at hn; omega
  rw [Expanded, expandXMD_eq_take _ _ hn, ← h.bytes, expbufRead_take s hl]

/-- A digest stored behind the ones before it (R190). -/
theorem expbufRead_digest {s t : State} {n : Nat} {b0 d : List Byte} (he : t.epoch = s.epoch)
    (hx : t.expbuf = Memory.storeBytes s.expbuf (32 * n) d) (hd : d = chainDigest b0 s.tag (n + 1))
    (hs : s.expbufRead 0 (32 * n) = uniformBytes b0 s.tag n) :
    t.expbufRead 0 (32 * (n + 1)) = uniformBytes b0 s.tag (n + 1) := by
  have hl : d.length = 32 := hd ▸ chainDigest_length _ _ n
  rw [uniformBytes, ← hs, ← hd, show 32 * (n + 1) = 32 * n + d.length by omega]
  simp only [State.expbufRead, State.expbufAt, he, hx]
  exact map_readCell_extend .expbuf s.epoch s.expbuf (32 * n) d

/-! #### What `DatapathInv` asks for in each sequencer state -/

theorem datapathInv_expB1 {s : State} (hq : s.seq = .expB1) :
    DatapathInv s ↔ wideBytes s.b0reg = digestZero s.tag s.message (heldLength s) := by
  simp only [DatapathInv, hq]

theorem datapathInv_expBI {s : State} {n : Nat} (hq : s.seq = .expBI (n + 1)) : DatapathInv s ↔ DigestsThrough n s := by
  simp only [DatapathInv, hq, Nat.add_sub_cancel]
  exact ⟨fun ⟨h0, hn, hj, hx⟩ => ⟨h0, hn, hj, hx⟩, fun ⟨h0, hn, hj, hx⟩ => ⟨h0, hn, hj, hx⟩⟩

theorem datapathInv_map {s : State} {i : Nat} (hq : s.seq = .map i) :
    DatapathInv s ↔ Expanded s ∧ s.resbufRead 0 (feBytes * i) =
      encodeElements ((hashToField s.tag s.message s.snap.count.toNat).take i) := by
  simp only [DatapathInv, hq, Expanded]

theorem datapathInv_commit_expand {s : State} (hq : s.seq = .commit) (hop : s.snap.op = .expand) :
    DatapathInv s ↔ s.expbufRead 0 s.snap.outLen.toNat = expandXMD s.tag s.message s.snap.outLen.toNat := by
  simp only [DatapathInv, hq, hop]

theorem datapathInv_commit_hashToField {s : State} (hq : s.seq = .commit) (hop : s.snap.op = .hashToField) :
    DatapathInv s ↔ s.resbufRead 0 (feBytes * s.snap.count.toNat) =
      encodeElements (hashToField s.tag s.message s.snap.count.toNat) := by
  simp only [DatapathInv, hq, hop]

/-- With the expansion in EXPBUF, the datapath is right at AFTER_EXPAND (R190). -/
theorem Expanded.datapath {s : State} (h : Expanded s) (hq : s.seq = afterExpand s) : DatapathInv s := by
  rcases afterExpand_cases s with ⟨e, hop⟩ | ⟨e, hop, hc⟩ <;> rw [e] at hq
  · cases hs : s.snap.op with
    | expand =>
      unfold Expanded heldLength at h
      exact (datapathInv_commit_expand hq hs).mpr (by simpa only [hs] using h)
    | hashToField =>
      have hc : s.snap.count.toNat = 0 := hop.resolve_left (hs ▸ Instr.noConfusion)
      exact (datapathInv_commit_hashToField hq hs).mpr
        (by simp [hc, hashToField, encodeElements, State.resbufRead])
  · exact (datapathInv_map hq).mpr ⟨h, by simp [encodeElements, State.resbufRead]⟩

/-- The datapath after the turn of b_n, which goes on to b_{n+1} or to AFTER_EXPAND (R190). -/
theorem DigestsThrough.datapath {n : Nat} {s : State} (h : DigestsThrough n s)
    (hq : (ell (heldLength s) ≤ n ∧ s.seq = afterExpand s) ∨ s.seq = .expBI (n + 1)) : DatapathInv s := by
  rcases hq with ⟨hn, hq⟩ | hq
  · exact (h.expanded hn).datapath hq
  · exact (datapathInv_expBI hq).mpr h

/-- The turn of b_{n+1} puts it behind the digests before it (R190). -/
theorem DigestsThrough.next {s : State} {n : Nat} {d : List Byte} (hn : n + 1 ≤ 255)
    (h0 : wideBytes s.b0reg = digestZero s.tag s.message (heldLength s))
    (hx : s.expbufRead 0 (32 * n) = uniformBytes (digestZero s.tag s.message (heldLength s)) s.tag n)
    (hd : d = chainDigest (digestZero s.tag s.message (heldLength s)) s.tag (n + 1)) (r : ShaRegs) (q : Seq) :
    DigestsThrough (n + 1) { s with
      sha := r, bireg := bytesWide d, jreg := BitVec.ofNat 8 (n + 1)
      expbuf := Memory.storeBytes s.expbuf (32 * n) d, seq := q } := by
  refine ⟨h0, ?_, ?_, expbufRead_digest (s := s) rfl rfl hd hx⟩
  · exact (wideBytes_bytesWide (hd ▸ chainDigest_length _ _ n)).trans hd
  · show (BitVec.ofNat 8 (n + 1)).toNat = n + 1
    rw [BitVec.toNat_ofNat]
    omega

/-- MAP(i) puts element i behind the elements before it (R237). -/
theorem resbufRead_element {s t : State} {i : Nat} {d : List Byte} (he : t.epoch = s.epoch)
    (ht : t.resbuf = Memory.storeBytes s.resbuf (feBytes * i) d) (hop : s.snap.op = .hashToField)
    (hi : i < s.snap.count.toNat) (hd : d = i2osp (reduceNat (os2ip (s.expbufRead (elemSize * i) elemSize))) 32)
    (hx : Expanded s) (hy : s.resbufRead 0 (feBytes * i) =
      encodeElements ((hashToField s.tag s.message s.snap.count.toNat).take i)) :
    t.resbufRead 0 (feBytes * (i + 1)) =
      encodeElements ((hashToField s.tag s.message s.snap.count.toNat).take (i + 1)) := by
  have hlen : heldLength s = elemSize * s.snap.count.toNat := by rw [heldLength, hop]
  have hchunk : elemSize * i + elemSize ≤ heldLength s := by rw [hlen]; unfold elemSize; omega
  have hvalue : os2ip (s.expbufRead (elemSize * i) elemSize) =
      sliceInterpret (expandXMD s.tag s.message (elemSize * s.snap.count.toNat)) i := by
    rw [sliceInterpret, chunk, ← hlen, ← hx, slice_expbufRead s hchunk, Nat.add_sub_cancel_left]
  have helement : encodeElements [reduceNat (sliceInterpret (expandXMD s.tag s.message
      (elemSize * s.snap.count.toNat)) i)] = d := by
    rw [hd, hvalue]
    exact List.append_nil _
  have hl : d.length = feBytes := hd ▸ i2osp_length _ _
  rw [hashToField_take_succ _ _ hi, encodeElements_append, ← hy, helement, Nat.mul_succ, ← hl]
  simp only [State.resbufRead, State.resbufAt, he, ht, ← hl]
  exact map_readCell_extend .resbuf s.epoch s.resbuf (d.length * i) d

/-- Every turn of a held command leaves in the datapath what the reference functions say (R190, R237). -/
theorem engineStep_datapath {s : State} (h : HeldInv s) (hs : legalMsgBufSize s.msgbufSize.toNat) (hi : s.seq ≠ .idle)
    (hd : DatapathInv s) : DatapathInv (engineStep s) := by
  have htag := h.tag
  have hell := (h.portBounds hs).ell_le
  cases engineStep_held h hs hi with
  | b0 hq r e =>
    rw [e, datapathInv_expB1 rfl, htag, h.message]
    exact wideBytes_bytesWide (sha256_length _)
  | b1 hq r d hdig e =>
    have h0 := (datapathInv_expB1 hq).mp hd
    rw [h0, htag] at hdig
    rw [e]
    refine (DigestsThrough.next (n := 0) (by decide) h0 rfl hdig r _).datapath ?_
    by_cases hl : heldLength s ≤ 32
    · refine .inl ⟨?_, if_pos hl⟩
      show ell (heldLength s) ≤ 1
      unfold ell ceilDiv hashLen
      omega
    · exact .inr (if_neg hl)
  | bi j hq hj r d hdig e =>
    obtain ⟨n, rfl⟩ : ∃ n, j = n + 2 := ⟨j - 2, by omega⟩
    obtain ⟨h0, hn, -, hx⟩ := (datapathInv_expBI hq).mp hd
    rw [h0, hn, htag] at hdig
    rw [e]
    refine (DigestsThrough.next (n := n + 1) (by omega) h0 hx hdig r _).datapath ?_
    by_cases hl : n + 2 = ell (heldLength s)
    · exact .inl ⟨hl.ge, if_pos hl⟩
    · exact .inr (if_neg hl)
  | map i hq hop hlt d hdig e =>
    obtain ⟨hx, hy⟩ := (datapathInv_map hq).mp hd
    have hy' := resbufRead_element (t := engineStep s) (by rw [e]) (by rw [e]) hop hlt hdig hx hy
    rw [e] at hy' ⊢
    by_cases hl : i + 1 = s.snap.count.toNat
    · refine (datapathInv_commit_hashToField (s := { s with resbuf := _, seq := _ }) (if_pos hl) hop).mpr ?_
      have hfull : (hashToField s.tag s.message s.snap.count.toNat).take (i + 1) =
          hashToField s.tag s.message s.snap.count.toNat := List.take_of_length_le (by simp [hashToField, hl])
      rw [hfull, hl] at hy'
      exact hy'
    · exact (datapathInv_map (if_neg hl)).mpr ⟨hx, hy'⟩
  | commit hq e =>
    rw [e, DatapathInv, commitHeld_seq]
    trivial

/-! #### How many turns are left (42_expand_message_xmd.md R195) -/

/-- The elements that the held command has to make. -/
def elementCount (s : State) : Nat :=
  match s.snap.op with
  | .expand => 0
  | .hashToField => s.snap.count.toNat

/-- The engine turns from a sequencer state in range to IDLE, the commit included. -/
def turnsLeft (s : State) : Nat :=
  match s.seq with
  | .idle => 0
  | .expB0 => 1 + max (ell (heldLength s)) 1 + elementCount s + 1
  | .expB1 => max (ell (heldLength s)) 1 + elementCount s + 1
  | .expBI j => (ell (heldLength s) + 1 - j) + elementCount s + 1
  | .map i => (s.snap.count.toNat - i) + 1
  | .commit => 1

theorem turnsLeft_expB0 {s : State} (hq : s.seq = .expB0) :
    turnsLeft s = turnsToCommit s.snap.op s.snap.outLen.toNat s.snap.count.toNat := by
  unfold turnsLeft turnsToCommit heldLength elementCount
  cases s.snap.op <;> simp only [hq, Nat.add_zero]

theorem turnsLeft_commit {s : State} (hq : s.seq = .commit) : turnsLeft s = 1 := by
  simp only [turnsLeft, hq]

theorem turnsLeft_pos {s : State} (hi : s.seq ≠ .idle) : 0 < turnsLeft s := by
  unfold turnsLeft
  cases hq : s.seq with
  | idle => exact absurd hq hi
  | expB0 | expB1 | expBI j | map i | commit => simp

/-- At AFTER_EXPAND the elements and the commit are left. -/
theorem turnsLeft_afterExpand {s : State} (hq : s.seq = afterExpand s) : turnsLeft s = elementCount s + 1 := by
  unfold turnsLeft elementCount
  rw [hq]
  rcases afterExpand_cases s with ⟨e, hop⟩ | ⟨e, hop, -⟩ <;> rw [e]
  · cases hs : s.snap.op with
    | expand => rfl
    | hashToField => simp [hop.resolve_left (hs ▸ Instr.noConfusion)]
  · rw [hop]
    rfl

/-- Each turn of a held command before its commit takes one off what is left. -/
theorem turnsLeft_engineStep {s : State} (h : HeldInv s) (hs : legalMsgBufSize s.msgbufSize.toNat)
    (hi : s.seq ≠ .idle) :
    turnsLeft (engineStep s) + 1 = turnsLeft s := by
  cases engineStep_held h hs hi with
  | b0 hq r e =>
    rw [e]
    simp only [turnsLeft, hq, heldLength, elementCount]
    omega
  | b1 hq r d _ e =>
    have hl : ell (heldLength s) ≤ 1 ↔ heldLength s ≤ 32 := by unfold ell ceilDiv hashLen; omega
    by_cases hlast : heldLength s ≤ 32
    · have hafter : (engineStep s).seq = afterExpand (engineStep s) := by rw [e, if_pos hlast]; rfl
      rw [turnsLeft_afterExpand hafter, e]
      simp only [turnsLeft, hq, max_eq_right (hl.mpr hlast)]
      show elementCount s + 1 + 1 = _
      omega
    · rw [e, if_neg hlast]
      rw [← hl] at hlast
      simp only [turnsLeft, hq]
      show ell (heldLength s) + 1 - 2 + elementCount s + 1 + 1 = max (ell (heldLength s)) 1 + elementCount s + 1
      omega
  | bi j hq hj r d _ e =>
    by_cases hlast : j = ell (heldLength s)
    · have hafter : (engineStep s).seq = afterExpand (engineStep s) := by rw [e, if_pos hlast]; rfl
      rw [turnsLeft_afterExpand hafter, e]
      simp only [turnsLeft, hq]
      show elementCount s + 1 + 1 = _
      omega
    · rw [e, if_neg hlast]
      simp only [turnsLeft, hq]
      show ell (heldLength s) + 1 - (j + 1) + elementCount s + 1 + 1 = _
      omega
  | map i hq _ hlt d _ e =>
    rw [e]
    by_cases hlast : i + 1 = s.snap.count.toNat
    · rw [turnsLeft_commit (if_pos hlast), turnsLeft, hq]
      show 1 + 1 = s.snap.count.toNat - i + 1
      omega
    · simp only [turnsLeft, hq, if_neg hlast]
      omega
  | commit hq e =>
    rw [turnsLeft_commit hq, e, turnsLeft, commitHeld_seq]

/-! #### The engine left to itself -/

/-- A run goes on from the state that its first step answers. -/
theorem core_run_succ {M : Host.Core} {s t : M.State} (h : M.step s = .next t) (n : Nat) :
    M.run (n + 1) s = M.run n t := by
  rw [Host.Core.run, h]

theorem run_succ {s t : State} (h : step s = .next t) (n : Nat) :
    Host.Core.run Sys2Proof.core (n + 1) s = Host.Core.run Sys2Proof.core n t :=
  core_run_succ (M := Sys2Proof.core) h n

/-- With no event left the engine takes the turn of the command held (R45, R296; log 10). -/
theorem step_quiet {s : State} (hin : s.input = []) (hi : s.seq ≠ .idle) :
    step s = .next (engineStep { s with turn := .engine }) :=
  step_engine_run (.inl ⟨hin, rfl⟩) hi

/-- A held command, with what its snapshot, its operands and the datapath promise, in a state with no event to come. -/
structure Running (s : State) : Prop where
  quiet : s.input = []
  turn : s.turn = .engine
  active : s.seq ≠ .idle
  held : HeldInv s
  size : legalMsgBufSize s.msgbufSize.toNat
  datapath : DatapathInv s

/-- A running command takes its turn. -/
theorem Running.step {s : State} (h : Running s) : step s = .next (engineStep s) := by
  rw [step_quiet h.quiet h.active, ← h.turn]

/-- A running command runs on until its commit. -/
theorem Running.engineStep {s : State} (h : Running s) (hq : s.seq ≠ .commit) : Running (engineStep s) := by
  obtain ⟨hquiet, hturn, hactive, hheld, hsize, hdata⟩ := h
  obtain ⟨hn, -⟩ := (engineStep_held hheld hsize hactive).inRange hq
  have hheld' := hheld.engineStep hsize hactive hq
  have hdata' := engineStep_datapath hheld hsize hactive hdata
  rw [engineStep_hidden hq] at hheld' hdata' ⊢
  exact ⟨hquiet, hturn, hn, hheld', hsize, hdata'⟩

/-- A running command comes to its commit in the turns that are left, and only the hidden registers have changed by
then (R47, R296). -/
theorem Running.run {s : State} (h : Running s) :
    ∃ u, Host.Core.run Sys2Proof.core (turnsLeft s) s = .next (commitHeld u) ∧ u = withHidden s u ∧ u.seq = .commit ∧
      Running u := by
  generalize hn : turnsLeft s = n
  induction n generalizing s with
  | zero => exact absurd hn (turnsLeft_pos h.active).ne'
  | succ n ih =>
    by_cases hq : s.seq = .commit
    · obtain rfl : n = 0 := by rw [turnsLeft_commit hq] at hn; omega
      exact ⟨s, by rw [run_succ h.step, engineStep_commit hq]; rfl, rfl, hq, h⟩
    · have hleft := turnsLeft_engineStep h.held h.size h.active
      obtain ⟨u, hrun, hu, huq, hur⟩ := ih (h.engineStep hq) (by omega)
      rw [engineStep_hidden hq] at hu
      exact ⟨u, by rw [run_succ h.step, hrun], hu, huq, hur⟩

/-- An accepted command is running once the engine has its turn (R104). -/
theorem startCommand_running {s : State} {i : Instr} (hr : s.rstN = true) (hin : s.input = [])
    (hs : legalMsgBufSize s.msgbufSize.toNat) (hc : checkOperands i s = none) :
    Running { startCommand i s with turn := .engine } :=
  ⟨hin, rfl, Seq.noConfusion, (startCommand_held hr hc).of_eq rfl rfl rfl rfl hr, hs, trivial⟩

/-- The state in which the engine takes the first turn of command `i`, accepted in `s` as the last event (R104). -/
def accepted (i : Instr) (s : State) : State :=
  { startCommand i (clearOutcome (writeBegun s [])) with turn := .engine }

/-- A command written to CMD as the last event, with operands that pass the checks, runs from acceptance to its commit;
before that only the hidden registers change (R104, R190, R237, R296). -/
theorem run_command {s : State} {i : Instr} (hr : s.rstN = true) (hb : s.status.busy = false)
    (hin : s.input = [.bus (cmdWrite (encode i))]) (hs : legalMsgBufSize s.msgbufSize.toNat)
    (hc : checkOperands i s = none) :
    ∃ u, Host.Core.run Sys2Proof.core (1 + turnsToCommit i s.outLen.toNat s.count.toNat) s = .next (commitHeld u) ∧
      u = withHidden (accepted i s) u ∧ u.seq = .commit ∧ Running u := by
  have hd : decodeWord (encode i) = .ok i := by cases i <;> rfl
  have hrun : Running (accepted i s) := startCommand_running (s := clearOutcome (writeBegun s [])) hr rfl hs hc
  obtain ⟨u, hu, hrest⟩ := hrun.run
  have hcheck : checkCommand (encode i) s = none := by rw [checkCommand, hd]; exact hc
  obtain ⟨i', hi', hstep⟩ := step_cmd_accepted hr hin hb hcheck
  obtain rfl : i' = i := by rw [hd] at hi'; exact (Except.ok.inj hi').symm
  have hleft : turnsLeft (accepted i' s) = turnsToCommit i' s.outLen.toNat s.count.toNat := turnsLeft_expB0 rfl
  refine ⟨u, ?_, hrest⟩
  rw [Nat.add_comm, run_succ hstep, ← hleft, ← hu]
  obtain ⟨n, hn⟩ : ∃ n, turnsLeft (accepted i' s) = n + 1 := Nat.exists_eq_add_one.mpr (turnsLeft_pos hrun.active)
  have hfirst := step_quiet (s := startCommand i' (clearOutcome (writeBegun s []))) rfl Seq.noConfusion
  rw [hn, run_succ hrun.step, run_succ hfirst]
  rfl

/-- How many bytes the held command commits (R191, R238). -/
def resultLength (s : State) : Nat :=
  match s.snap.op with
  | .expand => s.snap.outLen.toNat
  | .hashToField => feBytes * s.snap.count.toNat

/-- The commit publishes the reference result of the snapshot, the tag and the message, and its length (R191, R238). -/
theorem commitHeld_result {s : State} (hq : s.seq = .commit) (h : HeldInv s) (hd : DatapathInv s) :
    (commitHeld s).resultLen.toNat = resultLength s ∧
      (commitHeld s).memRead outBufBase (resultLength s) =
        resultBytes s.snap.op s.tag s.message s.snap.outLen.toNat s.snap.count.toNat := by
  have published (n : Word) {bs : List Byte} {k : Nat} (hk : bs.length = k) :
      (finishCommand n (s.memWrite outBufBase bs)).memRead outBufBase k = bs :=
    hk ▸ memRead_memWrite s outBufBase bs
  unfold commitHeld resultLength resultBytes
  cases hop : s.snap.op with
  | expand =>
    exact ⟨rfl, (published _ (expbufRead_length _ _ _)).trans ((datapathInv_commit_expand hq hop).mp hd)⟩
  | hashToField =>
    have hcount := h.count_le hop
    refine ⟨?_, (published _ (resbufRead_length _ _ _)).trans ((datapathInv_commit_hashToField hq hop).mp hd)⟩
    show (BitVec.ofNat 32 (feBytes * s.snap.count.toNat)).toNat = feBytes * s.snap.count.toNat
    rw [BitVec.toNat_ofNat]
    unfold feBytes
    omega

/-- A command written to CMD as the last event commits the reference result of its operands, the tag and the message
(R52, R191, R193, R238, R239). -/
theorem run_command_result {s : State} {i : Instr} (hr : s.rstN = true) (hb : s.status.busy = false)
    (hin : s.input = [.bus (cmdWrite (encode i))]) (hs : legalMsgBufSize s.msgbufSize.toNat)
    (hc : checkOperands i s = none) :
    ∃ t, Host.Core.run Sys2Proof.core (1 + turnsToCommit i s.outLen.toNat s.count.toNat) s = .next t ∧
      t.resultLen.toNat = (match i with | .expand => s.outLen.toNat | .hashToField => feBytes * s.count.toNat) ∧
      t.memRead outBufBase t.resultLen.toNat = resultBytes i s.tag s.message s.outLen.toNat s.count.toNat := by
  obtain ⟨u, hrun, hu, hq, hur⟩ := run_command hr hb hin hs hc
  obtain ⟨hlen, hbytes⟩ := commitHeld_result hq hur.held hur.datapath
  rw [← hlen] at hbytes
  refine ⟨_, hrun, hlen.trans ?_, hbytes.trans ?_⟩ <;> rw [hu]
  · cases i <;> rfl
  · rfl

end Sys2Proof.Machine

namespace Sys2Proof.Proofs

open Sys2Proof.Machine

/-- Settles O50: both runs commit the reference result, and the reference functions see the named inputs alone. -/
theorem resultDependsOnlyOnItsInputs : Obligations.ResultDependsOnlyOnItsInputs := by
  intro s1 s2 i hstart hdst hmsg hout hcount hdstBytes hmsgBytes
  obtain ⟨hr1, hb1, hin1, hs1, hc1⟩ := hstart s1 (.inl rfl)
  obtain ⟨hr2, hb2, hin2, hs2, hc2⟩ := hstart s2 (.inr rfl)
  obtain ⟨t1, hrun1, hlen1, hres1⟩ := run_command_result hr1 hb1 hin1 hs1 hc1
  obtain ⟨t2, hrun2, hlen2, hres2⟩ := run_command_result hr2 hb2 hin2 hs2 hc2
  have htag : s1.tag = s2.tag := by
    rw [State.tag, State.tag, ← hdst]
    exact memRead_congr hdstBytes
  have hmessage : s1.message = s2.message := by
    rw [State.message, State.message, ← hmsg]
    exact memRead_congr hmsgBytes
  refine ⟨t1, t2, hrun1, hrun2, BitVec.eq_of_toNat_eq ?_, hres1.trans (Eq.trans ?_ hres2.symm)⟩
  · rw [hlen1, hlen2]
    cases i with
    | expand => rw [hout rfl]
    | hashToField => rw [hcount rfl]
  · rw [htag, hmessage]
    cases i with
    | expand => rw [hout rfl]; rfl
    | hashToField => rw [hcount rfl]; rfl

end Sys2Proof.Proofs

/-! ### Which accesses the port refuses, and its answer to the others (20_memory.md R72, R73, R78) -/

namespace Sys2Proof.Machine

/-- The accesses that R72 and R73 forbid: misaligned, narrow in the control region, or covering an unmapped byte. -/
def IllegalAccess (x : Transaction) (s : State) : Prop :=
  x.off.toNat % x.size.bytes ≠ 0 ∨ (x.off.toNat < 0x100 ∧ x.size ≠ .four) ∨
    ∃ k < x.size.bytes, ¬(x.off.toNat + k < 0x28 ∨ bufferOffset s.msgbufSize.toNat (x.off.toNat + k))

/-- The buffers begin above the control region (R75). -/
theorem bufferOffset_ge {size a : Nat} (h : bufferOffset size a) : 0x100 ≤ a := by
  unfold bufferOffset dstBufBase outBufBase msgBufBase at h
  omega

/-- The control registers fill the word offsets below 0x28: an aligned word of the control region misses them exactly if
one of its bytes is unmapped (R72, R75). -/
theorem controlPlace_eq_none {off : Nat} (h4 : off % 4 = 0) (hc : off < 0x100) (size : Nat) :
    controlPlace off = none ↔ ∃ k < 4, ¬(off + k < 0x28 ∨ bufferOffset size (off + k)) := by
  have hreserved : controlPlace off = none ↔ 0x28 ≤ off := by
    simp only [controlPlace, ite_eq_iff, reduceCtorEq, and_false, false_or, and_true]
    omega
  rw [hreserved]
  constructor
  · intro h
    refine ⟨0, by decide, ?_⟩
    rintro (hlow | hbuf)
    · omega
    · have := bufferOffset_ge hbuf
      omega
  · rintro ⟨k, hk, hmiss⟩
    omega

/-- An aligned access misses the buffers exactly if one of its bytes does: OUT_BUF and MSG_BUF adjoin, but no aligned
access spans both (R72, R73, R75). -/
theorem bufferPlace_eq_none {size off : Nat} {z : BusSize} (hz : off % z.bytes = 0) :
    bufferPlace size off z.bytes = none ↔ ∃ k < z.bytes, ¬bufferOffset size (off + k) := by
  have hpos : 0 < z.bytes := by cases z <;> decide
  have hout : off < 0x4000 → off + z.bytes ≤ 0x4000 := by cases z <;> simp only [BusSize.bytes] at hz ⊢ <;> omega
  have hdst : off < 0x120 → off + z.bytes ≤ 0x120 := by cases z <;> simp only [BusSize.bytes] at hz ⊢ <;> omega
  constructor
  · intro hnone
    by_contra hall
    push Not at hall
    have hfirst := hall 0 hpos
    have hlast := hall (z.bytes - 1) (by omega)
    simp only [bufferPlace, ite_eq_iff, reduceCtorEq, and_false, false_or, and_true] at hnone
    unfold bufferOffset at hfirst hlast
    unfold dstBufBase dstBufSize outBufBase outBufSize msgBufBase at *
    omega
  · rintro ⟨k, hk, hmiss⟩
    by_contra hsome
    obtain ⟨p, hp⟩ := Option.ne_none_iff_exists'.mp hsome
    have hbounds := bufferPlace_bounds hp
    refine hmiss ?_
    unfold bufferOffset dstBufBase dstBufSize outBufBase outBufSize msgBufBase
    omega

/-- The port's check stops exactly the illegal accesses. -/
theorem busAccess_eq_none {x : Transaction} {s : State} : busAccess x s = none ↔ IllegalAccess x s := by
  unfold IllegalAccess busAccess controlEnd
  rw [sizeBytes_eq]
  by_cases hal : x.off.toNat % x.size.bytes = 0
  · rw [if_neg (not_not.mpr hal), or_iff_right (not_not.mpr hal)]
    by_cases hctl : x.off.toNat < 0x100
    · rw [if_pos hctl]
      by_cases hsz : x.size = .four
      · rw [hsz] at hal ⊢
        rw [if_pos rfl, or_iff_right (fun h => h.2 rfl)]
        exact controlPlace_eq_none hal hctl _
      · rw [if_neg hsz]
        exact ⟨fun _ => .inl ⟨hctl, hsz⟩, fun _ => rfl⟩
    · have hhigh (k : Nat) : ¬x.off.toNat + k < 0x28 := by omega
      rw [if_neg hctl, or_iff_right (fun h => hctl h.1), bufferPlace_eq_none hal]
      simp only [hhigh, false_or]
  · rw [if_pos hal]
    exact ⟨fun _ => .inl hal, fun _ => rfl⟩

/-- Whatever becomes of a CMD write, the port's answer stands (R78, R104). -/
theorem acceptCommand_response (i : Instr) (s : State) : (acceptCommand i s).response = s.response := by
  rcases acceptCommand_cases i s with ⟨-, e⟩ | ⟨code, -, -, e⟩ | ⟨-, -, e⟩ <;> rw [e] <;> rfl

theorem refuseWord_response (s : State) : (refuseWord s).response = s.response := by
  cases hb : s.status.busy with
  | true => rw [refuseWord_busy hb]; rfl
  | false => rw [refuseWord_idle hb]; rfl

section
variable {s : State} {x : Transaction} {rest : List Event}

/-- An access that the port's check stops (R72, R73, R79). -/
theorem step_access_error (hr : s.rstN = true) (hin : s.input = .bus x :: rest) (ha : busAccess x s = none) :
    step s = .next { s with input := rest, turn := .host, response := some ⟨.slverr, some 0⟩ } :=
  step_bus_error ⟨rest, hin, rfl⟩ hr ha

/-- An access that passes the port's check is answered OKAY (R78). -/
theorem step_access_okay (hr : s.rstN = true) (hin : s.input = .bus x :: rest) {p : Place}
    (ha : busAccess x s = some p) : ∃ t d, step s = .next t ∧ t.response = some ⟨.okay, d⟩ := by
  cases hk : x.kind with
  | read => exact ⟨_, _, step_read hr hin hk ha, rfl⟩
  | write =>
    by_cases hp : p = .cmd
    · subst hp
      cases hd : decodeWord x.wdata with
      | ok i => exact ⟨_, none, step_write_command hr hin ha hk hd, acceptCommand_response i _⟩
      | error e => exact ⟨_, none, step_write_illegal hr hin ha hk hd, refuseWord_response _⟩
    · obtain ⟨-, -, -, -, -, -, hresp, -⟩ := writePlace_frame p x (writeBegun s rest)
      exact ⟨_, none, step_write hr hin hk ha hp, hresp⟩

/-- A transaction is performed only out of reset (R280). -/
theorem rstN_of_step_bus (hin : s.input = .bus x :: rest) {t : State} (hst : step s = .next t) : s.rstN = true := by
  cases hr : s.rstN with
  | true => rfl
  | false =>
    rw [step_bus_inReset ⟨rest, hin, rfl⟩ hr] at hst
    cases hst

end

/-! #### The lanes of a buffer read (R71, R77) -/

theorem readLanes_lane (s : State) (off : Nat) {z : BusSize} {k : Nat} (hk : k < z.bytes) :
    (readLanes s off z).extractLsb' (8 * k) 8 = s.byteAt (off + k) := by
  have hk4 : k < 4 := hk.trans_le (by cases z <;> decide)
  cases z <;> rw [readLanes, laneWord_lane _ _ _ _ hk4] <;> simp only [BusSize.bytes] at hk <;> interval_cases k <;> rfl

/-- The lanes above the bytes read are 0. -/
theorem readLanes_lt (s : State) (off : Nat) (z : BusSize) : (readLanes s off z).toNat < 256 ^ z.bytes := by
  have hlt (a : Nat) : (s.byteAt a).toNat < 256 := (s.byteAt a).isLt
  have h0 := hlt off
  have h1 := hlt (off + 1)
  cases z with
  | one | two => simp only [readLanes, laneWord_toNat, BusSize.bytes, BitVec.ofNat_eq_ofNat, BitVec.toNat_zero]; omega
  | four => exact (readLanes s off .four).isLt

theorem readPlace_buffer {p : Place} (hp : p ∈ [Place.dstBuf, .outBuf, .msgBuf]) (x : Transaction) (s : State) :
    readPlace p x s = readLanes s x.off.toNat x.size := by
  simp only [List.mem_cons, List.not_mem_nil, or_false] at hp
  rcases hp with rfl | rfl | rfl <;> rfl

/-! #### The step that sets DONE (10_state.md R35; 42_expand_message_xmd.md R191; 45_hash_to_field.md R238) -/

/-- Only the commit of the command held sets DONE. -/
theorem commit_of_done_rises {s t : State} (hst : step s = .next t) (h0 : s.status.done = false)
    (h1 : t.status.done = true) : s.seq = .commit ∧ ∃ es, t = commitHeld { s with input := es, turn := .engine } := by
  cases step_status hst with
  | commit hq hin _ _ =>
    obtain ⟨es, e⟩ := step_commit hq hin
    exact ⟨hq, es, next_inj e hst⟩
  | kept e | reset _ _ e | dropped _ _ _ _ _ _ _ _ e | cleared _ _ _ _ _ e | refused _ _ _ _ _ _ _ _ e
  | accepted _ _ _ _ _ _ _ _ e => simp [e, Status.zero, Status.writeOneToClear, h0] at h1

/-- The commit writes the result's bytes of OUT_BUF and no other (R191, R238). -/
theorem commitHeld_byteAt (s : State) {a : Nat} (ha : ¬(outBufBase ≤ a ∧ a < outBufBase + resultLength s)) :
    (commitHeld s).byteAt a = s.byteAt a := by
  have kept (n : Word) {bs : List Byte} (hl : bs.length = resultLength s) :
      (finishCommand n (s.memWrite outBufBase bs)).byteAt a = s.byteAt a := by
    have hmiss : ¬(outBufBase ≤ a ∧ a < outBufBase + bs.length) := by rwa [hl]
    exact (byteAt_memWrite s outBufBase bs a).trans (if_neg hmiss)
  unfold resultLength at kept
  unfold commitHeld
  cases hop : s.snap.op <;> simp only [hop] at kept
  · exact kept _ (expbufRead_length _ _ _)
  · exact kept _ (resbufRead_length _ _ _)

/-- What the commit publishes, in terms of the operand registers: the snapshot still equals them (R53, R191, R238). -/
theorem commitHeld_published {s : State} (hq : s.seq = .commit) (h : HeldInv s) (hd : DatapathInv s) :
    (commitHeld s).memRead outBufBase (commitHeld s).resultLen.toNat =
        resultBytes s.snap.op s.tag s.message s.outLen.toNat s.count.toNat ∧
      (commitHeld s).resultLen.toNat =
        (match s.snap.op with | .expand => s.outLen.toNat | .hashToField => feBytes * s.count.toNat) ∧
      ∀ a, ¬(outBufBase ≤ a ∧ a < outBufBase + (commitHeld s).resultLen.toNat) →
        (commitHeld s).byteAt a = s.byteAt a := by
  obtain ⟨hlen, hbytes⟩ := commitHeld_result hq h hd
  have hout : s.snap.outLen = s.outLen := congrArg Snapshot.outLen h.snapshot
  have hcount : s.snap.count = s.count := congrArg Snapshot.count h.snapshot
  rw [hlen, ← hout, ← hcount]
  exact ⟨hbytes, rfl, fun a => commitHeld_byteAt s⟩

end Sys2Proof.Machine

namespace Sys2Proof.Proofs

open Sys2Proof.Machine

/-- Settles O48: the step is a commit, and the commit publishes the reference result. -/
theorem doneMeansTheReferenceResult : Obligations.DoneMeansTheReferenceResult := by
  intro s t hinv hdata hst h0 h1
  obtain ⟨hq, es, rfl⟩ := commit_of_done_rises hst h0 h1
  have hactive : s.seq ≠ .idle := by simp [hq]
  have hheld := (hinv.port es .engine s.response).control.held hactive
  exact commitHeld_published (s := { s with input := es, turn := .engine }) hq hheld hdata

/-- Settles O17: the port stops exactly the illegal accesses, and every access that passes is answered OKAY. -/
theorem busErrorsAreExactlyTheIllegalAccesses : Obligations.BusErrorsAreExactlyTheIllegalAccesses := by
  intro s x rest hr hin _
  refine ⟨fun hbad => step_access_error hr hin (busAccess_eq_none.mpr hbad), fun hgood => ?_⟩
  obtain ⟨p, ha⟩ := Option.ne_none_iff_exists'.mp fun h => hgood (busAccess_eq_none.mp h)
  exact step_access_okay hr hin ha

/-- Settles O18: an access answered SLVERR did not pass the port's check. -/
theorem busErrorsChangeNothing : Obligations.BusErrorsChangeNothing := by
  intro s t x rest d hin hst hresp
  have hr := rstN_of_step_bus hin hst
  cases ha : busAccess x s with
  | none =>
    obtain rfl := next_inj (step_access_error hr hin ha) hst
    cases hresp
    exact ⟨rfl, rfl⟩
  | some p =>
    obtain ⟨t', d', e, hokay⟩ := step_access_okay hr hin ha
    obtain rfl := next_inj e hst
    rw [hokay] at hresp
    cases hresp

/-- Settles O21, lane by lane. -/
theorem bufferReadsUseLittleEndianLanes : Obligations.BufferReadsUseLittleEndianLanes := by
  intro s x rest p hr hin hk ha hp
  refine ⟨readLanes s x.off.toNat x.size, ?_, fun k hlt => readLanes_lane s _ hlt, readLanes_lt s _ _⟩
  rw [step_read hr hin hk ha, readPlace_buffer hp]
  rfl

/-- Settles O26: the clause of the busy rule for the places that ignore a write. -/
theorem readOnlyPlacesIgnoreWrites : Obligations.ReadOnlyPlacesIgnoreWrites := by
  intro s x rest p hr hin hk ha hp
  obtain ⟨d, -, -, -, ignored, -⟩ := busyRuleDropsSetupWrites s x rest p hr hin ha
  exact ⟨d, ignored hk hp⟩

/-- Settles O19: a read that passes the port's check changes its answer alone, and so does one that does not. -/
theorem readsChangeNothing : Obligations.ReadsChangeNothing := by
  intro s x rest hr hin hk
  cases ha : busAccess x s with
  | none => exact ⟨_, step_access_error hr hin ha⟩
  | some p => exact ⟨_, step_read hr hin hk ha⟩

end Sys2Proof.Proofs

/-! ### The command word and its bytes (30_encoding.md R100, R101, R108; 20_memory.md R71) -/

namespace Sys2Proof

/-- The word of a command decodes to it (R101, R108). -/
@[simp] theorem decodeWord_encode (i : Instr) : decodeWord (encode i) = .ok i := by
  cases i <;> rfl

/-- Only the word of a command decodes to it: RSV is 0 and OP is the command's opcode (R100, R101). -/
theorem decodeWord_eq_ok {w : Word} {i : Instr} : decodeWord w = .ok i ↔ w = encode i := by
  refine ⟨fun h => ?_, fun h => h ▸ decodeWord_encode i⟩
  apply BitVec.eq_of_toNat_eq
  rw [decodeWord_toNat] at h
  split_ifs at h with hrsv hexpand hhash
  · cases h
    show w.toNat = 1
    omega
  · cases h
    show w.toNat = 2
    omega

/-- The four lanes of a word form the word again (R71). -/
theorem laneWord_extract (w : Word) :
    laneWord (w.extractLsb' 0 8) (w.extractLsb' 8 8) (w.extractLsb' 16 8) (w.extractLsb' 24 8) = w := by
  have hw := w.isLt
  apply BitVec.eq_of_toNat_eq
  simp only [laneWord_toNat, BitVec.extractLsb'_toNat, Nat.shiftRight_eq_div_pow]
  omega

/-- The decoder reads one word and hands back the bytes behind it (R100). -/
theorem decode_eq_ok {bs rest : List Byte} {i : Instr} :
    decode bs = .ok (i, rest) ↔
      ∃ b0 b1 b2 b3, bs = b0 :: b1 :: b2 :: b3 :: rest ∧ decodeWord (laneWord b0 b1 b2 b3) = .ok i := by
  constructor
  · intro h
    match bs with
    | [] | [_] | [_, _] | [_, _, _] => cases h
    | b0 :: b1 :: b2 :: b3 :: tail =>
      cases hd : decodeWord (laneWord b0 b1 b2 b3) with
      | ok i' =>
        simp only [decode, hd, Except.ok.injEq, Prod.mk.injEq] at h
        obtain ⟨rfl, rfl⟩ := h
        exact ⟨b0, b1, b2, b3, rfl, hd⟩
      | error e =>
        simp only [decode, hd, reduceCtorEq] at h
  · rintro ⟨b0, b1, b2, b3, rfl, hd⟩
    simp only [decode, hd]

/-- The byte strings that decode to a command are its four bytes with anything behind them (R100, R108). -/
theorem decode_eq_ok_iff_encode {bs rest : List Byte} {i : Instr} :
    decode bs = .ok (i, rest) ↔ bs = laneBytes (encode i) ++ rest := by
  rw [decode_eq_ok]
  constructor
  · rintro ⟨b0, b1, b2, b3, rfl, hd⟩
    rw [← decodeWord_eq_ok.mp hd, laneBytes_laneWord]
    rfl
  · rintro rfl
    exact ⟨_, _, _, _, rfl, by rw [laneWord_extract, decodeWord_encode]⟩

/-- A word is rejected exactly if it is the word of no command (R103, R105). -/
theorem decodeWord_error_iff {w : Word} : (∃ e, decodeWord w = .error e) ↔ ∀ i, w ≠ encode i := by
  simp only [ne_eq, ← decodeWord_eq_ok]
  cases decodeWord w with
  | ok i => simp
  | error e => simp

end Sys2Proof

namespace Sys2Proof.Proofs

open Sys2Proof.Machine

/-- Settles O2: the byte strings that decode to a command are exactly those that begin with its encoding. -/
theorem decodeInvertsEncode : Obligations.DecodeInvertsEncode :=
  ⟨fun _ _ _ => decode_eq_ok_iff_encode.mpr rfl, fun _ _ _ => decode_eq_ok_iff_encode.mp⟩

/-- Settles O7: the three outcomes of a CMD write, with what each writes over the state in which the write begins. -/
theorem commandWriteFollowsAcceptance : Obligations.CommandWriteFollowsAcceptance := by
  intro s v rest hr hin
  refine ⟨none, fun hb => ?_, fun hb code hc => ?_, fun hb hc => ?_⟩
  · exact step_cmd_dropped hr hin rfl (busAccess_cmdWrite v s) hb
  · rw [step_cmd_refused hr hin hb hc, ← refuse_status hb code]
    rfl
  · obtain ⟨i, hd, e⟩ := step_cmd_accepted hr hin hb hc
    exact ⟨i, hd, e⟩

/-- Settles O1: the two words are the encodings of the two commands. -/
theorem commandWordsAreExactlyTwo : Obligations.CommandWordsAreExactlyTwo := by
  intro w
  refine ⟨decodeWord_eq_ok, decodeWord_eq_ok, decodeWord_error_iff.trans ⟨fun h => ⟨h .expand, h .hashToField⟩, ?_⟩⟩
  rintro ⟨hexpand, hhash⟩ i
  cases i with
  | expand => exact hexpand
  | hashToField => exact hhash

/-- Settles O3, by evaluation of the decoder on each word. -/
theorem opcodeMapWordsDecode : Obligations.OpcodeMapWordsDecode :=
  ⟨rfl, rfl, rfl, rfl, rfl, rfl⟩

/-- Settles O4: the step and `exec` on the host's turn are both the acceptance of the command. -/
theorem stepRunsTheWrittenCommand : Obligations.StepRunsTheWrittenCommand := by
  intro s v i rest hr hin hd
  rw [exec_host rfl, step_write_command hr hin (busAccess_cmdWrite v s) rfl hd]
  rfl

end Sys2Proof.Proofs

/-! ### XOR32 lane by lane (41_xor_message_domain_mixer.md R163) -/

namespace Sys2Proof.Machine

/-- One base-256 digit of an XOR is the XOR of the digits. -/
theorem digit_xor (x y n : Nat) :
    BitVec.ofNat 8 ((x ^^^ y) / 256 ^ n % 256) =
      BitVec.ofNat 8 (x / 256 ^ n % 256) ^^^ BitVec.ofNat 8 (y / 256 ^ n % 256) := by
  have hpow : 256 ^ n = 2 ^ (8 * n) := (pow_mul 2 8 n).symm
  have hbyte : 256 = 2 ^ 8 := rfl
  rw [hpow, hbyte, Nat.xor_div_two_pow, Nat.xor_mod_two_pow, BitVec.ofNat_xor]

/-- I2OSP takes the XOR of numbers to the XOR of byte strings. -/
theorem i2osp_xor (x y n : Nat) : i2osp (x ^^^ y) n = xorBytes (i2osp x n) (i2osp y n) := by
  induction n with
  | zero => rfl
  | succ n ih =>
    simp only [i2osp_succ, digit_xor, ih]
    rfl

theorem xorBytes_comm (a b : List Byte) : xorBytes a b = xorBytes b a :=
  List.zipWith_comm_of_comm BitVec.xor_comm

theorem xorBytes_self (a : List Byte) : xorBytes a a = zeros a.length := by
  induction a with
  | nil => rfl
  | cons b a ih =>
    calc xorBytes (b :: a) (b :: a) = (b ^^^ b) :: xorBytes a a := rfl
      _ = zeros (b :: a).length := by rw [BitVec.xor_self, ih]; rfl

theorem xorBytes_zeros (a : List Byte) : xorBytes a (zeros a.length) = a := by
  induction a with
  | nil => rfl
  | cons b a ih =>
    calc xorBytes (b :: a) (zeros (b :: a).length) = (b ^^^ 0) :: xorBytes a (zeros a.length) := rfl
      _ = b :: a := by rw [ih]; simp

theorem xor32_zeros {a : List Byte} (h : a.length = 32) : xor32 a (zeros 32) = a := by
  rw [xor32, ← h, xorBytes_zeros]

theorem xor32_wideBytes (x y : Wide) : xor32 (wideBytes x) (wideBytes y) = wideBytes (x ^^^ y) := by
  rw [xor32, wideBytes, wideBytes, wideBytes, BitVec.toNat_xor, i2osp_xor]

end Sys2Proof.Machine

/-! ### The beats of the mixer's stream (41_xor_message_domain_mixer.md R171, R173) -/

namespace Sys2Proof.Machine

theorem toBeats_bytes (l : List Byte) : (toBeats l).map StreamBeat.byte = l := by
  induction l with
  | nil => rfl
  | cons b l ih => rw [toBeats_cons, List.map_cons, ih]

/-- `out_last` stands with the last byte alone. -/
theorem toBeats_last (b : Byte) (l : List Byte) :
    (toBeats (b :: l)).map StreamBeat.last = List.replicate l.length false ++ [true] := by
  induction l generalizing b with
  | nil => rfl
  | cons c l ih =>
    rw [toBeats_cons, List.map_cons, ih, List.length_cons, List.replicate_succ]
    rfl

theorem mixerStream_bytes (c : MixerControl) (s : State) :
    (mixerStream c s).map StreamBeat.byte = mixerBytes c s := by
  rw [mixerStream_eq, toBeats_bytes]

theorem mixerStream_length (c : MixerControl) (s : State) :
    (mixerStream c s).length = (mixerSources c).length := by
  rw [mixerStream_eq, toBeats_length, mixerBytes, List.length_map]

theorem mixerStream_last {c : MixerControl} {s : State} (h : 0 < (mixerStream c s).length) :
    (mixerStream c s).map StreamBeat.last = List.replicate ((mixerStream c s).length - 1) false ++ [true] := by
  rw [mixerStream_eq] at h ⊢
  cases hb : mixerBytes c s with
  | nil => rw [hb] at h; exact absurd h (lt_irrefl 0)
  | cons b l => rw [toBeats_last, toBeats_length, List.length_cons, Nat.add_sub_cancel]

/-- Every mode that the pipeline drives emits something (R171). -/
theorem mixerSources_length_pos {c : MixerControl} (h : c.mode ≠ 3) : 0 < (mixerSources c).length := by
  rw [mixerSources_length]
  by_cases h0 : c.mode = 0
  · rw [if_pos h0]; omega
  · have h12 : c.mode = 1 ∨ c.mode = 2 := by bv_omega
    rw [if_neg h0, if_pos h12]; omega

end Sys2Proof.Machine

namespace Sys2Proof.Proofs

open Sys2Proof.Machine

/-- Settles O55: the lanes are the digits of the wide words, and each law holds lane by lane. -/
theorem xorLanesAreTheWideXor : Obligations.XorLanesAreTheWideXor := fun x y =>
  ⟨xor32_wideBytes x y, xorBytes_comm _ _,
    (xorBytes_self _).trans (congrArg zeros (wideBytes_length x)), xor32_zeros (wideBytes_length x)⟩

/-- Settles O56: XOR with zeros leaves b0. -/
theorem mixFirstIsTheChainFormWithZero : Obligations.MixFirstIsTheChainFormWithZero := by
  intro b0 dst h
  rw [mixFirst, mixChain, xor32_zeros h]

/-- Settles O57: the stream is the bytes of the mode's sources, one a beat. -/
theorem mixerEmitsExactLengths : Obligations.MixerEmitsExactLengths := by
  intro c s tag
  rw [mixerStream_bytes]
  refine ⟨fun hm => ⟨?_, fun hl => mixerBytes_mode0 hm hl s⟩, fun hm => ⟨?_, mixerBytes_mode1 hm s⟩,
    fun hm => ⟨?_, mixerBytes_mode2 hm s⟩, fun hm => ?_, mixerOut_outEmpty⟩
  · rw [mixerStream_length, mixerSources_length, if_pos hm]
  · rw [mixerStream_length, mixerSources_length, hm]; rfl
  · rw [mixerStream_length, mixerSources_length, hm]; rfl
  · exact mixerStream_last (by rw [mixerStream_length]; exact mixerSources_length_pos hm)

end Sys2Proof.Proofs

/-! ### The datapath under any interleaving (10_state.md R53; 42_expand_message_xmd.md R190; 45_hash_to_field.md R237) -/

namespace Sys2Proof.Machine

/-- What the datapath promises reads neither STATUS nor IRQ_EN, and nothing that the port or the model holds. -/
theorem DatapathInv.flags {s : State} (h : DatapathInv s) (st : Status) (e : IrqEn) (level : Bool)
    (r : Option BusResponse) (es : List Event) (a : Agent) :
    DatapathInv { s with status := st, irqEn := e, rstN := level, response := r, input := es, turn := a } := h

/-- While IDLE the datapath promises nothing (R46). -/
theorem DatapathInv.of_idle {s : State} (hq : s.seq = .idle) : DatapathInv s := by
  simp only [DatapathInv, hq]

/-- While BUSY a write to a place other than CMD changes STATUS and IRQ_EN at most (R53). -/
theorem writePlace_busy (p : Place) (x : Transaction) {s : State} (hb : s.status.busy = true) :
    ∃ st e, writePlace p x s = { s with status := st, irqEn := e } := by
  cases p with
  | id | cmd | resultLen | msgbufSize | outBuf => exact ⟨s.status, s.irqEn, rfl⟩
  | status | irqEn => exact ⟨_, _, rfl⟩
  | dstLen | msgLen | outLen | count | dstBuf | msgBuf =>
    exact ⟨_, _, writePlace_dropped (by decide) (by decide) hb x⟩

/-- A write to a place other than CMD cannot reach what a held command reads (R53). -/
theorem DatapathInv.writePlace {s : State} (h : DatapathInv s) (hs : Inv s) (p : Place) (x : Transaction) :
    DatapathInv (writePlace p x s) := by
  by_cases hq : s.seq = .idle
  · obtain ⟨hseq, -⟩ := writePlace_frame p x s
    exact .of_idle (hseq.trans hq)
  · obtain ⟨st, e, heq⟩ := writePlace_busy p x (hs.control.busyIff.mpr hq)
    rw [heq]
    exact h.flags st e s.rstN s.response s.input s.turn

/-- A CMD write of a command is dropped, refused, or begins at EXP_B0, where nothing is promised yet (R104, R190). -/
theorem DatapathInv.acceptCommand {s : State} (h : DatapathInv s) (i : Instr) : DatapathInv (acceptCommand i s) := by
  rcases acceptCommand_cases i s with ⟨-, e⟩ | ⟨code, -, -, e⟩ | ⟨-, -, e⟩ <;> rw [e]
  · exact h.flags _ _ _ _ _ _
  · exact h.flags _ _ _ _ _ _
  · trivial

/-- A CMD write of a word that is no command changes STATUS alone (R103). -/
theorem DatapathInv.refuseWord {s : State} (h : DatapathInv s) : DatapathInv (refuseWord s) := by
  unfold Machine.refuseWord
  split <;> exact h.flags _ _ _ _ _ _

/-- In a sound state every step keeps the datapath equal to the reference functions. -/
theorem DatapathInv.step {s t : State} (h : DatapathInv s) (hs : Inv s) (hst : step s = .next t) : DatapathInv t := by
  cases step_cases hst with
  | engineIdle s' hn hi e => exact e ▸ .of_idle hi
  | engineRun s' hn hi e =>
    obtain ⟨⟨es, rfl⟩, -⟩ := engineNext_eq hn
    have hheld := (hs.port es .engine s.response).control.held hi
    exact e ▸ engineStep_datapath hheld hs.control.sizeLegal hi (h.flags _ _ _ _ _ _)
  | assertReset rest hin e => exact e ▸ .of_idle rfl
  | releaseReset rest hin e => exact e ▸ h.flags _ _ _ _ _ _
  | busError x s' hn _ _ e | busRead x s' p hn _ _ _ e =>
    obtain ⟨rest, -, rfl⟩ := hn
    exact e ▸ h.flags _ _ _ _ _ _
  | busWrite x s' p hn _ _ _ _ e =>
    have hs' := (hs.busNext hn).answerWrite
    obtain ⟨rest, -, rfl⟩ := hn
    exact e ▸ DatapathInv.writePlace (h.flags _ _ _ _ _ _) hs' p x
  | command x s' i hn _ _ _ _ e =>
    obtain ⟨rest, -, rfl⟩ := hn
    exact e ▸ DatapathInv.acceptCommand (h.flags _ _ _ _ _ _) i
  | illegalWord x s' err hn _ _ _ _ e =>
    obtain ⟨rest, -, rfl⟩ := hn
    exact e ▸ DatapathInv.refuseWord (h.flags _ _ _ _ _ _)

end Sys2Proof.Machine

namespace Sys2Proof.Proofs

open Sys2Proof.Machine

/-- Settles O46: the engine's turns follow the reference functions, and the host cannot reach what a held command
reads. -/
theorem everyStepKeepsTheDatapath : Obligations.EveryStepKeepsTheDatapath :=
  fun _ _ hinv hdata hst => hdata.step hinv hst

end Sys2Proof.Proofs

/-! ### The turns of the expand phase and the commit of EXPAND (42_expand_message_xmd.md R186 to R191) -/

namespace Sys2Proof.Machine

/-- EXPBUF after a digest is stored at `x`, byte by byte; `p` says that byte k is one of it (R190). -/
theorem expbufAt_digest {s t : State} {m : Memory} {x k : Nat} {d : List Byte} {p : Prop} [Decidable p]
    (hm : m = Memory.storeBytes s.expbuf x d) (hd : d.length = 32) (hp : x ≤ k ∧ k < x + 32 ↔ p)
    (he : t.epoch = s.epoch) (hx : t.expbuf = m) :
    t.expbufAt k = if p then d.getD (k - x) 0 else s.expbufAt k := by
  rw [State.expbufAt, he, hx, hm, readCell_storeBytes, hd]
  exact if_congr hp rfl rfl

/-- A byte of a run read from EXPBUF. -/
theorem expbufRead_getD (s : State) {n k : Nat} (hk : k < n) : (s.expbufRead 0 n).getD k 0 = s.expbufAt k := by
  simp [State.expbufRead, hk]

/-- An engine turn of the command held is one turn of the sequencer (R190). -/
theorem exec_sequencerTurn {s : State} (ht : s.turn = .engine) :
    exec s.snap.op s = .next (sequencerTurn (heldPipeline s) (afterExpand s) commitHeld s) := by
  rw [exec_engine ht, engineStep_eq]

/-- An accepted command is held from EXP_B0 on, and besides STATUS nothing that the host sees changes (R104). -/
theorem exec_accepted {s : State} {i : Instr} (ht : s.turn = .host) (hb : s.status.busy = false)
    (hc : checkOperands i s = none) :
    exec i s = .next { s with
      status := ⟨true, false, false, s.status.busywr, 0⟩
      snap := ⟨i, s.dstLen, s.msgLen, s.outLen, s.count⟩
      seq := .expB0 } := by
  rw [exec_host ht, acceptCommand_started hb hc]
  rfl

end Sys2Proof.Machine

namespace Sys2Proof.Proofs

open Sys2Proof.Machine

/-- Settles O8: operands in range pass the checks. -/
theorem expandIsAccepted : Obligations.ExpandIsAccepted := by
  intro s ht hb hd hm ho
  exact exec_accepted ht hb (checkOperands_eq_none.mpr ⟨hd, hm, ho⟩)

/-- Settles O36: the turn is that of `turnB0_spec`. -/
theorem turnB0HashesMsgPrime : Obligations.TurnB0HashesMsgPrime := by
  rintro s i ht hq rfl hd hm hl
  obtain ⟨r, hturn, hblocks⟩ := turnB0_spec ⟨hd, hm, hl⟩
  refine ⟨r, ?_, hblocks⟩
  rw [exec_sequencerTurn ht, sequencerTurn, hq]
  exact congrArg _ hturn

/-- Settles O37: the turn is that of `turnB1_spec`, which stores b1 at EXPBUF byte 0. -/
theorem turnB1HashesMixFirst : Obligations.TurnB1HashesMixFirst := by
  rintro s i ht hq rfl hd hm hl
  obtain ⟨r, m, hturn, hblocks, hstore⟩ := turnB1_spec ⟨hd, hm, hl⟩ (afterExpand s)
  refine ⟨r, m, ?_, fun k => ?_, hblocks⟩
  · rw [exec_sequencerTurn ht, sequencerTurn, hq]
    exact congrArg _ hturn
  · exact expbufAt_digest hstore (sha256_length _) (by omega) rfl rfl

/-- Settles O38: the turn is that of `turnBI_spec`, which stores b_j behind the j - 1 digests before it. -/
theorem turnBIHashesMixChain : Obligations.TurnBIHashesMixChain := by
  rintro s i j ht hq rfl hd hm hl h2 hj
  obtain ⟨r, m, hturn, hblocks, hstore⟩ := turnBI_spec ⟨hd, hm, hl⟩ (afterExpand s) hj
  refine ⟨r, m, ?_, fun k => ?_, hblocks⟩
  · rw [exec_sequencerTurn ht, sequencerTurn, hq]
    exact congrArg _ hturn
  · exact expbufAt_digest hstore (sha256_length _) (by omega) rfl rfl

/-- Settles O40: the commit writes the bytes read from EXPBUF to OUT_BUF. -/
theorem expandCommitPublishesExpbuf : Obligations.ExpandCommitPublishesExpbuf := by
  intro s ht hq hop
  refine ⟨Memory.storeBytes s.mem outBufBase (s.expbufRead 0 s.snap.outLen.toNat), ?_, fun a => ?_⟩
  · have hexec := exec_engine ht
    rw [engineStep_commit hq, commitHeld, hop] at hexec
    exact hexec
  · have hbyte := byteAt_memWrite s outBufBase (s.expbufRead 0 s.snap.outLen.toNat) a
    rw [expbufRead_length] at hbyte
    refine hbyte.trans (ite_congr rfl (fun ha => ?_) fun _ => rfl)
    exact expbufRead_getD s (Nat.sub_lt_left_of_lt_add ha.1 ha.2)

end Sys2Proof.Proofs

/-! ### A command from its acceptance to its commit (42_expand_message_xmd.md R185, R191, R192; 60_exceptions.md R259;
70_reset_and_hazards.md R296) -/

namespace Sys2Proof.Machine

/-- `t` is `s` after command `i` has run: the result is published, and no other byte, operand register, IRQ_EN, BUSYWR
or parameter has changed (R185, R194, R233). -/
structure Committed (i : Instr) (s t : State) : Prop where
  length : t.resultLen.toNat = (match i with | .expand => s.outLen.toNat | .hashToField => feBytes * s.count.toNat)
  result : t.memRead outBufBase t.resultLen.toNat = resultBytes i s.tag s.message s.outLen.toNat s.count.toNat
  idle : t.seq = .idle
  status : t.status = ⟨false, true, false, s.status.busywr, 0⟩
  bytes : ∀ a, ¬(outBufBase ≤ a ∧ a < outBufBase + t.resultLen.toNat) → t.byteAt a = s.byteAt a
  operands : t.irqEn = s.irqEn ∧ t.dstLen = s.dstLen ∧ t.msgLen = s.msgLen ∧ t.outLen = s.outLen ∧ t.count = s.count ∧
    t.msgbufSize = s.msgbufSize

/-- A commit leaves IRQ_EN, the operand registers and MSGBUF_SIZE alone (R191, R238). -/
theorem commitHeld_operands (s : State) :
    (commitHeld s).irqEn = s.irqEn ∧ (commitHeld s).dstLen = s.dstLen ∧ (commitHeld s).msgLen = s.msgLen ∧
      (commitHeld s).outLen = s.outLen ∧ (commitHeld s).count = s.count ∧
      (commitHeld s).msgbufSize = s.msgbufSize := by
  unfold commitHeld
  split <;> exact ⟨rfl, rfl, rfl, rfl, rfl, rfl⟩

/-- The commit of a command of which only the hidden registers have changed since acceptance. -/
theorem commitHeld_committed {i : Instr} {s u : State} (hu : u = withHidden (accepted i s) u) (hq : u.seq = .commit)
    (h : HeldInv u) (hd : DatapathInv u) : Committed i s (commitHeld u) := by
  obtain ⟨hresult, hlength, hbytes⟩ := commitHeld_published hq h hd
  have hstatus := commitHeld_status u
  have hoperands := commitHeld_operands u
  rw [hu] at hstatus hoperands
  refine ⟨hlength.trans ?_, hresult.trans ?_, commitHeld_seq u, ?_, fun a ha => (hbytes a ha).trans ?_, ?_⟩
  · rw [hu]; rfl
  · rw [hu]; rfl
  · rw [hu]; exact hstatus
  · rw [hu]; rfl
  · rw [hu]; exact hoperands

/-- A command written to CMD as the last event, with operands that pass the checks, commits the reference result
(R185, R233, R296). -/
theorem run_command_committed {s : State} {i : Instr} (hr : s.rstN = true) (hb : s.status.busy = false)
    (hin : s.input = [.bus (cmdWrite (encode i))]) (hs : legalMsgBufSize s.msgbufSize.toNat)
    (hc : checkOperands i s = none) :
    ∃ t, Host.Core.run Sys2Proof.core (1 + turnsToCommit i s.outLen.toNat s.count.toNat) s = .next t ∧
      Committed i s t := by
  obtain ⟨u, hrun, hu, hq, hur⟩ := run_command hr hb hin hs hc
  exact ⟨_, hrun, commitHeld_committed hu hq hur.held hur.datapath⟩

/-- A held command of a sound state has at most 427 turns left: b0, 255 digests, 170 elements and the commit
(R182, R232). -/
theorem turnsLeft_le {s : State} (h : HeldInv s) (hs : legalMsgBufSize s.msgbufSize.toNat) : turnsLeft s ≤ 427 := by
  have hell := (h.portBounds hs).ell_le
  have hcount : elementCount s ≤ 170 := by
    unfold elementCount
    cases hop : s.snap.op with
    | expand => exact Nat.zero_le _
    | hashToField => exact h.count_le hop
  have hr := h.inRange
  unfold seqInRange at hr
  unfold turnsLeft
  cases hq : s.seq with
  | idle => exact Nat.zero_le _
  | expB0 | expB1 | commit => simp only; omega
  | expBI j =>
    rw [hq] at hr
    obtain ⟨hj, -⟩ := hr
    simp only
    omega
  | map i =>
    rw [hq] at hr
    have hc := h.count_le hr.1
    simp only
    omega

/-- From a sound state with a command held and no event to come, the engine reaches the command's commit in the turns
that are left, through sound states alone (R296; log 10). -/
theorem run_to_commit {s : State} (h : Inv s) (hin : s.input = []) (hi : s.seq ≠ .idle) :
    ∃ u, Host.Core.run Sys2Proof.core (turnsLeft s) s = .next (commitHeld u) ∧ Inv u ∧ u.seq = .commit := by
  generalize hn : turnsLeft s = n
  induction n generalizing s with
  | zero => exact absurd hn (turnsLeft_pos hi).ne'
  | succ n ih =>
    have hstep := step_quiet hin hi
    have hs' : Inv { s with turn := .engine } := h.port s.input .engine s.response
    have hheld := hs'.control.held hi
    by_cases hq : s.seq = .commit
    · obtain rfl : n = 0 := by rw [turnsLeft_commit hq] at hn; omega
      rw [engineStep_commit (s := { s with turn := .engine }) hq] at hstep
      exact ⟨_, run_succ hstep 0, hs', hq⟩
    · have hleft : turnsLeft (engineStep { s with turn := .engine }) + 1 = turnsLeft s :=
        turnsLeft_engineStep hheld hs'.control.sizeLegal hi
      obtain ⟨hactive, -⟩ := (engineStep_held hheld hs'.control.sizeLegal hi).inRange hq
      have hquiet : (engineStep { s with turn := .engine }).input = [] := by
        rw [engineStep_hidden (s := { s with turn := .engine }) hq]; exact hin
      obtain ⟨u, hrun, hu⟩ := ih (hs'.engineStep hi) hquiet hactive (by omega)
      exact ⟨u, (run_succ hstep n).trans hrun, hu⟩

/-- The commit of a sound state ends the command with DONE and without error (R35, R191, R192, R259). -/
theorem commitHeld_done {s : State} (h : Inv s) (hq : s.seq = .commit) :
    (commitHeld s).seq = .idle ∧ (commitHeld s).status.done = true ∧ (commitHeld s).status.busy = false ∧
      (commitHeld s).status.err = false := by
  have hbusy : s.status.busy = true := h.control.busyIff.mpr (by simp [hq])
  rw [commitHeld_status]
  exact ⟨commitHeld_seq s, rfl, rfl, (h.status.busyClear hbusy).2⟩

/-! #### The bytes of the expansion (42_expand_message_xmd.md R181, R189) -/

/-- Byte k of `b_1 || … || b_n` stands in digest k div 32 + 1, at place k mod 32 (R189). -/
theorem uniformBytes_getElem? (b0 dst : List Byte) {n k : Nat} (hk : k < 32 * n) :
    (uniformBytes b0 dst n)[k]? = (chainDigest b0 dst (k / 32 + 1))[k % 32]? := by
  induction n with
  | zero => omega
  | succ n ih =>
    have hl := uniformBytes_length b0 dst n
    rw [uniformBytes]
    by_cases hlt : k < 32 * n
    · rw [List.getElem?_append_left (by omega), ih hlt]
    · have hdiv : k / 32 = n := by omega
      have hmod : k - 32 * n = k % 32 := by omega
      rw [List.getElem?_append_right (by omega), hl, hdiv, hmod]

/-- As many digests are made as the expansion length asks for (R183). -/
theorem le_ell (outLen : Nat) : outLen ≤ 32 * ell outLen := by unfold ell ceilDiv hashLen; omega

theorem expandXMD_length (dst msg : List Byte) (outLen : Nat) : (expandXMD dst msg outLen).length = outLen := by
  rw [expandXMD_eq_take dst msg le_rfl, List.length_take, uniformBytes_length, Nat.min_eq_left (le_ell outLen)]

theorem expandXMD_getElem? (dst msg : List Byte) {outLen k : Nat} (hk : k < outLen) :
    (expandXMD dst msg outLen)[k]? = (chainDigest (digestZero dst msg outLen) dst (k / 32 + 1))[k % 32]? := by
  rw [expandXMD_eq_take dst msg le_rfl, List.getElem?_take_of_lt hk,
    uniformBytes_getElem? _ _ (hk.trans_le (le_ell outLen))]

end Sys2Proof.Machine

namespace Sys2Proof.Proofs

open Sys2Proof.Machine

/-- Settles O43: operands in range pass the checks, and the run of the command commits the reference result. -/
theorem expandComputesExpandXMD : Obligations.ExpandComputesExpandXMD := by
  intro s hr hb hin hs hd hm ho
  have hc : checkOperands .expand s = none := checkOperands_eq_none.mpr ⟨hd, hm, ho⟩
  obtain ⟨t, hrun, hlength, hresult, hidle, hstatus, hbytes, hoperands⟩ :=
    run_command_committed (i := .expand) hr hb hin hs hc
  rw [hlength] at hresult hbytes
  exact ⟨t, hrun, hresult, BitVec.eq_of_toNat_eq hlength, hidle, hstatus, hbytes, hoperands⟩

/-- Settles O49: the turns that are left lead to the commit, and a sound state's commit carries no error. -/
theorem heldCommandsCommit : Obligations.HeldCommandsCommit := by
  intro s hinv hi hin
  obtain ⟨u, hrun, hu, hq⟩ := run_to_commit hinv hin hi
  have hle := turnsLeft_le (hinv.control.held hi) hinv.control.sizeLegal
  exact ⟨turnsLeft s, commitHeld u, hle, hrun, commitHeld_done hu hq⟩

/-- Settles O58, from the place of each byte in `b_1 || … || b_ell`. -/
theorem expandedBytesComeFromTheChain : Obligations.ExpandedBytesComeFromTheChain := fun dst msg len =>
  ⟨expandXMD_length dst msg len, fun _ hk => expandXMD_getElem? dst msg hk⟩

end Sys2Proof.Proofs

namespace Sys2Proof.Machine

/-! #### A chunk of the expansion in two digests (43_byte_slice_and_interpret.md R200, R204) -/

/-- Adjacent slices join (R11). -/
theorem slice_append_slice (u : List Byte) {a b c : Nat} (hab : a ≤ b) (hbc : b ≤ c) :
    slice u a b ++ slice u b c = slice u a c := by
  have hdrop : u.drop b = (u.drop a).drop (b - a) := by rw [List.drop_drop, Nat.add_sub_cancel' hab]
  have hlen : c - a = (b - a) + (c - b) := by omega
  rw [slice, slice, slice, hdrop, hlen, List.take_add]

/-- Bytes of the expansion that lie within one digest are that digest's own (R189). -/
theorem slice_expandXMD (dst msg : List Byte) {len r n : Nat} (j : Nat) (hr : r + n ≤ 32) (h : 32 * j + r + n ≤ len) :
    slice (expandXMD dst msg len) (32 * j + r) (32 * j + r + n) =
      ((chainDigest (digestZero dst msg len) dst (j + 1)).drop r).take n := by
  rw [slice, Nat.add_sub_cancel_left]
  refine List.ext_getElem? fun k => ?_
  rw [List.getElem?_take, List.getElem?_take]
  split
  · have hdiv : (32 * j + r + k) / 32 = j := by omega
    have hmod : (32 * j + r + k) % 32 = r + k := by omega
    rw [List.getElem?_drop, List.getElem?_drop, expandXMD_getElem? dst msg (by omega), hdiv, hmod]
  · rfl

/-- A whole digest of the expansion (R189). -/
theorem slice_expandXMD_whole (dst msg : List Byte) {len : Nat} (j : Nat) (h : 32 * j + 32 ≤ len) :
    slice (expandXMD dst msg len) (32 * j) (32 * j + 32) = chainDigest (digestZero dst msg len) dst (j + 1) := by
  have hbytes := slice_expandXMD dst msg (r := 0) (n := 32) j (by decide) h
  rwa [List.drop_zero, List.take_of_length_le (chainDigest_length _ _ _).le] at hbytes

/-- From the start of a digest, a chunk is that digest and 16 bytes of the next (R204). -/
theorem slice_expandXMD_even (dst msg : List Byte) {len : Nat} (j : Nat) (h : 32 * j + 48 ≤ len) :
    slice (expandXMD dst msg len) (32 * j) (32 * j + 48) =
      chainDigest (digestZero dst msg len) dst (j + 1) ++
        (chainDigest (digestZero dst msg len) dst (j + 2)).take 16 := by
  have hpart := slice_expandXMD dst msg (len := len) (r := 0) (n := 16) (j + 1) (by decide) (by omega)
  rw [← slice_append_slice _ (b := 32 * j + 32) (by omega) (by omega), slice_expandXMD_whole dst msg j (by omega)]
  exact congrArg _ hpart

/-- From the middle of a digest, a chunk is that digest's last 16 bytes and the whole next one (R204). -/
theorem slice_expandXMD_odd (dst msg : List Byte) {len : Nat} (j : Nat) (h : 32 * j + 64 ≤ len) :
    slice (expandXMD dst msg len) (32 * j + 16) (32 * j + 64) =
      (chainDigest (digestZero dst msg len) dst (j + 1)).drop 16 ++
        chainDigest (digestZero dst msg len) dst (j + 2) := by
  have hpart := slice_expandXMD dst msg (len := len) (r := 16) (n := 16) j (by decide) (by omega)
  rw [List.take_of_length_le (by rw [List.length_drop, chainDigest_length])] at hpart
  have hwhole := slice_expandXMD_whole dst msg (len := len) (j + 1) (by omega)
  rw [← slice_append_slice _ (b := 32 * j + 32) (by omega) (by omega)]
  exact congrArg₂ _ hpart hwhole

end Sys2Proof.Machine

namespace Sys2Proof.Proofs

open Sys2Proof.Machine

/-- Settles O59: chunk 2m starts with digest b_{3m+1}, chunk 2m + 1 in the middle of b_{3m+2}. -/
theorem chunksSpanTwoDigests : Obligations.ChunksSpanTwoDigests := by
  intro dst msg count i hi b q
  rw [chunk, elemSize]
  rcases Nat.mod_two_eq_zero_or_one i with hmod | hmod
  · have hstart : 48 * i = 32 * (48 * i / 32) := by omega
    rw [if_pos hmod]
    have := slice_expandXMD_even dst msg (len := 48 * count) (48 * i / 32) (by omega)
    rwa [← hstart] at this
  · have hstart : 48 * i = 32 * (48 * i / 32) + 16 := by omega
    rw [if_neg (by omega)]
    have := slice_expandXMD_odd dst msg (len := 48 * count) (48 * i / 32) (by omega)
    rwa [show 32 * (48 * i / 32) + 64 = 48 * i + 48 by omega, ← hstart] at this

end Sys2Proof.Proofs

/-! ### The reduction unit (44_modular_reduction.md) -/

namespace Sys2Proof.Machine

theorem fieldOrder_pos : 0 < fieldOrder := by decide

/-- With R213, p has 254 bits: the `k` of R214. -/
theorem two_pow_253_le_fieldOrder : 2 ^ 253 ≤ fieldOrder := by decide

/-- The literal of `barrettMu` is the `mu` of R214: `2 ^ (2k)` is written as the product of the two shift factors. -/
theorem barrettMu_eq : barrettMu = 2 ^ 253 * 2 ^ 255 / fieldOrder := by decide

/-- The word that leaves the reduction unit holds `X mod p` whole (R213). -/
theorem toNat_ofNat_reduceNat (x : Nat) : (BitVec.ofNat 256 (reduceNat x)).toNat = reduceNat x := by
  have hwidth : fieldOrder < 2 ^ 256 := fieldOrder_lt.trans (Nat.pow_lt_pow_right (by decide) (by decide))
  rw [BitVec.toNat_ofNat, Nat.mod_eq_of_lt ((reduceNat_lt x).trans hwidth)]

/-! #### The Barrett form (R214)

`barrettQuotient x` is short of `x / p` by at most 2 for every `x` below `2 ^ 508`, so that after the subtraction
less than `3 * p` is left for the two corrections. -/

theorem barrettQuotient_eq (x : Nat) : barrettQuotient x = x / 2 ^ 253 * barrettMu / 2 ^ 255 := by
  simp only [barrettQuotient, Nat.shiftRight_eq_div_pow]

/-- q3 is at most the true quotient (R214). -/
theorem barrettQuotient_mul_le (x : Nat) : barrettQuotient x * fieldOrder ≤ x := by
  have hq : barrettQuotient x * 2 ^ 255 ≤ x / 2 ^ 253 * barrettMu :=
    barrettQuotient_eq x ▸ Nat.div_mul_le_self _ _
  have hmu : barrettMu * fieldOrder ≤ 2 ^ 253 * 2 ^ 255 := barrettMu_eq ▸ Nat.div_mul_le_self _ _
  refine Nat.le_of_mul_le_mul_right (c := 2 ^ 253 * 2 ^ 255) ?_ (by decide)
  calc barrettQuotient x * fieldOrder * (2 ^ 253 * 2 ^ 255)
      = barrettQuotient x * 2 ^ 255 * fieldOrder * 2 ^ 253 := by ring
    _ ≤ x / 2 ^ 253 * barrettMu * fieldOrder * 2 ^ 253 := by gcongr
    _ = x / 2 ^ 253 * 2 ^ 253 * (barrettMu * fieldOrder) := by ring
    _ ≤ x * (2 ^ 253 * 2 ^ 255) := Nat.mul_le_mul (Nat.div_mul_le_self _ _) hmu

/-- Rounding `mu` down and rounding the product down each cost q3 at most 1 (R214). -/
theorem high_part_le_barrettQuotient {x : Nat} (hx : x < 2 ^ 253 * 2 ^ 255) :
    x / 2 ^ 253 * 2 ^ 253 ≤ (barrettQuotient x + 2) * fieldOrder := by
  have hhigh : x / 2 ^ 253 ≤ 2 ^ 255 := by omega
  have hq : x / 2 ^ 253 * barrettMu ≤ (barrettQuotient x + 1) * 2 ^ 255 :=
    barrettQuotient_eq x ▸ (Nat.lt_mul_of_div_lt (Nat.lt_succ_self _) (by decide)).le
  have hmu : 2 ^ 253 * 2 ^ 255 ≤ (barrettMu + 1) * fieldOrder :=
    barrettMu_eq ▸ (Nat.lt_mul_of_div_lt (Nat.lt_succ_self _) fieldOrder_pos).le
  refine Nat.le_of_mul_le_mul_right (c := 2 ^ 255) ?_ (by decide)
  calc x / 2 ^ 253 * 2 ^ 253 * 2 ^ 255
      = x / 2 ^ 253 * (2 ^ 253 * 2 ^ 255) := by ring
    _ ≤ x / 2 ^ 253 * ((barrettMu + 1) * fieldOrder) := by gcongr
    _ = (x / 2 ^ 253 * barrettMu + x / 2 ^ 253) * fieldOrder := by ring
    _ ≤ ((barrettQuotient x + 1) * 2 ^ 255 + 2 ^ 255) * fieldOrder := by gcongr
    _ = (barrettQuotient x + 2) * fieldOrder * 2 ^ 255 := by ring

/-- Dropping the low 253 bits of X costs q3 the third and last multiple of p (R214). -/
theorem lt_barrettQuotient_add_three_mul {x : Nat} (hx : x < 2 ^ 253 * 2 ^ 255) :
    x < (barrettQuotient x + 3) * fieldOrder := by
  calc x < x / 2 ^ 253 * 2 ^ 253 + 2 ^ 253 := Nat.lt_div_mul_add (by decide)
    _ ≤ (barrettQuotient x + 2) * fieldOrder + fieldOrder :=
        Nat.add_le_add (high_part_le_barrettQuotient hx) two_pow_253_le_fieldOrder
    _ = (barrettQuotient x + 3) * fieldOrder := by ring

/-- `n` corrections reduce every value below `(n + 1) * p` (R214). -/
theorem barrettCorrect_eq_mod {n r : Nat} (hr : r < (n + 1) * fieldOrder) :
    barrettCorrect n r = r % fieldOrder := by
  induction n generalizing r with
  | zero => exact (Nat.mod_eq_of_lt (by rwa [Nat.zero_add, Nat.one_mul] at hr)).symm
  | succ n ih =>
    rw [barrettCorrect]
    split
    case isTrue hle =>
      have hrest : r - fieldOrder < (n + 1) * fieldOrder := Nat.sub_lt_right_of_lt_add hle (by rwa [← Nat.succ_mul])
      rw [ih hrest, ← Nat.mod_eq_sub_mod hle]
    case isFalse hlt => exact (Nat.mod_eq_of_lt (Nat.lt_of_not_le hlt)).symm

/-- The Barrett form is exact on the whole range of R214, `X < 2 ^ (2k)`. -/
theorem barrettReduce_eq {x : Nat} (hx : x < 2 ^ 253 * 2 ^ 255) : barrettReduce x = reduceNat x := by
  have hrest : x - barrettQuotient x * fieldOrder < 3 * fieldOrder :=
    Nat.sub_lt_left_of_lt_add (barrettQuotient_mul_le x)
      (Nat.add_mul _ 3 fieldOrder ▸ lt_barrettQuotient_add_three_mul hx)
  rw [barrettReduce, barrettCorrect_eq_mod (n := 2) hrest, reduceNat, Nat.mul_comm,
    Nat.sub_mul_mod (Nat.mul_comm _ _ ▸ barrettQuotient_mul_le x)]

end Sys2Proof.Machine

namespace Sys2Proof.Proofs

open Sys2Proof.Machine

/-- Settles O52: a 384-bit X is below `2 ^ 508`, where two corrections suffice. -/
theorem barrettFormIsExact : Obligations.BarrettFormIsExact := by
  intro x hx
  have hrange : 2 ^ 384 ≤ 2 ^ 253 * 2 ^ 255 := by decide
  exact barrettReduce_eq (hx.trans_le hrange)

/-- Settles O53: the word holds `X mod p`, which is below p and so has no bit at 254 or above. -/
theorem reducedElementsStayBelowTheModulus : Obligations.ReducedElementsStayBelowTheModulus := by
  intro x
  have hval := toNat_ofNat_reduceNat x.toNat
  have hlt : (BitVec.ofNat 256 (reduceNat x.toNat)).toNat < fieldOrder := hval.trans_lt (reduceNat_lt _)
  have hbit {i : Nat} (hi : 254 ≤ i) : (BitVec.ofNat 256 (reduceNat x.toNat)).getLsbD i = false :=
    Nat.testBit_lt_two_pow ((hlt.trans fieldOrder_lt).trans_le (Nat.pow_le_pow_right (by decide) hi))
  exact ⟨_, rfl, hval, hlt, fieldOrder_lt, hbit (by decide), hbit (by decide)⟩

/-- Settles O54: the quotient grows with X, and the bound is its value at `2 ^ 384 - 1`. -/
theorem quotientFits131Bits : Obligations.QuotientFits131Bits := by
  intro x hx
  have hmax : (2 ^ 384 - 1) / fieldOrder = 1800144782160100251025577826785925726522 := by decide
  exact ⟨hmax ▸ Nat.div_le_div_right (Nat.le_pred_of_lt hx), by decide⟩

end Sys2Proof.Proofs

/-! ### HASH_TO_FIELD: its elements, its turns and its commit (45_hash_to_field.md R231 to R239) -/

namespace Sys2Proof.Machine

/-- A byte of a run read from RESBUF. -/
theorem resbufRead_getD (s : State) {n k : Nat} (hk : k < n) : (s.resbufRead 0 n).getD k 0 = s.resbufAt k := by
  simp [State.resbufRead, hk]

/-- HashToField makes one element per chunk (R231, R239). -/
theorem hashToField_length (dst msg : List Byte) (count : Nat) : (hashToField dst msg count).length = count := by
  simp [hashToField]

/-- Element i is chunk i of the expansion, reduced (R201, R212, R231). -/
theorem hashToField_getElem (dst msg : List Byte) {count i : Nat} (hi : i < (hashToField dst msg count).length) :
    (hashToField dst msg count)[i] = reduceNat (os2ip (chunk (expandXMD dst msg (elemSize * count)) i)) := by
  simp [hashToField, sliceInterpret]

/-- Every element is a residue modulo p (R239). -/
theorem hashToField_lt {dst msg : List Byte} {count e : Nat} (he : e ∈ hashToField dst msg count) : e < fieldOrder := by
  obtain ⟨i, -, rfl⟩ := List.mem_map.mp he
  exact reduceNat_lt _

theorem encodeElements_cons (e : Nat) (es : List Nat) :
    encodeElements (e :: es) = i2osp e feBytes ++ encodeElements es := List.flatMap_cons

theorem encodeElements_length (es : List Nat) : (encodeElements es).length = feBytes * es.length := by
  induction es with
  | nil => rfl
  | cons e es ih =>
    rw [encodeElements_cons, List.length_append, i2osp_length, ih, List.length_cons, Nat.mul_succ, Nat.add_comm]

/-- Element i is encoded at byte 32i (R236). -/
theorem slice_encodeElements (es : List Nat) {i : Nat} (hi : i < es.length) :
    slice (encodeElements es) (feBytes * i) (feBytes * i + feBytes) = i2osp es[i] feBytes := by
  rw [slice, Nat.add_sub_cancel_left]
  induction es generalizing i with
  | nil => exact absurd hi (Nat.not_lt_zero i)
  | cons e es ih =>
    rw [encodeElements_cons]
    cases i with
    | zero => exact List.take_left' (i2osp_length e feBytes)
    | succ i =>
      have hskip : feBytes * (i + 1) = (i2osp e feBytes).length + feBytes * i := by
        rw [i2osp_length, Nat.mul_succ, Nat.add_comm]
      rw [hskip, List.drop_length_add_append, ih (Nat.lt_of_succ_lt_succ hi), List.getElem_cons_succ]

/-- A residue modulo p survives its encoding in 32 bytes (R213, R236). -/
theorem os2ip_i2osp_of_lt_fieldOrder {e : Nat} (he : e < fieldOrder) : os2ip (i2osp e feBytes) = e := by
  have hwidth : fieldOrder < 256 ^ feBytes := by decide
  rw [os2ip_i2osp_mod, Nat.mod_eq_of_lt (he.trans hwidth)]

end Sys2Proof.Machine

namespace Sys2Proof.Proofs

open Sys2Proof.Machine

/-- Settles O9: operands in range pass the checks. -/
theorem hashToFieldIsAccepted : Obligations.HashToFieldIsAccepted := by
  intro s ht hb hd hm hc
  exact exec_accepted ht hb (checkOperands_eq_none.mpr ⟨hd, hm, hc⟩)

/-- Settles O39: the turn is that of `turnMap_spec`, which stores element k at RESBUF byte 32k. -/
theorem turnMapReducesOneSlice : Obligations.TurnMapReducesOneSlice := by
  intro s k ht hq hop hk
  obtain ⟨m, hturn, hstore⟩ := turnMap_spec (Nat.le_of_lt_succ hk) s
  refine ⟨m, ?_, fun a => ?_⟩
  · have hexec := exec_sequencerTurn ht
    rw [hop, sequencerTurn, hq] at hexec
    exact hexec.trans (congrArg _ hturn)
  · have hbyte := readCell_storeBytes .resbuf s.epoch s.resbuf (feBytes * k)
      (i2osp (reduceNat (os2ip (s.expbufRead (elemSize * k) elemSize))) 32) a
    rw [i2osp_length, ← hstore] at hbyte
    exact hbyte

/-- Settles O41: the commit writes the bytes read from RESBUF to OUT_BUF. -/
theorem hashToFieldCommitPublishesResbuf : Obligations.HashToFieldCommitPublishesResbuf := by
  intro s ht hq hop
  refine ⟨Memory.storeBytes s.mem outBufBase (s.resbufRead 0 (feBytes * s.snap.count.toNat)), ?_, fun a => ?_⟩
  · have hexec := exec_engine ht
    rw [engineStep_commit hq, commitHeld, hop] at hexec
    exact hexec
  · have hbyte := byteAt_memWrite s outBufBase (s.resbufRead 0 (feBytes * s.snap.count.toNat)) a
    rw [resbufRead_length] at hbyte
    refine hbyte.trans (ite_congr rfl (fun ha => ?_) fun _ => rfl)
    exact resbufRead_getD s (Nat.sub_lt_left_of_lt_add ha.1 ha.2)

/-- Settles O44: operands in range pass the checks, and the run of the command commits the reference result. -/
theorem hashToFieldComputesTheElements : Obligations.HashToFieldComputesTheElements := by
  intro s hr hb hin hs hd hm hc
  have haccept : checkOperands .hashToField s = none := checkOperands_eq_none.mpr ⟨hd, hm, hc⟩
  obtain ⟨t, hrun, hlength, hresult, hidle, hstatus, hbytes, hoperands⟩ :=
    run_command_committed (i := .hashToField) hr hb hin hs haccept
  rw [hlength] at hresult hbytes
  exact ⟨t, hrun, hresult, hlength, hidle, hstatus, hbytes, hoperands⟩

/-- Settles O60: the encoding of element i stands at byte 32i and gives the element back, since it is below p. -/
theorem elementsAreInRangeAndInOrder : Obligations.ElementsAreInRangeAndInOrder := by
  intro dst msg count
  have hlength := hashToField_length dst msg count
  refine ⟨hlength, fun e => hashToField_lt, ?_, fun i hi => ?_⟩
  · rw [encodeElements_length, hlength]
    rfl
  · have hmem : i < (hashToField dst msg count).length := hlength.symm ▸ hi
    calc os2ip (slice (encodeElements (hashToField dst msg count)) (feBytes * i) (feBytes * i + feBytes))
        = os2ip (i2osp (hashToField dst msg count)[i] feBytes) := by rw [slice_encodeElements _ hmem]
      _ = (hashToField dst msg count)[i] := os2ip_i2osp_of_lt_fieldOrder (hashToField_lt (List.getElem_mem hmem))
      _ = os2ip (chunk (expandXMD dst msg (48 * count)) i) % fieldOrder := hashToField_getElem dst msg hmem

end Sys2Proof.Proofs

/-! ### CheckCommand, and the outcome of a CMD write (30_encoding.md R101, R104; 60_exceptions.md R250 to R258) -/

namespace Sys2Proof.Machine

/-- The numbers of two error codes differ (R251). -/
theorem ErrCode.number_injective : Function.Injective ErrCode.number := by
  intro a b h
  cases a <;> cases b <;> simp_all [ErrCode.number]

/-- No error code has the number that ERRCODE holds while ERR = 0 (R36, R251). -/
theorem ErrCode.number_ne_zero (code : ErrCode) : code.number ≠ 0 := by cases code <;> decide

/-- Every outcome of the checks on the operands, in their order (R254). -/
theorem checkOperands_cases (i : Instr) (s : State) :
    (32 < s.dstLen.toNat ∧ checkOperands i s = some .invalidDomainSize) ∨
    (s.dstLen.toNat ≤ 32 ∧ s.msgbufSize.toNat < s.msgLen.toNat ∧ checkOperands i s = some .msgLenRange) ∨
    (s.dstLen.toNat ≤ 32 ∧ s.msgLen.toNat ≤ s.msgbufSize.toNat ∧ ¬lengthInRange i s ∧
      checkOperands i s = some .outLenRange) ∨
    (s.dstLen.toNat ≤ 32 ∧ s.msgLen.toNat ≤ s.msgbufSize.toNat ∧ lengthInRange i s ∧ checkOperands i s = none) := by
  by_cases hd : 32 < s.dstLen.toNat
  · exact .inl ⟨hd, if_pos hd⟩
  · have hd' : s.dstLen.toNat ≤ 32 := not_lt.mp hd
    by_cases hm : s.msgbufSize.toNat < s.msgLen.toNat
    · exact .inr (.inl ⟨hd', hm, (if_neg hd).trans (if_pos hm)⟩)
    · have hm' : s.msgLen.toNat ≤ s.msgbufSize.toNat := not_lt.mp hm
      by_cases hl : lengthInRange i s
      · exact .inr (.inr (.inr ⟨hd', hm', hl, checkOperands_eq_none.mpr ⟨hd', hm', hl⟩⟩))
      · refine .inr (.inr (.inl ⟨hd', hm', hl, (if_neg hd).trans ((if_neg hm).trans ?_)⟩))
        cases i <;> exact if_pos (not_le.mp hl)

/-- Code 1 is that of a tag too long (R250). -/
theorem checkOperands_eq_invalidDomainSize {i : Instr} {s : State} :
    checkOperands i s = some .invalidDomainSize ↔ 32 < s.dstLen.toNat := by
  rcases checkOperands_cases i s with ⟨hd, e⟩ | ⟨hd, -, e⟩ | ⟨hd, -, -, e⟩ | ⟨hd, -, -, e⟩
  · exact iff_of_true e hd
  all_goals exact iff_of_false (by simp [e]) hd.not_gt

/-- Code 3 is that of a message too long, behind a tag in range (R252, R254). -/
theorem checkOperands_eq_msgLenRange {i : Instr} {s : State} :
    checkOperands i s = some .msgLenRange ↔ s.dstLen.toNat ≤ 32 ∧ s.msgbufSize.toNat < s.msgLen.toNat := by
  rcases checkOperands_cases i s with ⟨hd, e⟩ | ⟨hd, hm, e⟩ | ⟨-, hm, -, e⟩ | ⟨-, hm, -, e⟩
  · exact iff_of_false (by simp [e]) fun h => hd.not_ge h.1
  · exact iff_of_true e ⟨hd, hm⟩
  all_goals exact iff_of_false (by simp [e]) fun h => hm.not_gt h.2

/-- A result too long, behind a tag and a message in range, has code 2 (R253, R254). -/
theorem checkOperands_outLenRange {i : Instr} {s : State} (hd : s.dstLen.toNat ≤ 32)
    (hm : s.msgLen.toNat ≤ s.msgbufSize.toNat) (hl : ¬lengthInRange i s) :
    checkOperands i s = some .outLenRange := by
  rcases checkOperands_cases i s with ⟨hd', -⟩ | ⟨-, hm', -⟩ | ⟨-, -, -, e⟩ | ⟨-, -, hl', -⟩
  · exact absurd hd hd'.not_ge
  · exact absurd hm hm'.not_ge
  · exact e
  · exact absurd hl' hl

/-- The word of a command is checked on its operands alone (R254). -/
theorem checkCommand_encode (i : Instr) (s : State) : checkCommand (encode i) s = checkOperands i s := by
  rw [checkCommand, decodeWord_encode]

/-- A word that is no command has code 4, whatever the operands hold (R103, R254). -/
theorem checkCommand_error {v : Word} {e : DecodeError} (hd : decodeWord v = .error e) (s : State) :
    checkCommand v s = some .illegalCommand := by
  rw [checkCommand, hd]

/-- The words that are no command, by their two fields as numbers (R100, R101, R103). -/
theorem decodeWord_error_iff_toNat {v : Word} :
    (∃ e, decodeWord v = .error e) ↔ v.toNat / 256 ≠ 0 ∨ (v.toNat % 256 ≠ 1 ∧ v.toNat % 256 ≠ 2) := by
  rw [decodeWord_toNat]
  split_ifs with hrsv hexpand hhash <;> simp [*]

/-- A command written with BUSY = 0 is refused with the first failing check's code, or accepted; ERRCODE is the number
of a code only if that check failed (R104, R254, R255). -/
theorem step_command_outcome {s : State} {i : Instr} {rest : List Event} (hr : s.rstN = true)
    (hb : s.status.busy = false) (hin : s.input = .bus (cmdWrite (encode i)) :: rest) :
    ∃ t, step s = .next t ∧
      (∀ code, checkOperands i s = some code → t.status = ⟨false, false, true, s.status.busywr, code.number⟩) ∧
      (checkOperands i s = none → t.status = ⟨true, false, false, s.status.busywr, 0⟩) ∧
      (∀ code, t.status.errcode = code.number → checkOperands i s = some code) := by
  have hcheck := checkCommand_encode i s
  cases hc : checkOperands i s with
  | some code =>
    have hstatus := refuse_status (s := writeBegun s rest) hb code
    refine ⟨_, step_cmd_refused hr hin hb (hcheck.trans hc), ?_, nofun, fun code' h => ?_⟩
    · rintro _ ⟨⟩
      exact hstatus
    · exact congrArg some (ErrCode.number_injective h)
  | none =>
    obtain ⟨i', -, e⟩ := step_cmd_accepted hr hin hb (hcheck.trans hc)
    exact ⟨_, e, nofun, fun _ => rfl, fun code h => absurd h.symm code.number_ne_zero⟩

end Sys2Proof.Machine

namespace Sys2Proof.Proofs

open Sys2Proof.Machine

/-- Settles O10: a word that is no command, then each command with the outcomes of `checkOperands_cases`. -/
theorem checksRunInOrder : Obligations.ChecksRunInOrder := by
  intro v s
  cases hd : decodeWord v with
  | error e =>
    rw [checkCommand_error hd, if_pos (decodeWord_error_iff_toNat.mp ⟨e, hd⟩)]
    rfl
  | ok i =>
    obtain rfl := decodeWord_eq_ok.mp hd
    have hcommand := (decodeWord_error_iff_toNat (v := encode i)).not.mp (by simp)
    rw [checkCommand_encode, if_neg hcommand]
    rcases checkOperands_cases i s with ⟨htag, e⟩ | ⟨htag, hmsg, e⟩ | ⟨htag, hmsg, hlen, e⟩ | ⟨htag, hmsg, hlen, e⟩
    · rw [e, if_pos htag]
      rfl
    · rw [e, if_neg htag.not_gt, if_pos hmsg]
      rfl
    · rw [e, if_neg htag.not_gt, if_neg hmsg.not_gt]
      cases i with
      | expand => exact (if_pos ⟨rfl, not_le.mp hlen⟩).symm
      | hashToField => exact ((if_neg fun h => absurd h.1 (by decide)).trans (if_pos ⟨rfl, not_le.mp hlen⟩)).symm
    · rw [e, if_neg htag.not_gt, if_neg hmsg.not_gt]
      cases i with
      | expand => exact ((if_neg fun h => hlen.not_gt h.2).trans (if_neg fun h => absurd h.1 (by decide))).symm
      | hashToField => exact ((if_neg fun h => absurd h.1 (by decide)).trans (if_neg fun h => hlen.not_gt h.2)).symm

/-- Settles O12: code 1 is raised exactly for a tag of more than 32 bytes. -/
theorem domainSizeBoundaryIsThirtyTwo : Obligations.DomainSizeBoundaryIsThirtyTwo := by
  intro s i rest hr hb hin
  obtain ⟨t, e, hrefused, -, hcode⟩ := step_command_outcome hr hb hin
  refine ⟨t, e, fun hlong => ?_, fun hfits h1 => ?_⟩
  · exact hrefused _ (checkOperands_eq_invalidDomainSize.mpr hlong)
  · exact absurd (checkOperands_eq_invalidDomainSize.mp (hcode .invalidDomainSize h1)) (not_lt.mpr hfits)

/-- Settles O13: behind a tag in range, code 3 is raised exactly for a message that does not fit. -/
theorem messageLengthBoundaryIsTheBuffer : Obligations.MessageLengthBoundaryIsTheBuffer := by
  intro s i rest hr hb hin hd
  obtain ⟨t, e, hrefused, -, hcode⟩ := step_command_outcome hr hb hin
  refine ⟨t, e, fun hlong => ?_, fun hfits h3 => ?_⟩
  · exact hrefused _ (checkOperands_eq_msgLenRange.mpr ⟨hd, hlong⟩)
  · obtain ⟨-, hlong⟩ := checkOperands_eq_msgLenRange.mp (hcode .msgLenRange h3)
    exact absurd hlong (not_lt.mpr hfits)

/-- Settles O14: behind a tag and a message in range, only the command's own length operand decides. -/
theorem outputLengthBoundaryIsPerCommand : Obligations.OutputLengthBoundaryIsPerCommand := by
  intro s i rest hr hb hin hd hm
  obtain ⟨t, e, hrefused, haccepted, -⟩ := step_command_outcome hr hb hin
  have refused (hl : ¬lengthInRange i s) : t.status = ⟨false, false, true, s.status.busywr, 2⟩ :=
    hrefused _ (checkOperands_outLenRange hd hm hl)
  have started (hl : lengthInRange i s) : t.status.busy = true ∧ t.status.err = false := by
    rw [haccepted (checkOperands_eq_none.mpr ⟨hd, hm, hl⟩)]
    exact ⟨rfl, rfl⟩
  refine ⟨t, e, ?_, ?_⟩ <;> rintro rfl
  · exact ⟨fun hlong => refused (not_le.mpr hlong), started⟩
  · exact ⟨fun hlong => refused (not_le.mpr hlong), started⟩

/-- Settles O15: a refusal leaves BUSY at 0 and every register that CheckCommand reads, so the check fails again. -/
theorem sameCommandIsRefusedAgain : Obligations.SameCommandIsRefusedAgain := by
  intro s v code hr hb hin hc
  have hfirst := step_cmd_refused hr hin hb hc
  generalize ht : raiseError code (clearOutcome (writeBegun s [.bus (cmdWrite v)])) = t at hfirst
  have hstatus : t.status = ⟨false, false, true, s.status.busywr, code.number⟩ :=
    ht ▸ refuse_status (s := writeBegun s _) hb code
  have hbusy : t.status.busy = false := congrArg Status.busy hstatus
  have hagain : checkCommand v t = some code := ht ▸ hc
  have hsecond := step_cmd_refused (rest := []) (ht ▸ hr : t.rstN = true) (ht ▸ rfl) hbusy hagain
  refine ⟨t, _, hfirst, hsecond, hstatus, ?_⟩
  rw [refuse_status (s := writeBegun t []) hbusy code]
  show (⟨false, false, true, t.status.busywr, code.number⟩ : Status) = t.status
  rw [hstatus]

/-- Settles O11: on the host's turn the command is refused, and a refusal writes STATUS alone. -/
theorem refusalWritesOnlyStatus : Obligations.RefusalWritesOnlyStatus := by
  intro s i code ht hb hc
  rw [exec_host ht, acceptCommand_refused hb hc, ← refuse_status hb code]
  rfl

end Sys2Proof.Proofs

/-! ### What raises `irq` (10_state.md R38, R49; 60_exceptions.md R263, R264) -/

namespace Sys2Proof.Machine

/-- Only a write to IRQ_EN itself changes IRQ_EN (R38). -/
theorem writePlace_irqEn {p : Place} (hp : p ≠ .irqEn) (x : Transaction) (s : State) :
    (writePlace p x s).irqEn = s.irqEn := by
  have kept (act : State → State) (h : (act s).irqEn = s.irqEn) : (unlessBusy act s).irqEn = s.irqEn := by
    cases hb : s.status.busy with
    | true => rw [unlessBusy_busy hb]; rfl
    | false => rw [unlessBusy_idle hb, h]
  cases p with
  | irqEn => exact absurd rfl hp
  | id | cmd | status | resultLen | msgbufSize | outBuf => rfl
  | dstLen | msgLen | outLen | count | dstBuf | msgBuf => exact kept _ rfl

/-- A step keeps IRQ_EN, or is a write to it, or a reset (R38, R50, R280). -/
theorem step_irqEn {s t : State} (h : step s = .next t) :
    t.irqEn = s.irqEn ∨
      (∃ (x : Transaction) (rest : List Event), s.input = .bus x :: rest ∧ x.kind = .write ∧ x.off = 0x000C) ∨
      t.irqEn = ⟨false, false⟩ := by
  cases step_cases h with
  | engineIdle s' hn _ e =>
    obtain ⟨⟨es, rfl⟩, -⟩ := engineNext_eq hn
    exact .inl (e ▸ rfl)
  | engineRun s' hn _ e =>
    obtain ⟨⟨es, rfl⟩, -⟩ := engineNext_eq hn
    obtain ⟨hen, -⟩ := engineStep_frame { s with input := es, turn := .engine }
    exact .inl (e ▸ hen)
  | assertReset _ _ e => exact .inr (.inr (e ▸ rfl))
  | releaseReset _ _ e => exact .inl (e ▸ rfl)
  | busError x s' hn _ _ e | busRead x s' p hn _ _ _ e =>
    obtain ⟨rest, -, rfl⟩ := hn
    exact .inl (e ▸ rfl)
  | busWrite x s' p hn _ ha hk _ e =>
    obtain ⟨rest, hin, rfl⟩ := hn
    by_cases hp : p = .irqEn
    · obtain ⟨-, -, hoff⟩ := off_of_busAccess ha
      exact .inr (.inl ⟨x, rest, hin, hk, hoff hp⟩)
    · exact .inl (e ▸ writePlace_irqEn hp x (answerWrite { s with input := rest, turn := .host }))
  | command x s' i hn _ _ _ _ e =>
    obtain ⟨rest, -, rfl⟩ := hn
    obtain ⟨-, -, -, -, hen⟩ := acceptCommand_frame i (answerWrite { s with input := rest, turn := .host })
    exact .inl (e ▸ hen)
  | illegalWord x s' err hn _ _ _ _ e =>
    obtain ⟨rest, -, rfl⟩ := hn
    obtain ⟨-, -, -, -, hen⟩ := refuseWord_frame (answerWrite { s with input := rest, turn := .host })
    exact .inl (e ▸ hen)

/-- With IRQ_EN kept, `irq` rises only with DONE or ERR (R49). -/
theorem outcome_rises_of_irq_rises {s t : State} (hen : t.irqEn = s.irqEn) (h0 : s.irq = false) (h1 : t.irq = true) :
    (s.status.done = false ∧ t.status.done = true) ∨ (s.status.err = false ∧ t.status.err = true) := by
  simp only [State.irq, hen, Bool.or_eq_true, Bool.or_eq_false_iff, Bool.and_eq_true, Bool.and_eq_false_iff] at h0 h1
  obtain ⟨hdone, herr⟩ := h0
  rcases h1 with ⟨hd, he⟩ | ⟨hr, he⟩
  · exact .inl ⟨hdone.resolve_right (he ▸ Bool.noConfusion), hd⟩
  · exact .inr ⟨herr.resolve_right (he ▸ Bool.noConfusion), hr⟩

/-- Only a refused CMD write sets ERR (R36, R255). -/
theorem refused_of_err_rises {s t : State} (hst : step s = .next t) (h0 : s.status.err = false)
    (h1 : t.status.err = true) :
    ∃ (x : Transaction) (rest : List Event), s.input = .bus x :: rest ∧ x.kind = .write ∧ x.off = 0x0004 ∧
      s.status.busy = false := by
  cases step_status hst with
  | refused x rest _ hin hk ho hb _ _ => exact ⟨x, rest, hin, hk, ho, hb⟩
  | kept e | commit _ _ _ e | reset _ _ e | dropped _ _ _ _ _ _ _ _ e | cleared _ _ _ _ _ e
  | accepted _ _ _ _ _ _ _ _ e => simp [e, Status.zero, Status.writeOneToClear, h0] at h1

end Sys2Proof.Machine

namespace Sys2Proof.Proofs

open Sys2Proof.Machine

/-- Settles O29: either IRQ_EN changes, which after a reset leaves `irq` low, or DONE or ERR rises. -/
theorem irqRisesOnlyAtItsCauses : Obligations.IrqRisesOnlyAtItsCauses := by
  intro s t hst h0 h1
  by_cases hen : t.irqEn = s.irqEn
  · rcases outcome_rises_of_irq_rises hen h0 h1 with ⟨hd0, hd1⟩ | ⟨he0, he1⟩
    · obtain ⟨hq, -⟩ := commit_of_done_rises hst hd0 hd1
      exact .inl ⟨hq, hd0, hd1⟩
    · obtain ⟨x, rest, hin, hk, ho, hb⟩ := refused_of_err_rises hst he0 he1
      exact .inr (.inl ⟨x, rest, hin, hk, ho, hb, he1⟩)
  · rcases step_irqEn hst with hkept | ⟨x, rest, hin, hk, ho⟩ | hreset
    · exact absurd hkept hen
    · exact .inr (.inr ⟨x, rest, hin, hk, ho, hen⟩)
    · simp [State.irq, hreset] at h1

end Sys2Proof.Proofs

/-! ### A clear of DONE beside a commit (60_exceptions.md R265) -/

namespace Sys2Proof.Machine

/-- Two steps, one after the other. -/
theorem run_two {s t u : State} (h1 : step s = .next t) (h2 : step t = .next u) :
    Host.Core.run Sys2Proof.core 2 s = .next u := by
  rw [run_succ h1, run_succ h2]
  rfl

/-- The engine's turn at COMMIT, given by the next event (R86, R191, R238). -/
theorem step_engine_commit {s : State} {rest : List Event} (hin : s.input = .engine :: rest) (hq : s.seq = .commit) :
    step s = .next (commitHeld { s with input := rest, turn := .engine }) := by
  have hactive : s.seq ≠ .idle := by simp [hq]
  have hturn := step_engine_run (.inr ⟨rest, hin, rfl⟩) hactive
  rwa [engineStep_commit (s := { s with input := rest, turn := .engine }) hq] at hturn

/-- `WR32` of STATUS (R33, R106). -/
theorem step_wr32_status {s : State} {v : Word} {rest : List Event} (hr : s.rstN = true)
    (hin : s.input = wr32 0x0008 v :: rest) : step s = .next (writeStatus v (writeBegun s rest)) :=
  step_wr32 hr hin (p := .status) (by decide) (by decide)

/-- A commit takes no event and leaves `rst_n` alone. -/
theorem commitHeld_input_rstN (s : State) : (commitHeld s).input = s.input ∧ (commitHeld s).rstN = s.rstN := by
  unfold commitHeld
  split <;> exact ⟨rfl, rfl⟩

end Sys2Proof.Machine

namespace Sys2Proof.Proofs

open Sys2Proof.Machine

/-- Settles O51: a commit sets DONE and ends the command, a W1C of bit 1 clears DONE, and neither undoes the other's
effect on what it leaves alone. -/
theorem clearAndCommitTakeEitherOrder : Obligations.ClearAndCommitTakeEitherOrder := by
  intro s v hinv hq hv
  have hactive : s.seq ≠ .idle := by simp [hq]
  have hr : s.rstN = true := (hinv.control.held hactive).running
  constructor
  · have hcommit := step_engine_commit (s := { s with input := [.engine, wr32 0x0008 v] }) rfl hq
    obtain ⟨hin, hrst⟩ := commitHeld_input_rstN { s with input := [wr32 0x0008 v], turn := .engine }
    have hclear := step_wr32_status (hrst.trans hr) hin
    refine ⟨_, run_two hcommit hclear, ?_, ?_, commitHeld_seq _⟩
    · simp [writeBegun, Status.writeOneToClear, hv]
    · simp [writeBegun, Status.writeOneToClear, commitHeld_status]
  · have hclear := step_wr32_status (s := { s with input := [wr32 0x0008 v, .engine] }) hr rfl
    have hcommit := step_engine_commit
      (s := writeStatus v (writeBegun { s with input := [wr32 0x0008 v, .engine] } [.engine])) rfl hq
    refine ⟨_, run_two hclear hcommit, ?_, ?_, commitHeld_seq _⟩ <;> rw [commitHeld_status]

end Sys2Proof.Proofs

/-! ### Reset, and what stops a step (70_reset_and_hazards.md R280 to R282; 93_implementation_defined.md U19) -/

namespace Sys2Proof.Machine

/-- An engine turn always gives a next state, with a command held or not (R45, R86). -/
theorem step_of_engineNext {s s' : State} (h : engineNext s s') : ∃ t, step s = .next t := by
  by_cases hi : s'.seq = .idle
  · exact ⟨_, step_engine_idle h hi⟩
  · exact ⟨_, step_engine_run h hi⟩

/-- Out of reset the port answers every access, legal or not (R72, R78). -/
theorem step_bus_answers {s : State} {x : Transaction} {rest : List Event} (hr : s.rstN = true)
    (hin : s.input = .bus x :: rest) : ∃ t, step s = .next t := by
  cases ha : busAccess x s with
  | none => exact ⟨_, step_access_error hr hin ha⟩
  | some p =>
    obtain ⟨t, _, hst, -⟩ := step_access_okay hr hin ha
    exact ⟨t, hst⟩

/-- Every step gives a next state but for a bus access during reset, which is refused (R280, U19). -/
theorem step_next_or_refused (s : State) :
    (∃ t, step s = .next t) ∨
      s.rstN = false ∧ (∃ x rest, s.input = .bus x :: rest) ∧ step s = .refused .busAccessDuringReset := by
  cases hin : s.input with
  | nil => exact .inl (step_of_engineNext (.inl ⟨hin, rfl⟩))
  | cons ev rest =>
    cases ev with
    | engine => exact .inl (step_of_engineNext (.inr ⟨rest, hin, rfl⟩))
    | assertReset => exact .inl ⟨_, step_assertReset hin⟩
    | releaseReset => exact .inl ⟨_, step_releaseReset hin⟩
    | bus x =>
      cases hr : s.rstN with
      | true => exact .inl (step_bus_answers hr hin)
      | false => exact .inr ⟨rfl, ⟨x, rest, rfl⟩, step_bus_inReset ⟨rest, hin, rfl⟩ hr⟩

/-- The commit of an EXPAND with OUT_LEN = 0 writes no byte (R191, R192). -/
theorem commitHeld_expand_empty {s : State} (hop : s.snap.op = .expand) (hl : s.snap.outLen = 0) :
    commitHeld s = finishCommand 0 s := by
  rw [commitHeld, hop]
  show commitExpand s = _
  rw [commitExpand, hl]
  rfl

end Sys2Proof.Machine

namespace Sys2Proof.Proofs

open Sys2Proof.Machine

/-- Settles O6: no fault exists, and a step that is not a bus access during reset gives a next state. -/
theorem stepRefusesOnlyAccessesInReset : Obligations.StepRefusesOnlyAccessesInReset := by
  intro s
  refine ⟨nofun, fun r => ⟨fun h => ?_, ?_⟩⟩
  · rcases step_next_or_refused s with ⟨t, hst⟩ | ⟨hr, hbus, hst⟩
    · rw [hst] at h
      cases h
    · rw [hst] at h
      cases h
      exact ⟨rfl, hr, hbus⟩
  · rintro ⟨rfl, hr, x, rest, hin⟩
    exact step_bus_inReset ⟨rest, hin, rfl⟩ hr

/-- Settles O33: `rst_n` falls, and of the events that may come next an access is refused and a release raises
`rst_n`. -/
theorem resetReplacesTheState : Obligations.ResetReplacesTheState := by
  intro s rest hin
  refine ⟨enterReset { s with input := rest }, step_assertReset hin, rfl, rfl, rfl, rfl, rfl, rfl, rfl, rfl, rfl,
    rfl, fun _ => rfl, rfl, rfl, fun x rest' hbus => ?_, fun rest' hrelease => ?_⟩
  · exact step_bus_inReset ⟨rest', hbus, rfl⟩ rfl
  · exact step_releaseReset (s := enterReset { s with input := rest }) hrelease

/-- Settles O35: the reset operands pass the checks, three turns later the command commits, and up to then only the
hidden registers have changed. -/
theorem expandRightAfterResetIsEmpty : Obligations.ExpandRightAfterResetIsEmpty := by
  intro size epoch hsize
  have haccept : checkOperands .expand (State.resetValue size epoch true [wr32 0x0004 0x00000001]) = none :=
    checkOperands_eq_none.mpr ⟨Nat.zero_le _, Nat.zero_le _, Nat.zero_le _⟩
  obtain ⟨u, hrun, hu, -, -⟩ := run_command rfl rfl rfl hsize haccept
  have hcommit : commitHeld u = finishCommand 0 u := commitHeld_expand_empty (by rw [hu]; rfl) (by rw [hu]; rfl)
  have hturns : 1 + turnsToCommit .expand 0 0 = 4 := by decide
  rw [hcommit, hu] at hrun
  exact ⟨_, hturns ▸ hrun, rfl, rfl, rfl, rfl, rfl⟩

end Sys2Proof.Proofs
